-- ==== Sys2Proof/Word.lean ====
section
/-! DEFINITION. The word types of the engine (00_scope.md R10): u8, u16 and the 24 bits of a header. -/

namespace Sys2Proof

/-- `u8`: one octet of BUF, W, FSP, FSB, HCAT and of every wire format (00_scope.md R10). -/
abbrev Byte := BitVec 8

/-- `u16`: lengths, offsets and the command word (00_scope.md R10, 30_encoding.md R86). -/
abbrev Half := BitVec 16

/-- The three octets of a header as one number, category in bits 23:16 (30_encoding.md R70). -/
abbrev Word24 := BitVec 24

end Sys2Proof
end

