-- ==== Sys2Proof/Machine/Values.lean ====
section
/-! DEFINITION. The values the engine's registers hold: the nine field types of a record, the record, the error kinds
and the phases of the message decoder (10_state.md R21, R22, R34; 60_exceptions.md R200). -/

namespace Sys2Proof.Machine

/-- The five error kinds (60_exceptions.md R200). -/
inductive ErrorKind where
  /-- A length does not fit (R201). -/
  | sizeInvalid
  /-- The category is not 34 (R202). -/
  | categoryInvalid
  /-- A physical value has no wire integer (R203). -/
  | rangeInvalid
  /-- The wire data asks for something the source gives no meaning (R204). -/
  | itemUnsupported
  /-- The command as issued has no meaning (R205). -/
  | commandInvalid
deriving DecidableEq, Repr

/-- R[1] DataSource: the two raw octets in wire order (10_state.md R22, 30_encoding.md R77 c). -/
structure DataSource where
  o0 : Byte
  o1 : Byte
deriving DecidableEq, Repr, Inhabited

/-- R[6] and R[7]: four optional opaque octets (42_field_codecs.md R150). -/
structure Subfields where
  com : Option Byte
  psr : Option Byte
  ssr : Option Byte
  mds : Option Byte
deriving DecidableEq, Repr, Inhabited

/-- R[9] GenericPolarWindow: rho in nautical miles, theta in degrees (10_state.md R22). -/
structure PolarWindow where
  rhoStart : Rat
  rhoEnd : Rat
  thetaStart : Rat
  thetaEnd : Rat
deriving DecidableEq, Repr, Inhabited

/-- R[11] PositionSource: height in metres, latitude and longitude in degrees (10_state.md R22). -/
structure Position where
  height : Rat
  lat : Rat
  lon : Rat
deriving DecidableEq, Repr, Inhabited

/-- The nine fields that have a codec and a slot (00_scope.md R6, CODEC_FRNS). -/
inductive Field where
  | dsi
  | mty
  | tod
  | sec
  | arp
  | scs
  | spm
  | gpw
  | pos
deriving DecidableEq, Repr

/-- A value of one of the nine field types (10_state.md R22). -/
inductive FieldValue where
  | dsi (v : DataSource)
  | mty (v : Byte)
  | tod (v : Rat)
  | sec (v : Rat)
  | arp (v : Rat)
  | scs (v : Subfields)
  | spm (v : Subfields)
  | gpw (v : PolarWindow)
  | pos (v : Position)
deriving DecidableEq, Repr

/-- A record: nine slots, each absent or present with a value (10_state.md R21). Presence and value are one cell. -/
structure Record where
  dsi : Option DataSource
  mty : Option Byte
  tod : Option Rat
  sec : Option Rat
  arp : Option Rat
  scs : Option Subfields
  spm : Option Subfields
  gpw : Option PolarWindow
  pos : Option Position
deriving DecidableEq, Repr, Inhabited

/-- The record in which every slot is None (10_state.md R36). -/
def Record.empty : Record :=
  { dsi := none, mty := none, tod := none, sec := none, arp := none, scs := none, spm := none, gpw := none,
    pos := none }

/-- The message decoder's phase PH (10_state.md R34, 44_message_engine.md R194). -/
inductive Phase where
  | readHeader
  | readRecord
  | done
  | failed (k : ErrorKind)
deriving DecidableEq, Repr

end Sys2Proof.Machine
end

