-- ==== Sys2Proof/Config.lean ====
section
/-! DEFINITION. What the spec fixes as constants (00_scope.md R6, R7), the two OPEN parameters it asks the model to
take as arguments (92_eei_decisions.md D13, D15), and the free values of what it leaves unspecified. -/

namespace Sys2Proof.Config

/-- CAT, the only category the message engine accepts (00_scope.md R6). -/
def cat : Byte := 34#8

/-- HDRLEN (R6). -/
def hdrLen : Nat := 3

/-- FRNMAX (R6). -/
def frnMax : Nat := 14

/-- FRN_PER_OCTET (R6). -/
def frnPerOctet : Nat := 7

/-- MAXCHAIN (R6). -/
def maxChain : Nat := 2

/-- BUFCAP (R7, 92_eei_decisions.md D25). -/
def bufCap : Nat := 65535

/-- The largest total length a header can declare, and what BUF holds (44_message_engine.md R190). -/
def maxMessage : Nat := 65535

/-- PHYS_FB, the fraction bits of the fixed-point realisation (R7, 42_field_codecs.md R137). The machine itself
computes on exact rationals and does not use it. -/
def physFb : Nat := 32

/-- PHYS_W (R7, R137). -/
def physW : Nat := 64

/-- SUBMAP: the primary-octet bit (source numbering, 8 the most significant) of each subfield. OPEN parameter
(92_eei_decisions.md D15): any four distinct bits among 8..2, in descending order for COM, PSR, SSR, MDS. -/
structure SubMap where
  com : Nat
  psr : Nat
  ssr : Nat
  mds : Nat
  /-- The range D15 allows. -/
  ordered : com ≤ 8 ∧ psr < com ∧ ssr < psr ∧ mds < ssr ∧ 2 ≤ mds
deriving DecidableEq, Repr

/-- The spec's default: COM bit 8, PSR bit 5, SSR bit 4, MDS bit 3 (00_scope.md R7; general knowledge G2 of
93_implementation_defined.md). -/
def SubMap.default : SubMap := { com := 8, psr := 5, ssr := 4, mds := 3, ordered := by decide }

/-- The OPEN parameters (92_eei_decisions.md, "Open parameters in one place"). -/
structure Params where
  /-- MT_STRICT (D13). -/
  mtStrict : Bool
  /-- SUBMAP (D15). -/
  subMap : SubMap
deriving DecidableEq, Repr

/-- The defaults of 00_scope.md R7. -/
def Params.default : Params := { mtStrict := false, subMap := SubMap.default }

/-- FREE VALUE. The octet at an address of BUF that nothing has written since reset: unspecified, "a model must not
assume any value" (10_state.md R36). Log entry 4. -/
opaque freeByte : Nat → Byte

/-- FREE VALUE. What CUR holds after a command: "not defined between commands" (10_state.md R24, R36), a fresh value
for each count. Log entry 2. -/
opaque freeCursor : Nat → Half

/-- FREE VALUE. A record that comes into being when the host raises NREC without writing it: the spec states no
contents (10_state.md R32). Log entry 5. -/
opaque freeRecord : Nat → Machine.Record

end Sys2Proof.Config
end

