-- ==== Sys2Proof/Syntax.lean ====
section
/-! DEFINITION. The instructions: one constructor for each row of spec/opcode_table.json, and the codes they are
written in (30_encoding.md R86, R71, R76, R78, R70). -/

namespace Sys2Proof

/-- The two items that have a primary octet: FRN 6 and FRN 7 (30_encoding.md R78). -/
inductive StatusItem where
  | scs
  | spm
deriving DecidableEq, Repr

/-- In which role the engine looks at an octet of the wire. The same eight bits mean different rows of the opcode
table in different roles (30_encoding.md R71, R76, R78): the octet alone does not say which. -/
inductive Role where
  /-- FSPEC octet at chain index 0: FX0 and the presence bits of FRN 1 to 7 (R76). -/
  | chain0
  /-- FSPEC octet at chain index 1: the presence bits of FRN 8 to 14 (R76). -/
  | chain1
  /-- FX test of the FSPEC octet at chain index 1 (R80). -/
  | chain1Fx
  /-- Primary octet of an item: the four subfield bits (R78). -/
  | primary (item : StatusItem)
  /-- Spare test of a primary octet (R82). -/
  | primarySpare
  /-- FX test of a primary octet (R82). -/
  | primaryFx
deriving DecidableEq, Repr

/-- What an instruction is written as: a host command word (R86), an octet in a role, or a header (R70). A host
presents command words only; the other two are the granularity below a command (log entry 7). -/
inductive Code where
  | command (w : Half)
  | octet (role : Role) (o : Byte)
  | header (h : Word24)
deriving DecidableEq, Repr

/-- The instructions. The first 29 are the host commands of 30_encoding.md R86; the other 23 are the wire-level rows
of R70, R71, R76, R78 to R80 and R82. -/
inductive Instr where
  /-- HDR.ENC (40_header.md R102) -/
  | hdrEnc
  /-- HDR.DEC (40_header.md R103) -/
  | hdrDec
  /-- FS.SET n, n in 1..8 in the source's bit numbering (41_fspec.md R110) -/
  | fsSet (n : Byte)
  /-- FS.GET n (41_fspec.md R111) -/
  | fsGet (n : Byte)
  /-- FSPEC.ENC (41_fspec.md R113) -/
  | fspecEnc
  /-- FSPEC.DEC (41_fspec.md R115) -/
  | fspecDec
  /-- TOW.DSI (42_field_codecs.md R140) -/
  | towDsi
  /-- TOW.MTY (R142) -/
  | towMty
  /-- TOW.TOD (R144) -/
  | towTod
  /-- TOW.SEC (R146) -/
  | towSec
  /-- TOW.ARP (R148) -/
  | towArp
  /-- TOW.SCS (R152) -/
  | towScs
  /-- TOW.SPM (R154) -/
  | towSpm
  /-- TOW.GPW (R156) -/
  | towGpw
  /-- TOW.POS (R158) -/
  | towPos
  /-- FRW.DSI (R141) -/
  | frwDsi
  /-- FRW.MTY (R143) -/
  | frwMty
  /-- FRW.TOD (R145) -/
  | frwTod
  /-- FRW.SEC (R147) -/
  | frwSec
  /-- FRW.ARP (R149) -/
  | frwArp
  /-- FRW.SCS (R153) -/
  | frwScs
  /-- FRW.SPM (R155) -/
  | frwSpm
  /-- FRW.GPW (R157) -/
  | frwGpw
  /-- FRW.POS (R159) -/
  | frwPos
  /-- REC.ENC (43_record_engine.md R171) -/
  | recEnc
  /-- REC.DEC (43_record_engine.md R173) -/
  | recDec
  /-- OFS.Q f, f in 1..14 (43_record_engine.md R176) -/
  | ofsQ (f : Byte)
  /-- MSG.ENC (44_message_engine.md R191) -/
  | msgEnc
  /-- MSG.DEC (44_message_engine.md R193) -/
  | msgDec
  /-- FRN1.DSI: presence bit 0x80 at chain index 0 (30_encoding.md R76) -/
  | frn1Dsi
  /-- FRN2.MTY -/
  | frn2Mty
  /-- FRN3.TOD -/
  | frn3Tod
  /-- FRN4.SEC -/
  | frn4Sec
  /-- FRN5.ARP -/
  | frn5Arp
  /-- FRN6.SCS -/
  | frn6Scs
  /-- FRN7.SPM -/
  | frn7Spm
  /-- FRN8, message count values: no codec (R79) -/
  | frn8
  /-- FRN9.GPW: presence bit 0x40 at chain index 1 (R76) -/
  | frn9Gpw
  /-- FRN10, data filter: no codec (R79) -/
  | frn10
  /-- FRN11.POS -/
  | frn11Pos
  /-- FRN12, colimation error: no codec (R79) -/
  | frn12
  /-- FRN13, reserved expansion: no codec (R79) -/
  | frn13
  /-- FRN14, special purpose: no codec (R79) -/
  | frn14
  /-- FX0: FX of the FSPEC octet at chain index 0 is 1 (R71) -/
  | fx0
  /-- FX1: the FX test of the FSPEC octet `o` at chain index 1 (R80) -/
  | fx1 (o : Byte)
  /-- SUB.COM of an item (R78) -/
  | subCom (item : StatusItem)
  /-- SUB.PSR of an item (R78) -/
  | subPsr (item : StatusItem)
  /-- SUB.SSR of an item (R78) -/
  | subSsr (item : StatusItem)
  /-- SUB.MDS of an item (R78) -/
  | subMds (item : StatusItem)
  /-- SUB.SPARE: the spare test of the primary octet `p` (R82) -/
  | subSpare (p : Byte)
  /-- SUB.FX: the FX test of the primary octet `p` (R82) -/
  | subFx (p : Byte)
  /-- HEADER: category octet and declared length (R70) -/
  | header (cat : Byte) (len : Half)
deriving DecidableEq, Repr

end Sys2Proof
end

