-- ==== Sys2Proof/Machine/State.lean ====
section
/-! DEFINITION. The machine's state as plain data (10_state.md R20 to R36), what the host can ask of it
(70_reset_and_hazards.md R238), the reasons a step can stop, and the state after reset. -/

namespace Sys2Proof.Machine

/-- BUF as (address, octet) pairs, addresses strictly rising; an address that is not listed holds an octet nothing has
written (10_state.md R33, R36; log entry 4). -/
abbrev Memory := List Host.Cell

/-- One host write of one register between commands (70_reset_and_hazards.md R238; the `REG := value` lines of
30_encoding.md R88). Every register but STATUS and CUR. -/
inductive HostWrite where
  /-- BUF[a] := b -/
  | buf (a : Half) (b : Byte)
  /-- BLEN := n -/
  | blen (n : Half)
  /-- R[f] := Some v, f the field of v -/
  | slot (v : FieldValue)
  /-- R[f] := None -/
  | clear (f : Field)
  /-- NREC := n -/
  | nrec (n : Half)
  /-- RS[i] := rec -/
  | rs (i : Half) (rec : Record)
  /-- RS[i].R[f] := Some v -/
  | rsSlot (i : Half) (v : FieldValue)
  /-- RS[i].R[f] := None -/
  | rsClear (i : Half) (f : Field)
  /-- HCAT := c -/
  | hcat (c : Byte)
  /-- HLEN := n -/
  | hlen (n : Half)
  /-- FSB := b -/
  | fsb (b : Byte)
  /-- FSP[0] := b -/
  | fsp0 (b : Byte)
  /-- FSP[1] := b -/
  | fsp1 (b : Byte)
  /-- FLEN := n, n in 0..2 -/
  | flen (n : Fin 3)
  /-- W[i] := b -/
  | w (i : Fin 8) (b : Byte)
  /-- WLEN := n, n in 0..8 -/
  | wlen (n : Fin 9)
  /-- RLEN := n -/
  | rlen (n : Half)
  /-- OFS := n -/
  | ofs (n : Half)
  /-- T := b -/
  | t (b : Bool)
deriving DecidableEq, Repr

/-- What stands in the queue of requests: a code to execute, or a host write. -/
inductive Request where
  | code (c : Code)
  | write (h : HostWrite)
deriving DecidableEq, Repr

/-- The state of one engine. The docstring of each field names the register and its rule. -/
structure State where
  /-- R, the record slot file (10_state.md R21, R22) -/
  r : Record
  /-- CUR, the byte cursor (R24) -/
  cur : Half
  /-- T, the test result (R25 c) -/
  t : Bool
  /-- STATUS (R26) -/
  status : BitVec 3
  /-- RLEN (R27) -/
  rlen : Half
  /-- OFS (R27) -/
  ofs : Half
  /-- HCAT (R28) -/
  hcat : Byte
  /-- HLEN (R28) -/
  hlen : Half
  /-- FSB (R29) -/
  fsb : Byte
  /-- FSP[0] (R30) -/
  fsp0 : Byte
  /-- FSP[1] (R30) -/
  fsp1 : Byte
  /-- FLEN, 0 to 2 (R30) -/
  flen : Fin 3
  /-- W[0..7] (R31) -/
  w : Vector Byte 8
  /-- WLEN, 0 to 8 (R31) -/
  wlen : Fin 9
  /-- RS, the record store; NREC is its length (R32) -/
  rs : List Record
  /-- BUF (R33) -/
  buf : Memory
  /-- BLEN (R33) -/
  blen : Half
  /-- PH, which does not exist between commands (R34, R36) -/
  ph : Option Phase
  /-- The MODEL's own: how many free values have been taken (log entries 2 and 5). -/
  freeCount : Nat
  /-- The MODEL's own: the OPEN parameters; no step writes them (log entry 6). -/
  params : Config.Params
  /-- The MODEL's own: what the host has asked for and the engine has not yet taken (R238; log entry 1). -/
  pending : List Request
deriving DecidableEq, Repr

/-- Why a step stops. Only a host write stops; no command does (93_implementation_defined.md Part 1). -/
inductive Fault where
  /-- A host write to BUF at offset 65535, which does not exist (20_memory.md R50). Raised by `hostWrite`. Safe: the
  model stops. -/
  | noSuchByte (a : Half)
  /-- A host write to RS[i] with i at or past NREC: there is no such record (10_state.md R32). Raised by `hostWrite`.
  Safe: the model stops. -/
  | noSuchRecord (i : Half)
deriving DecidableEq, Repr

/-- Why an instruction has no meaning. -/
inductive Refusal where
  /-- Raised by an arm of `exec` whose instruction has no meaning yet; no arm raises it. Safe: the model stops. -/
  | notModelled (mnemonic : String)
deriving DecidableEq, Repr

/-- The machine right after reset (10_state.md R36, 70_reset_and_hazards.md R230). CUR and the model's own fields hold
the values of log entry 3. -/
def State.reset : State :=
  { r := Record.empty, cur := 0, t := false, status := 0, rlen := 0, ofs := 0, hcat := 0, hlen := 0, fsb := 0,
    fsp0 := 0, fsp1 := 0, flen := 0, w := Vector.replicate 8 0, wlen := 0, rs := [], buf := [], blen := 0,
    ph := none, freeCount := 0, params := Config.Params.default, pending := [] }

end Sys2Proof.Machine
end

