-- ==== Sys2Proof/Machine/Flags.lean ====
section
/-! DEFINITION. Bits of octets and the engine's one-bit state: the source's bit numbering, FX, presence of an FRN in a
chain and of a field in a record (00_scope.md R9; 10_state.md R21, R25; 30_encoding.md R71, R75). -/

namespace Sys2Proof.Machine

/-- `bit(b, n)`: the source's bit n of octet b, n in 1..8, 8 the most significant (00_scope.md R9). -/
def srcBit (b : Byte) (n : Nat) : Bool := b.getLsbD (n - 1)

/-- The mask of the source's bit n: `1 << (n-1)` (00_scope.md R9). -/
def srcMask (n : Nat) : Byte := 1#8 <<< (n - 1)

/-- The FX bit of an octet, its bit 1 (10_state.md R25 b, 30_encoding.md R71). -/
def fx (b : Byte) : Bool := srcBit b 1

/-- `oct(f)`: the chain index of FRN f (30_encoding.md R75). -/
def frnOctet (f : Nat) : Nat := (f - 1) / Config.frnPerOctet

/-- `mask(f)`: the presence mask of FRN f in its octet (30_encoding.md R75). -/
def frnMask (f : Nat) : Byte := 0x80#8 >>> ((f - 1) % Config.frnPerOctet)

/-- `declared(o, f)`: the chain o declares FRN f present (41_fspec.md R117). -/
def declared (o : List Byte) (f : Nat) : Bool :=
  match o[frnOctet f]? with
  | some b => (b &&& frnMask f) != 0
  | none => false

/-- The FRN of a field (30_encoding.md R76). -/
def Field.frn : Field → Nat
  | .dsi => 1
  | .mty => 2
  | .tod => 3
  | .sec => 4
  | .arp => 5
  | .scs => 6
  | .spm => 7
  | .gpw => 9
  | .pos => 11

/-- The field that an FRN selects, none for an FRN without codec: 8, 10, 12, 13, 14 (30_encoding.md R76, R79). -/
def Field.ofFrn : Nat → Option Field
  | 1 => some .dsi
  | 2 => some .mty
  | 3 => some .tod
  | 4 => some .sec
  | 5 => some .arp
  | 6 => some .scs
  | 7 => some .spm
  | 9 => some .gpw
  | 11 => some .pos
  | _ => none

/-- CODEC_FRNS in ascending FRN order, the order of the wire (00_scope.md R6, 30_encoding.md R73). -/
def codecFields : List Field := [.dsi, .mty, .tod, .sec, .arp, .scs, .spm, .gpw, .pos]

/-- The FRNs 1 to 14 in ascending order (43_record_engine.md R172). -/
def allFrns : List Nat := [1, 2, 3, 4, 5, 6, 7, 8, 9, 10, 11, 12, 13, 14]

/-- The field a value belongs to. -/
def FieldValue.field : FieldValue → Field
  | .dsi _ => .dsi
  | .mty _ => .mty
  | .tod _ => .tod
  | .sec _ => .sec
  | .arp _ => .arp
  | .scs _ => .scs
  | .spm _ => .spm
  | .gpw _ => .gpw
  | .pos _ => .pos

/-- `R[f]`: what slot f of a record holds (10_state.md R21). -/
def Record.get (rec : Record) : Field → Option FieldValue
  | .dsi => rec.dsi.map .dsi
  | .mty => rec.mty.map .mty
  | .tod => rec.tod.map .tod
  | .sec => rec.sec.map .sec
  | .arp => rec.arp.map .arp
  | .scs => rec.scs.map .scs
  | .spm => rec.spm.map .spm
  | .gpw => rec.gpw.map .gpw
  | .pos => rec.pos.map .pos

/-- `R[f] <- Some(v)`, f the field of v (10_state.md R21). -/
def Record.put (rec : Record) : FieldValue → Record
  | .dsi v => { rec with dsi := some v }
  | .mty v => { rec with mty := some v }
  | .tod v => { rec with tod := some v }
  | .sec v => { rec with sec := some v }
  | .arp v => { rec with arp := some v }
  | .scs v => { rec with scs := some v }
  | .spm v => { rec with spm := some v }
  | .gpw v => { rec with gpw := some v }
  | .pos v => { rec with pos := some v }

/-- `R[f] <- None` (10_state.md R21; a host write, 70_reset_and_hazards.md R238). -/
def Record.clear (rec : Record) : Field → Record
  | .dsi => { rec with dsi := none }
  | .mty => { rec with mty := none }
  | .tod => { rec with tod := none }
  | .sec => { rec with sec := none }
  | .arp => { rec with arp := none }
  | .scs => { rec with scs := none }
  | .spm => { rec with spm := none }
  | .gpw => { rec with gpw := none }
  | .pos => { rec with pos := none }

/-- `present(R, f)` (10_state.md R21): false for an FRN without slot. -/
def present (rec : Record) (f : Nat) : Bool :=
  match Field.ofFrn f with
  | some fld => (rec.get fld).isSome
  | none => false

/-- The presence set S of a record, ascending (43_record_engine.md R170). -/
def presentFrns (rec : Record) : List Nat := allFrns.filter (present rec)

end Sys2Proof.Machine
end

