-- ==== Sys2Proof/Machine/Ops.lean ====
section
/-! DEFINITION. The named operations over memory and registers: BUF and its bound, byte order, the staging registers,
and how a command ends (20_memory.md R50 to R53; 60_exceptions.md R200, R210, R211). -/

namespace Sys2Proof.Machine

/-! ## BUF -/

/-- The octet listed at address `a`, none where nothing has written it (10_state.md R33, R36). -/
def Memory.read : Memory → Nat → Option Byte
  | [], _ => none
  | c :: m, a => if c.1 = a then some c.2 else Memory.read m a

/-- `BUF[a] <- b`, keeping the addresses strictly rising. -/
def Memory.write : Memory → Nat → Byte → Memory
  | [], a, b => [(a, b)]
  | c :: m, a, b =>
    if c.1 < a then c :: Memory.write m a b
    else if c.1 = a then (a, b) :: m
    else (a, b) :: c :: m

/-- `BUF[a .. a + n) <- bs`, the first octet at the lowest address (20_memory.md R53, R66). -/
def Memory.writeBytes : Memory → Nat → List Byte → Memory
  | m, _, [] => m
  | m, a, b :: bs => Memory.writeBytes (Memory.write m a b) (a + 1) bs

/-- The canonical form: addresses strictly rising and inside BUF (20_memory.md R50). An unlisted address has no value,
so no entry equals what an unlisted address reads as. -/
abbrev Memory.wf (m : Memory) : Prop :=
  m.Pairwise (fun c d => c.1 < d.1) ∧ ∀ c ∈ m, c.1 < Config.bufCap

/-- What reading BUF at `a` gives: the octet written there, or the free value of that address (10_state.md R36; log
entry 4). Reading has no side effect (20_memory.md R58). -/
def Memory.octet (m : Memory) (a : Nat) : Byte := (Memory.read m a).getD (Config.freeByte a)

/-- BUF[0 .. BLEN), the valid octets (20_memory.md R51). Decoding commands see these and no others (R52). -/
def State.validBytes (s : State) : List Byte := (List.range s.blen.toNat).map (Memory.octet s.buf)

/-- `BUF[0 .. len(bs)) <- bs; BLEN <- len(bs)` (43_record_engine.md R171, 44_message_engine.md R191). -/
def State.storeBuf (s : State) (bs : List Byte) : State :=
  { s with buf := Memory.writeBytes s.buf 0 bs, blen := BitVec.ofNat 16 bs.length }

/-! ## Byte order and integers -/

/-- Big-endian reading of octets, `MemRead` (20_memory.md R53, 00_scope.md R11). -/
def beNat (bs : List Byte) : Nat := bs.foldl (fun n b => n * 256 + b.toNat) 0

/-- The `w` low-order octets of `n`, most significant first, `MemWrite` (20_memory.md R53, 00_scope.md R11). -/
def beBytes (w n : Nat) : List Byte :=
  (List.range w).map fun i => BitVec.ofNat 8 (n >>> (8 * (w - 1 - i)))

/-- `sext_N(v)` (00_scope.md R11). -/
def sext (bits v : Nat) : Int := if v < 2 ^ (bits - 1) then (v : Int) else (v : Int) - 2 ^ bits

/-- `tc_N(n)` (00_scope.md R11). -/
def twosComp (bits : Nat) (n : Int) : Nat := if 0 ≤ n then n.toNat else (n + 2 ^ bits).toNat

/-- `trunc(q)`: the fraction discarded, toward zero (00_scope.md R11, 42_field_codecs.md R135). -/
def trunc (q : Rat) : Int := Int.tdiv q.num q.den

/-! ## Staging registers -/

/-- W with its first octets replaced by `bs`; the others unchanged (10_state.md R31). -/
def stageBytes (w : Vector Byte 8) (bs : List Byte) : Vector Byte 8 :=
  ⟨((bs ++ w.toList.drop bs.length).take 8).toArray, by simp; omega⟩

/-- `W[0 .. len(bs)) <- bs; WLEN <- len(bs)` (42_field_codecs.md R138). No codec gives more than 8 octets. -/
def State.stage (s : State) (bs : List Byte) : State :=
  { s with w := stageBytes s.w bs, wlen := Fin.ofNat 9 bs.length }

/-- W[0 .. WLEN) (10_state.md R31). -/
def State.staged (s : State) : List Byte := s.w.toList.take s.wlen.val

/-- `FLEN <- len(o); FSP[0] <- o[0]; FSP[1] <- o[1] if FLEN = 2 else 0` (41_fspec.md R113, R115). -/
def State.setChain (s : State) (o : List Byte) : State :=
  { s with fsp0 := o.getD 0 0, fsp1 := o.getD 1 0, flen := Fin.ofNat 3 o.length }

/-! ## Register writes -/

/-- `R[f] <- Some(v)` (42_field_codecs.md R139). -/
def State.putSlot (s : State) (v : FieldValue) : State := { s with r := s.r.put v }

/-- `R <- rec`, all nine slots (43_record_engine.md R173). -/
def State.setRecord (s : State) (rec : Record) : State := { s with r := rec }

/-- `RLEN <- n` (10_state.md R27). -/
def State.setRlen (s : State) (n : Nat) : State := { s with rlen := BitVec.ofNat 16 n }

/-- `OFS <- n` (10_state.md R27). -/
def State.setOfs (s : State) (n : Nat) : State := { s with ofs := BitVec.ofNat 16 n }

/-- `T <- b` (10_state.md R25 c). -/
def State.setT (s : State) (b : Bool) : State := { s with t := b }

/-- `FSB <- b` (10_state.md R29). -/
def State.setFsb (s : State) (b : Byte) : State := { s with fsb := b }

/-- `HCAT <- c; HLEN <- l` (10_state.md R28). -/
def State.setHeader (s : State) (c : Byte) (l : Half) : State := { s with hcat := c, hlen := l }

/-- `HLEN <- n` (10_state.md R28). -/
def State.setHlen (s : State) (n : Nat) : State := { s with hlen := BitVec.ofNat 16 n }

/-- `RS[0 .. NREC) <- recs; NREC <- len(recs)` (10_state.md R32). -/
def State.setRs (s : State) (recs : List Record) : State := { s with rs := recs }

/-- NREC, the length of RS (10_state.md R32). -/
def State.nrec (s : State) : Half := BitVec.ofNat 16 s.rs.length

/-- `CUR <- c` (10_state.md R24). -/
def State.setCur (s : State) (c : Half) : State := { s with cur := c }

/-- `PH <- p` (10_state.md R34). -/
def State.setPh (s : State) (p : Option Phase) : State := { s with ph := p }

/-- The queue of requests (log entry 1). -/
def State.setPending (s : State) (q : List Request) : State := { s with pending := q }

/-! ## How a command ends -/

/-- The numeric code of an error kind in STATUS (60_exceptions.md R200). -/
def ErrorKind.code : ErrorKind → BitVec 3
  | .sizeInvalid => 1
  | .categoryInvalid => 2
  | .rangeInvalid => 3
  | .itemUnsupported => 4
  | .commandInvalid => 5

/-- The end of a command: STATUS is written, and the command's internal state goes: PH exists no more and CUR's value
is not defined between commands (10_state.md R24, R26, R34, R36; log entries 2 and 20). -/
def State.finish (s : State) (code : BitVec 3) : State :=
  { s with status := code, cur := Config.freeCursor s.freeCount, freeCount := s.freeCount + 1, ph := none }

/-- Raising an error kind, the engine's counterpart of taking an exception: `STATUS <- code(K)` and nothing else
changes (60_exceptions.md R210). There is no handler, no vector, no saved state and no mode. The counterpart of
returning is nothing at all: the engine is ready for the next command (R211). -/
def raise (k : ErrorKind) (s : State) : Host.Outcome State Fault Refusal := .next (s.finish k.code)

/-- A command that met no error: its writes are in `s`, `STATUS <- 0` (10_state.md R20). -/
def commit (s : State) : Host.Outcome State Fault Refusal := .next (s.finish 0)

/-- All or nothing: a command's result is computed first and committed only if no test failed (60_exceptions.md R210). -/
def conclude {α : Type} (s : State) (result : Except ErrorKind α) (write : α → State) :
    Host.Outcome State Fault Refusal :=
  match result with
  | .ok v => commit (write v)
  | .error k => raise k s

end Sys2Proof.Machine
end

