-- ==== Sys2Proof/Machine/Chain.lean ====
section
/-! DEFINITION. The FSPEC chain: build and parse (41_fspec.md R112, R114 to R119). -/

namespace Sys2Proof.Machine

/-- The chain length for a presence set: 1 if nothing above FRN 7 is present, else 2 (41_fspec.md R112). -/
def chainLength (S : List Nat) : Nat := if S.all (· ≤ Config.frnPerOctet) then 1 else 2

/-- The octet at chain index i of a presence set, without FX (41_fspec.md R112). -/
def chainOctet (S : List Nat) (i : Nat) : Byte :=
  (S.filter (fun f => frnOctet f = i)).foldl (fun o f => o ||| frnMask f) 0

/-- `fspec_build(S)` (41_fspec.md R112): FX on all octets but the last. -/
def fspecBuild (S : List Nat) : List Byte :=
  (List.range (chainLength S)).map fun i =>
    chainOctet S i ||| (if i < chainLength S - 1 then srcMask 1 else 0)

/-- The chain walk with the octets it may still take, a bounded recursion (41_fspec.md R114, R116). -/
def chainWalk : Nat → List Byte → Except ErrorKind (List Byte)
  | 0, _ => .error .sizeInvalid
  | _ + 1, [] => .error .sizeInvalid
  | n + 1, o :: rest =>
    if fx o then
      match chainWalk n rest with
      | .ok more => .ok (o :: more)
      | .error k => .error k
    else .ok [o]

/-- `fspec_parse`: the chain the octets begin with, of at most MAXCHAIN octets (41_fspec.md R114). -/
def fspecParse (bs : List Byte) : Except ErrorKind (List Byte) := chainWalk Config.maxChain bs

/-- `frns(o)`: what a chain declares present (41_fspec.md R117). -/
def chainFrns (o : List Byte) : List Nat := allFrns.filter (declared o)

/-- `fspec_build(frns(o))`: the chain that building gives back for what a parsed chain declares, o itself where o is
canonical and the one octet `o[0] & 0xFE` where it is not (41_fspec.md R118, R119). -/
def rebuildChain (o : List Byte) : List Byte := fspecBuild (chainFrns o)

/-- A chain is canonical iff the builder gives it back (41_fspec.md R118). -/
def canonicalChain (o : List Byte) : Bool := rebuildChain o = o

end Sys2Proof.Machine
end

