-- ==== Sys2Proof/Machine/FieldSpecCommands.lean ====
section
/-! DEFINITION. FS.SET, FS.GET, FSPEC.ENC and FSPEC.DEC (41_fspec.md R110, R111, R113, R115). -/

namespace Sys2Proof.Machine

/-- The bit numbers FS.SET and FS.GET take (41_fspec.md R110; 30_encoding.md R87). -/
def bitNumberOk (n : Byte) : Bool := 1 ≤ n.toNat && n.toNat ≤ 8

/-- FS.SET n: `FSB <- FSB | (1 << (n-1))`; n outside 1..8 is CommandInvalid (41_fspec.md R110). -/
def execFsSet (n : Byte) (s : State) : Host.Outcome State Fault Refusal :=
  if bitNumberOk n then commit (s.setFsb (s.fsb ||| srcMask n.toNat)) else raise .commandInvalid s

/-- FS.GET n: `T <- (FSB >> (n-1)) & 1` (41_fspec.md R111). -/
def execFsGet (n : Byte) (s : State) : Host.Outcome State Fault Refusal :=
  if bitNumberOk n then commit (s.setT (srcBit s.fsb n.toNat)) else raise .commandInvalid s

/-- FSPEC.ENC: the chain of the presence set of R into FSP and FLEN (41_fspec.md R113). -/
def execFspecEnc (s : State) : Host.Outcome State Fault Refusal :=
  commit (s.setChain (fspecBuild (presentFrns s.r)))

/-- FSPEC.DEC: the chain BUF begins with into FSP and FLEN (41_fspec.md R115). -/
def execFspecDec (s : State) : Host.Outcome State Fault Refusal :=
  conclude s (fspecParse s.validBytes) fun o => s.setChain o

end Sys2Proof.Machine
end

