-- ==== Sys2Proof/Machine/Operands.lean ====
section
/-! DEFINITION. The operand forms: the scale laws, the nine field codecs and the walk of the subfield-bearing items
(42_field_codecs.md R130 to R159; 30_encoding.md R77, R78, R82, R85). -/

namespace Sys2Proof.Machine

/-! ## Scaled components -/

/-- One row of the scale table (42_field_codecs.md R133): LSB `m / 2^k`, `w` octets, signedness. -/
structure Scale where
  m : Nat
  k : Nat
  w : Nat
  signed : Bool
deriving DecidableEq, Repr

/-- TimeOfDay: 1/128 s, u24 (R133). -/
def scaleTod : Scale := { m := 1, k := 7, w := 3, signed := false }

/-- SectorNumber: 45/32 deg, u8 (R133). -/
def scaleSec : Scale := { m := 45, k := 5, w := 1, signed := false }

/-- AntennaRotation: 1/128 s, u16 (R133). -/
def scaleArp : Scale := { m := 1, k := 7, w := 2, signed := false }

/-- GenericPolarWindow rho: 1/256 NM, u16 (R133). -/
def scaleRho : Scale := { m := 1, k := 8, w := 2, signed := false }

/-- GenericPolarWindow theta: 45/8192 deg, u16 (R133). -/
def scaleTheta : Scale := { m := 45, k := 13, w := 2, signed := false }

/-- PositionSource height: 1 m, i16 (R133). -/
def scaleHeight : Scale := { m := 1, k := 0, w := 2, signed := true }

/-- PositionSource latitude and longitude: 45/2^21 deg, i24 (R133). -/
def scaleLatLon : Scale := { m := 45, k := 21, w := 3, signed := true }

/-- The LSB of a scale, `M / 2^k` (R131). -/
def Scale.lsb (sc : Scale) : Rat := (sc.m : Rat) / ((2 ^ sc.k : Nat) : Rat)

/-- The wire integer of a physical value, `trunc(v * 2^k / M)` (R131). -/
def Scale.wire (sc : Scale) (v : Rat) : Int := trunc (v * ((2 ^ sc.k : Nat) : Rat) / (sc.m : Rat))

/-- The wire integer range (R131, R133). -/
def Scale.fits (sc : Scale) (n : Int) : Bool :=
  if sc.signed then -(2 ^ (8 * sc.w - 1)) ≤ n && n ≤ 2 ^ (8 * sc.w - 1) - 1
  else 0 ≤ n && n ≤ 2 ^ (8 * sc.w) - 1

/-- Encode direction of the scale law (R131, R136): truncation toward zero, then the range test. -/
def Scale.toWire (sc : Scale) (v : Rat) : Except ErrorKind (List Byte) :=
  if sc.fits (sc.wire v) then .ok (beBytes sc.w (twosComp (8 * sc.w) (sc.wire v))) else .error .rangeInvalid

/-- The integer that `w` octets carry (30_encoding.md R85). -/
def Scale.integer (sc : Scale) (bs : List Byte) : Int :=
  if sc.signed then sext (8 * sc.w) (beNat bs) else (beNat bs : Int)

/-- The physical value of a wire integer, exact (R132). -/
def Scale.value (sc : Scale) (n : Int) : Rat := (n : Rat) * (sc.m : Rat) / ((2 ^ sc.k : Nat) : Rat)

/-- Decode direction of the scale law (R132). -/
def Scale.fromWire (sc : Scale) (bs : List Byte) : Rat := sc.value (sc.integer bs)

/-- The fixed-point realisation of the encode direction, on `P = v * 2^32` (R137): `tdiv(P, M * 2^(32-k))`. -/
def Scale.fixedWire (sc : Scale) (p : Int) : Int := Int.tdiv p ((sc.m * 2 ^ (Config.physFb - sc.k) : Nat) : Int)

/-- The fixed-point realisation of the decode direction (R137): `n * M * 2^(32-k)`. -/
def Scale.fixedValue (sc : Scale) (n : Int) : Int := n * ((sc.m * 2 ^ (Config.physFb - sc.k) : Nat) : Int)

/-- The octet strings one after another, or the first error in order (60_exceptions.md R208 d). -/
def joinWire : List (Except ErrorKind (List Byte)) → Except ErrorKind (List Byte)
  | [] => .ok []
  | .error k :: _ => .error k
  | .ok bs :: rest =>
    match joinWire rest with
    | .ok more => .ok (bs ++ more)
    | .error k => .error k

/-! ## The subfield-bearing items (FRN 6 and 7) -/

/-- The mask of the spare bits of a primary octet: the bits 8 to 2 that SUBMAP does not use (42_field_codecs.md R151;
0x62 under the default). -/
def spareMask (sm : Config.SubMap) : Byte :=
  ((srcMask sm.com ||| srcMask sm.psr ||| srcMask sm.ssr ||| srcMask sm.mds) ^^^ 0xFE#8) &&& 0xFE#8

/-- Item size from the primary octet: one, and one for each subfield bit set (30_encoding.md R78, R84 b). -/
def subSize (sm : Config.SubMap) (p : Byte) : Nat :=
  1 + (srcBit p sm.com).toNat + (srcBit p sm.psr).toNat + (srcBit p sm.ssr).toNat + (srcBit p sm.mds).toNat

/-- `sub_parse`: the size of the item that `bs` begins with, the tests in the order of 42_field_codecs.md R151. -/
def subParse (sm : Config.SubMap) (bs : List Byte) : Except ErrorKind Nat :=
  match bs with
  | [] => .error .sizeInvalid
  | p :: _ =>
    if fx p then .error .sizeInvalid
    else if (p &&& spareMask sm) != 0 then .error .itemUnsupported
    else if bs.length < subSize sm p then .error .sizeInvalid
    else .ok (subSize sm p)

/-- The primary octet of a value: the bits of its present subfields, FX and spare bits 0 (42_field_codecs.md R152). -/
def primaryOctet (sm : Config.SubMap) (v : Subfields) : Byte :=
  (if v.com.isSome then srcMask sm.com else 0) ||| (if v.psr.isSome then srcMask sm.psr else 0) |||
  (if v.ssr.isSome then srcMask sm.ssr else 0) ||| (if v.mds.isSome then srcMask sm.mds else 0)

/-- `tow_6`, `tow_7`: primary octet, then the present subfield octets in the order COM, PSR, SSR, MDS
(42_field_codecs.md R152, R154). -/
def subToWire (sm : Config.SubMap) (v : Subfields) : List Byte :=
  primaryOctet sm v :: (v.com.toList ++ v.psr.toList ++ v.ssr.toList ++ v.mds.toList)

/-- One subfield octet off the front where its bit is set (42_field_codecs.md R153). -/
def takeSub (there : Bool) (bs : List Byte) : Option Byte × List Byte :=
  if there then (bs.head?, bs.tail) else (none, bs)

/-- The subfields of the octets after the primary octet `p`, in wire order (42_field_codecs.md R153). -/
def subFields (sm : Config.SubMap) (p : Byte) (bs : List Byte) : Subfields :=
  let c := takeSub (srcBit p sm.com) bs
  let q := takeSub (srcBit p sm.psr) c.2
  let r := takeSub (srcBit p sm.ssr) q.2
  let m := takeSub (srcBit p sm.mds) r.2
  { com := c.1, psr := q.1, ssr := r.1, mds := m.1 }

/-- `frw_6`, `frw_7` (42_field_codecs.md R153, R155): the slice must be exactly the item. -/
def subFromWire (sm : Config.SubMap) (bs : List Byte) : Except ErrorKind Subfields :=
  match subParse sm bs with
  | .error k => .error k
  | .ok size =>
    if size ≠ bs.length then .error .sizeInvalid
    else
      match bs with
      | [] => .error .sizeInvalid
      | p :: more => .ok (subFields sm p more)

/-! ## The nine codecs through one interface (42_field_codecs.md R130) -/

/-- MessageType is refused outside 1..7 only when MT_STRICT is true (42_field_codecs.md R142, R143). -/
def messageTypeOk (p : Config.Params) (m : Byte) : Bool := !p.mtStrict || (1 ≤ m.toNat && m.toNat ≤ 7)

/-- `tow_f(v)`, f the field of v: R140, R142, R144, R146, R148, R152, R154, R156, R158. -/
def toWire (p : Config.Params) : FieldValue → Except ErrorKind (List Byte)
  | .dsi v => .ok [v.o0, v.o1]
  | .mty m => if messageTypeOk p m then .ok [m] else .error .itemUnsupported
  | .tod v => scaleTod.toWire v
  | .sec v => scaleSec.toWire v
  | .arp v => scaleArp.toWire v
  | .scs v => .ok (subToWire p.subMap v)
  | .spm v => .ok (subToWire p.subMap v)
  | .gpw v =>
    joinWire [scaleRho.toWire v.rhoStart, scaleRho.toWire v.rhoEnd, scaleTheta.toWire v.thetaStart,
      scaleTheta.toWire v.thetaEnd]
  | .pos v => joinWire [scaleHeight.toWire v.height, scaleLatLon.toWire v.lat, scaleLatLon.toWire v.lon]

/-- `SIZE[f]` of the fields of fixed size (00_scope.md R6); none for FRN 6 and 7, whose size is in the data. -/
def Field.fixedSize : Field → Option Nat
  | .dsi => some 2
  | .mty => some 1
  | .tod => some 3
  | .sec => some 1
  | .arp => some 2
  | .scs => none
  | .spm => none
  | .gpw => some 8
  | .pos => some 8

/-- `bsize`: the size of field f in the octets that remain, with the bound check (43_record_engine.md R174, R172;
20_memory.md R52). -/
def fieldSize (p : Config.Params) (f : Field) (rest : List Byte) : Except ErrorKind Nat :=
  match f.fixedSize with
  | some n => if n ≤ rest.length then .ok n else .error .sizeInvalid
  | none => subParse p.subMap rest

/-- The value a slice of exactly the field's size carries (30_encoding.md R77, R85); the slice is given as it is. -/
def fixedValue (p : Config.Params) (f : Field) (bs : List Byte) : Except ErrorKind FieldValue :=
  match f with
  | .dsi => .ok (.dsi { o0 := bs.getD 0 0, o1 := bs.getD 1 0 })
  | .mty => if messageTypeOk p (bs.getD 0 0) then .ok (.mty (bs.getD 0 0)) else .error .itemUnsupported
  | .tod => .ok (.tod (scaleTod.fromWire bs))
  | .sec => .ok (.sec (scaleSec.fromWire bs))
  | .arp => .ok (.arp (scaleArp.fromWire bs))
  | .scs =>
    match subFromWire p.subMap bs with
    | .ok v => .ok (.scs v)
    | .error k => .error k
  | .spm =>
    match subFromWire p.subMap bs with
    | .ok v => .ok (.spm v)
    | .error k => .error k
  | .gpw =>
    .ok (.gpw { rhoStart := scaleRho.fromWire (bs.take 2), rhoEnd := scaleRho.fromWire ((bs.drop 2).take 2),
                thetaStart := scaleTheta.fromWire ((bs.drop 4).take 2),
                thetaEnd := scaleTheta.fromWire ((bs.drop 6).take 2) })
  | .pos =>
    .ok (.pos { height := scaleHeight.fromWire (bs.take 2), lat := scaleLatLon.fromWire ((bs.drop 2).take 3),
                lon := scaleLatLon.fromWire ((bs.drop 5).take 3) })

/-- `frw_f(s)`: SizeInvalid unless the slice is exactly the field's wire size (42_field_codecs.md R130), then its
value: R141, R143, R145, R147, R149, R153, R155, R157, R159. -/
def fromWire (p : Config.Params) (f : Field) (bs : List Byte) : Except ErrorKind FieldValue :=
  match f.fixedSize with
  | some n => if bs.length = n then fixedValue p f bs else .error .sizeInvalid
  | none => fixedValue p f bs

/-- One field at the cursor: its size, then its value from exactly that many octets; answers the value and how far the
cursor moves (43_record_engine.md R172). -/
def fieldAt (p : Config.Params) (f : Field) (rest : List Byte) : Except ErrorKind (FieldValue × Nat) :=
  match fieldSize p f rest with
  | .error k => .error k
  | .ok n =>
    match fromWire p f (rest.take n) with
    | .error k => .error k
    | .ok v => .ok (v, n)

end Sys2Proof.Machine
end

