-- ==== Sys2Proof/Machine/FrwCommands.lean ====
section
/-! DEFINITION. The nine FRW commands: wire octets in W to a slot of R (42_field_codecs.md R139). -/

namespace Sys2Proof.Machine

/-- The FRW wrapper (42_field_codecs.md R139): W[0 .. WLEN) must be exactly the field's wire size. -/
def slotFromWire (f : Field) (s : State) : Host.Outcome State Fault Refusal :=
  conclude s (fromWire s.params f s.staged) fun v => s.putSlot v

/-- FRW.DSI: R[1] (42_field_codecs.md R141). -/
def execFrwDsi (s : State) : Host.Outcome State Fault Refusal := slotFromWire .dsi s

/-- FRW.MTY: R[2] (42_field_codecs.md R143). -/
def execFrwMty (s : State) : Host.Outcome State Fault Refusal := slotFromWire .mty s

/-- FRW.TOD: R[3] (42_field_codecs.md R145). -/
def execFrwTod (s : State) : Host.Outcome State Fault Refusal := slotFromWire .tod s

/-- FRW.SEC: R[4] (42_field_codecs.md R147). -/
def execFrwSec (s : State) : Host.Outcome State Fault Refusal := slotFromWire .sec s

/-- FRW.ARP: R[5] (42_field_codecs.md R149). -/
def execFrwArp (s : State) : Host.Outcome State Fault Refusal := slotFromWire .arp s

/-- FRW.SCS: R[6] (42_field_codecs.md R153). -/
def execFrwScs (s : State) : Host.Outcome State Fault Refusal := slotFromWire .scs s

/-- FRW.SPM: R[7] (42_field_codecs.md R155). -/
def execFrwSpm (s : State) : Host.Outcome State Fault Refusal := slotFromWire .spm s

/-- FRW.GPW: R[9] (42_field_codecs.md R157). -/
def execFrwGpw (s : State) : Host.Outcome State Fault Refusal := slotFromWire .gpw s

/-- FRW.POS: R[11] (42_field_codecs.md R159). -/
def execFrwPos (s : State) : Host.Outcome State Fault Refusal := slotFromWire .pos s

end Sys2Proof.Machine
end

