-- ==== Sys2Proof/Machine/RecordEngine.lean ====
section
/-! DEFINITION. The record engine and the field-offset arithmetic (43_record_engine.md R170, R172, R174 to R176). -/

namespace Sys2Proof.Machine

/-- The wire octets of the present fields, in ascending FRN order, or the first error (43_record_engine.md R170). -/
def fieldsToWire (p : Config.Params) (rec : Record) : Except ErrorKind (List Byte) :=
  joinWire ((codecFields.filterMap rec.get).map (toWire p))

/-- `rec_enc(rec)`: the chain derived from presence, then the fields (43_record_engine.md R170, R177, R178). -/
def recEnc (p : Config.Params) (rec : Record) : Except ErrorKind (List Byte) :=
  match fieldsToWire p rec with
  | .ok body => .ok (fspecBuild (presentFrns rec) ++ body)
  | .error k => .error k

/-- The loop of `rec_dec` over FRNs in ascending order: the octets that remain, the record so far and the octets
consumed so far (43_record_engine.md R172). -/
def decodeFields (p : Config.Params) (o : List Byte) :
    List Nat → List Byte → Record → Nat → Except ErrorKind (Record × Nat)
  | [], _, rec, n => .ok (rec, n)
  | f :: fs, rest, rec, n =>
    if declared o f then
      match Field.ofFrn f with
      | none => .error .itemUnsupported
      | some fld =>
        match fieldAt p fld rest with
        | .error k => .error k
        | .ok (v, size) => decodeFields p o fs (rest.drop size) (rec.put v) (n + size)
    else decodeFields p o fs rest rec n

/-- `rec_dec`: the record that the octets begin with, and how many octets it takes (43_record_engine.md R172). The
octets given are buf[start .. lim). -/
def recDec (p : Config.Params) (bs : List Byte) : Except ErrorKind (Record × Nat) :=
  match fspecParse bs with
  | .error k => .error k
  | .ok o => decodeFields p o allFrns (bs.drop o.length) Record.empty o.length

/-- The walk of `OFS.Q` over the FRNs below the queried one: sizes only (43_record_engine.md R175, R176). -/
def offsetWalk (p : Config.Params) (o : List Byte) : List Nat → List Byte → Nat → Except ErrorKind Nat
  | [], _, cur => .ok cur
  | g :: gs, rest, cur =>
    if declared o g then
      match Field.ofFrn g with
      | none => .error .itemUnsupported
      | some fld =>
        match fieldSize p fld rest with
        | .error k => .error k
        | .ok size => offsetWalk p o gs (rest.drop size) (cur + size)
    else offsetWalk p o gs rest cur

/-- The offset of field f in the record that the octets begin with, and whether f is declared
(43_record_engine.md R176). -/
def fieldOffset (p : Config.Params) (bs : List Byte) (f : Nat) : Except ErrorKind (Nat × Bool) :=
  match fspecParse bs with
  | .error k => .error k
  | .ok o =>
    match offsetWalk p o (allFrns.filter (· < f)) (bs.drop o.length) o.length with
    | .error k => .error k
    | .ok cur => .ok (cur, declared o f)

end Sys2Proof.Machine
end

