-- ==== Sys2Proof/Machine/MessageEngine.lean ====
section
/-! DEFINITION. The header codec and the message engine with its state machine (40_header.md R100, R101;
44_message_engine.md R190, R192, R194). -/

namespace Sys2Proof.Machine

/-- `hdr_enc(category, length)` (40_header.md R100): the high-order octet of the length first. -/
def hdrEnc (c : Byte) (l : Half) : List Byte := c :: beBytes 2 l.toNat

/-- `hdr_dec(s)` (40_header.md R101): octets beyond the third are ignored. -/
def hdrDec (bs : List Byte) : Except ErrorKind (Byte × Half) :=
  if bs.length < Config.hdrLen then .error .sizeInvalid
  else .ok (bs.getD 0 0, BitVec.ofNat 16 (beNat ((bs.drop 1).take 2)))

/-- `msg_enc(category, recs)` (44_message_engine.md R190): category, then the records in order, then the length. -/
def msgEnc (p : Config.Params) (c : Byte) (recs : List Record) : Except ErrorKind (List Byte) :=
  if c ≠ Config.cat then .error .categoryInvalid
  else
    match joinWire (recs.map (recEnc p)) with
    | .error k => .error k
    | .ok body =>
      if Config.hdrLen + body.length > Config.maxMessage then .error .sizeInvalid
      else .ok (hdrEnc c (BitVec.ofNat 16 (Config.hdrLen + body.length)) ++ body)

/-- The message decoder inside one `MSG.DEC`: the phase PH, the cursor, the header and the records so far
(10_state.md R34, 44_message_engine.md R192, R194). -/
structure MsgWalk where
  ph : Phase
  cur : Nat
  cat : Byte
  len : Half
  recs : List Record
deriving DecidableEq, Repr

/-- The start of `msg_dec`: phase ReadHeader (44_message_engine.md R194). -/
def msgStart : MsgWalk := { ph := .readHeader, cur := 0, cat := 0, len := 0, recs := [] }

/-- The header's tests once category and length are known: declared length against the supplied length first, then
the category (44_message_engine.md R192, R194; 60_exceptions.md R208 b). -/
def headerCheck (c : Byte) (l : Half) (supplied : Nat) : Except ErrorKind Unit :=
  if supplied < Config.hdrLen then .error .sizeInvalid
  else if l.toNat ≠ supplied then .error .sizeInvalid
  else if c ≠ Config.cat then .error .categoryInvalid
  else .ok ()

/-- One transition of the table of 44_message_engine.md R194; Done and Failed are terminal. -/
def msgStep (p : Config.Params) (buf : List Byte) (m : MsgWalk) : MsgWalk :=
  match m.ph with
  | .readHeader =>
    match hdrDec buf with
    | .error k => { m with ph := .failed k }
    | .ok (c, l) =>
      match headerCheck c l buf.length with
      | .error k => { m with ph := .failed k }
      | .ok _ => { ph := .readRecord, cur := Config.hdrLen, cat := c, len := l, recs := [] }
  | .readRecord =>
    if m.cur < m.len.toNat then
      match recDec p (buf.drop m.cur) with
      | .error k => { m with ph := .failed k }
      | .ok (rec, n) => { m with cur := m.cur + n, recs := m.recs ++ [rec] }
    else { m with ph := .done }
  | .done => m
  | .failed _ => m

/-- The transitions one after another. -/
def msgRun (p : Config.Params) (buf : List Byte) : Nat → MsgWalk → MsgWalk
  | 0, m => m
  | n + 1, m => msgRun p buf n (msgStep p buf m)

/-- `msg_dec(buf)` (44_message_engine.md R192). One transition for the header, at most one for each octet after it and
one to end suffice (70_reset_and_hazards.md R240), so the walk always ends in Done or Failed. -/
def msgDec (p : Config.Params) (buf : List Byte) : Except ErrorKind (Byte × Half × List Record) :=
  let m := msgRun p buf (buf.length + 2) msgStart
  match m.ph with
  | .failed k => .error k
  | .done => .ok (m.cat, m.len, m.recs)
  | .readHeader => .error .sizeInvalid
  | .readRecord => .error .sizeInvalid

end Sys2Proof.Machine
end

