-- ==== Sys2Proof/Machine/HeaderCommands.lean ====
section
/-! DEFINITION. HDR.ENC and HDR.DEC (40_header.md R102, R103). -/

namespace Sys2Proof.Machine

/-- HDR.ENC: `W[0..3) <- hdr_enc(HCAT, HLEN); WLEN <- 3` (40_header.md R102). -/
def execHdrEnc (s : State) : Host.Outcome State Fault Refusal := commit (s.stage (hdrEnc s.hcat s.hlen))

/-- HDR.DEC: HCAT and HLEN from W[0 .. WLEN) (40_header.md R103). -/
def execHdrDec (s : State) : Host.Outcome State Fault Refusal :=
  conclude s (hdrDec s.staged) fun h => s.setHeader h.1 h.2

end Sys2Proof.Machine
end

