-- ==== Sys2Proof/Machine/MessageCommands.lean ====
section
/-! DEFINITION. MSG.ENC and MSG.DEC (44_message_engine.md R191, R193). -/

namespace Sys2Proof.Machine

/-- MSG.ENC: BUF[0 .. L), BLEN and HLEN from HCAT and RS (44_message_engine.md R191). -/
def execMsgEnc (s : State) : Host.Outcome State Fault Refusal :=
  conclude s (msgEnc s.params s.hcat s.rs) fun bs => (s.storeBuf bs).setHlen bs.length

/-- MSG.DEC: HCAT, HLEN, NREC and RS from BUF[0 .. BLEN) (44_message_engine.md R193). -/
def execMsgDec (s : State) : Host.Outcome State Fault Refusal :=
  conclude s (msgDec s.params s.validBytes) fun d => (s.setHeader d.1 d.2.1).setRs d.2.2

end Sys2Proof.Machine
end

