-- ==== Sys2Proof/Machine/RecordCommands.lean ====
section
/-! DEFINITION. REC.ENC, REC.DEC and OFS.Q (43_record_engine.md R171, R173, R176). -/

namespace Sys2Proof.Machine

/-- REC.ENC: BUF[0 .. n), BLEN and RLEN from R (43_record_engine.md R171). -/
def execRecEnc (s : State) : Host.Outcome State Fault Refusal :=
  conclude s (recEnc s.params s.r) fun bs => (s.storeBuf bs).setRlen bs.length

/-- REC.DEC: R and RLEN from BUF[0 .. BLEN) (43_record_engine.md R173). -/
def execRecDec (s : State) : Host.Outcome State Fault Refusal :=
  conclude s (recDec s.params s.validBytes) fun d => (s.setRecord d.1).setRlen d.2

/-- The FRNs OFS.Q takes (43_record_engine.md R176; 30_encoding.md R87). -/
def frnOk (f : Byte) : Bool := 1 ≤ f.toNat && f.toNat ≤ Config.frnMax

/-- OFS.Q f: OFS and T from BUF[0 .. BLEN) (43_record_engine.md R176); f outside 1..14 is CommandInvalid. -/
def execOfsQ (f : Byte) (s : State) : Host.Outcome State Fault Refusal :=
  if frnOk f then conclude s (fieldOffset s.params s.validBytes f.toNat) fun d => (s.setOfs d.1).setT d.2
  else raise .commandInvalid s

end Sys2Proof.Machine
end

