-- ==== Sys2Proof/Machine/TowCommands.lean ====
section
/-! DEFINITION. The nine TOW commands: a slot of R to wire octets in W (42_field_codecs.md R138). -/

namespace Sys2Proof.Machine

/-- The TOW wrapper (42_field_codecs.md R138): an empty slot is CommandInvalid, before any range test
(60_exceptions.md R208 e). -/
def slotToWire (f : Field) (s : State) : Host.Outcome State Fault Refusal :=
  match s.r.get f with
  | none => raise .commandInvalid s
  | some v => conclude s (toWire s.params v) fun bs => s.stage bs

/-- TOW.DSI: R[1] (42_field_codecs.md R140). -/
def execTowDsi (s : State) : Host.Outcome State Fault Refusal := slotToWire .dsi s

/-- TOW.MTY: R[2] (42_field_codecs.md R142). -/
def execTowMty (s : State) : Host.Outcome State Fault Refusal := slotToWire .mty s

/-- TOW.TOD: R[3] (42_field_codecs.md R144). -/
def execTowTod (s : State) : Host.Outcome State Fault Refusal := slotToWire .tod s

/-- TOW.SEC: R[4] (42_field_codecs.md R146). -/
def execTowSec (s : State) : Host.Outcome State Fault Refusal := slotToWire .sec s

/-- TOW.ARP: R[5] (42_field_codecs.md R148). -/
def execTowArp (s : State) : Host.Outcome State Fault Refusal := slotToWire .arp s

/-- TOW.SCS: R[6] (42_field_codecs.md R152). -/
def execTowScs (s : State) : Host.Outcome State Fault Refusal := slotToWire .scs s

/-- TOW.SPM: R[7] (42_field_codecs.md R154). -/
def execTowSpm (s : State) : Host.Outcome State Fault Refusal := slotToWire .spm s

/-- TOW.GPW: R[9] (42_field_codecs.md R156). -/
def execTowGpw (s : State) : Host.Outcome State Fault Refusal := slotToWire .gpw s

/-- TOW.POS: R[11] (42_field_codecs.md R158). -/
def execTowPos (s : State) : Host.Outcome State Fault Refusal := slotToWire .pos s

end Sys2Proof.Machine
end

