-- ==== Sys2Proof/Machine/WireRows.lean ====
section
/-! DEFINITION. The wire-level rows of the opcode table, each run by itself at the cursor CUR: what the row's decode
action does to the registers (30_encoding.md R70, R71, R76, R78 to R80, R82; 43_record_engine.md R172). They are parts
of commands: on success STATUS is not written, on an error the command they are part of is abandoned (60_exceptions.md
R210). Log entries 7, 8 and 22. -/

namespace Sys2Proof.Machine

/-- The octets from the cursor to the limit BLEN (20_memory.md R52, R66). -/
def State.atCursor (s : State) : List Byte := s.validBytes.drop s.cur.toNat

/-- `CUR <- CUR + n` (10_state.md R24). -/
def State.advance (s : State) (n : Nat) : State := s.setCur (s.cur + BitVec.ofNat 16 n)

/-- A presence bit with codec: "run frw_f at the cursor, advance by the size" (43_record_engine.md R172). -/
def runField (f : Field) (s : State) : Host.Outcome State Fault Refusal :=
  match fieldAt s.params f s.atCursor with
  | .error k => raise k s
  | .ok (v, n) => .next ((s.putSlot v).advance n)

/-- A presence bit without codec: "raise ItemUnsupported" (30_encoding.md R79). -/
def runNoCodec (s : State) : Host.Outcome State Fault Refusal := raise .itemUnsupported s

/-- FRN1.DSI (30_encoding.md R76). -/
def execFrn1Dsi (s : State) : Host.Outcome State Fault Refusal := runField .dsi s

/-- FRN2.MTY (30_encoding.md R76). -/
def execFrn2Mty (s : State) : Host.Outcome State Fault Refusal := runField .mty s

/-- FRN3.TOD (30_encoding.md R76). -/
def execFrn3Tod (s : State) : Host.Outcome State Fault Refusal := runField .tod s

/-- FRN4.SEC (30_encoding.md R76). -/
def execFrn4Sec (s : State) : Host.Outcome State Fault Refusal := runField .sec s

/-- FRN5.ARP (30_encoding.md R76). -/
def execFrn5Arp (s : State) : Host.Outcome State Fault Refusal := runField .arp s

/-- FRN6.SCS (30_encoding.md R76). -/
def execFrn6Scs (s : State) : Host.Outcome State Fault Refusal := runField .scs s

/-- FRN7.SPM (30_encoding.md R76). -/
def execFrn7Spm (s : State) : Host.Outcome State Fault Refusal := runField .spm s

/-- FRN8 (30_encoding.md R79). -/
def execFrn8 (s : State) : Host.Outcome State Fault Refusal := runNoCodec s

/-- FRN9.GPW (30_encoding.md R76). -/
def execFrn9Gpw (s : State) : Host.Outcome State Fault Refusal := runField .gpw s

/-- FRN10 (30_encoding.md R79). -/
def execFrn10 (s : State) : Host.Outcome State Fault Refusal := runNoCodec s

/-- FRN11.POS (30_encoding.md R76). -/
def execFrn11Pos (s : State) : Host.Outcome State Fault Refusal := runField .pos s

/-- FRN12 (30_encoding.md R79). -/
def execFrn12 (s : State) : Host.Outcome State Fault Refusal := runNoCodec s

/-- FRN13 (30_encoding.md R79). -/
def execFrn13 (s : State) : Host.Outcome State Fault Refusal := runNoCodec s

/-- FRN14 (30_encoding.md R79). -/
def execFrn14 (s : State) : Host.Outcome State Fault Refusal := runNoCodec s

/-- FX0: "another FieldSpecByte follows at chain index 1": it is read into FSP[1] under the bound check
(41_fspec.md R114; log entry 8). -/
def execFx0 (s : State) : Host.Outcome State Fault Refusal :=
  match s.atCursor with
  | [] => raise .sizeInvalid s
  | o :: _ => .next ({ s with fsp1 := o, flen := 2 }.advance 1)

/-- FX1: FX of the octet at chain index 1 is 0, otherwise SizeInvalid: chain longer than MAXCHAIN (30_encoding.md
R80). -/
def execFx1 (o : Byte) (s : State) : Host.Outcome State Fault Refusal :=
  if fx o then raise .sizeInvalid s else .next s

/-- The subfield item in its slot, all four None where the slot is None (42_field_codecs.md R150). -/
def State.subItem (s : State) (item : StatusItem) : Subfields :=
  match item with
  | .scs => s.r.scs.getD { com := none, psr := none, ssr := none, mds := none }
  | .spm => s.r.spm.getD { com := none, psr := none, ssr := none, mds := none }

/-- The item back into its slot. -/
def itemValue (item : StatusItem) (v : Subfields) : FieldValue :=
  match item with
  | .scs => .scs v
  | .spm => .spm v

/-- A subfield bit: "one opaque subfield octet follows": it is read at the cursor under the bound check and put where
`set` says (30_encoding.md R78; 42_field_codecs.md R151, R153). -/
def runSubfield (item : StatusItem) (set : Subfields → Byte → Subfields) (s : State) :
    Host.Outcome State Fault Refusal :=
  match s.atCursor with
  | [] => raise .sizeInvalid s
  | b :: _ => .next ((s.putSlot (itemValue item (set (s.subItem item) b))).advance 1)

/-- SUB.COM (30_encoding.md R78). -/
def execSubCom (item : StatusItem) (s : State) : Host.Outcome State Fault Refusal :=
  runSubfield item (fun v b => { v with com := some b }) s

/-- SUB.PSR (30_encoding.md R78). -/
def execSubPsr (item : StatusItem) (s : State) : Host.Outcome State Fault Refusal :=
  runSubfield item (fun v b => { v with psr := some b }) s

/-- SUB.SSR (30_encoding.md R78). -/
def execSubSsr (item : StatusItem) (s : State) : Host.Outcome State Fault Refusal :=
  runSubfield item (fun v b => { v with ssr := some b }) s

/-- SUB.MDS (30_encoding.md R78). -/
def execSubMds (item : StatusItem) (s : State) : Host.Outcome State Fault Refusal :=
  runSubfield item (fun v b => { v with mds := some b }) s

/-- SUB.SPARE: the spare bits of the primary octet are 0, otherwise ItemUnsupported (30_encoding.md R82). -/
def execSubSpare (p : Byte) (s : State) : Host.Outcome State Fault Refusal :=
  if (p &&& spareMask s.params.subMap) != 0 then raise .itemUnsupported s else .next s

/-- SUB.FX: FX of the primary octet is 0, otherwise SizeInvalid: primary chain longer than MAXPRIM (30_encoding.md
R82). -/
def execSubFx (p : Byte) (s : State) : Host.Outcome State Fault Refusal :=
  if fx p then raise .sizeInvalid s else .next s

/-- HEADER: the tests of phase ReadHeader; then HCAT and HLEN hold it, PH is ReadRecord and CUR is 3
(30_encoding.md R70; 44_message_engine.md R192, R194; log entry 8). -/
def execHeader (c : Byte) (l : Half) (s : State) : Host.Outcome State Fault Refusal :=
  match headerCheck c l s.blen.toNat with
  | .error k => raise k s
  | .ok _ => .next (((s.setHeader c l).setPh (some .readRecord)).setCur (BitVec.ofNat 16 Config.hdrLen))

end Sys2Proof.Machine
end

