-- ==== Sys2Proof/Machine/Dispatch.lean ====
section
/-! DEFINITION. Every instruction to its meaning. -/

namespace Sys2Proof.Machine

def exec (i : Instr) (s : State) : Host.Outcome State Fault Refusal :=
  match i with
  | .hdrEnc => Sys2Proof.Machine.execHdrEnc s
  | .hdrDec => Sys2Proof.Machine.execHdrDec s
  | .fsSet n => Sys2Proof.Machine.execFsSet n s
  | .fsGet n => Sys2Proof.Machine.execFsGet n s
  | .fspecEnc => Sys2Proof.Machine.execFspecEnc s
  | .fspecDec => Sys2Proof.Machine.execFspecDec s
  | .towDsi => Sys2Proof.Machine.execTowDsi s
  | .towMty => Sys2Proof.Machine.execTowMty s
  | .towTod => Sys2Proof.Machine.execTowTod s
  | .towSec => Sys2Proof.Machine.execTowSec s
  | .towArp => Sys2Proof.Machine.execTowArp s
  | .towScs => Sys2Proof.Machine.execTowScs s
  | .towSpm => Sys2Proof.Machine.execTowSpm s
  | .towGpw => Sys2Proof.Machine.execTowGpw s
  | .towPos => Sys2Proof.Machine.execTowPos s
  | .frwDsi => Sys2Proof.Machine.execFrwDsi s
  | .frwMty => Sys2Proof.Machine.execFrwMty s
  | .frwTod => Sys2Proof.Machine.execFrwTod s
  | .frwSec => Sys2Proof.Machine.execFrwSec s
  | .frwArp => Sys2Proof.Machine.execFrwArp s
  | .frwScs => Sys2Proof.Machine.execFrwScs s
  | .frwSpm => Sys2Proof.Machine.execFrwSpm s
  | .frwGpw => Sys2Proof.Machine.execFrwGpw s
  | .frwPos => Sys2Proof.Machine.execFrwPos s
  | .recEnc => Sys2Proof.Machine.execRecEnc s
  | .recDec => Sys2Proof.Machine.execRecDec s
  | .ofsQ f => Sys2Proof.Machine.execOfsQ f s
  | .msgEnc => Sys2Proof.Machine.execMsgEnc s
  | .msgDec => Sys2Proof.Machine.execMsgDec s
  | .frn1Dsi => Sys2Proof.Machine.execFrn1Dsi s
  | .frn2Mty => Sys2Proof.Machine.execFrn2Mty s
  | .frn3Tod => Sys2Proof.Machine.execFrn3Tod s
  | .frn4Sec => Sys2Proof.Machine.execFrn4Sec s
  | .frn5Arp => Sys2Proof.Machine.execFrn5Arp s
  | .frn6Scs => Sys2Proof.Machine.execFrn6Scs s
  | .frn7Spm => Sys2Proof.Machine.execFrn7Spm s
  | .frn8 => Sys2Proof.Machine.execFrn8 s
  | .frn9Gpw => Sys2Proof.Machine.execFrn9Gpw s
  | .frn10 => Sys2Proof.Machine.execFrn10 s
  | .frn11Pos => Sys2Proof.Machine.execFrn11Pos s
  | .frn12 => Sys2Proof.Machine.execFrn12 s
  | .frn13 => Sys2Proof.Machine.execFrn13 s
  | .frn14 => Sys2Proof.Machine.execFrn14 s
  | .fx0 => Sys2Proof.Machine.execFx0 s
  | .fx1 o => Sys2Proof.Machine.execFx1 o s
  | .subCom item => Sys2Proof.Machine.execSubCom item s
  | .subPsr item => Sys2Proof.Machine.execSubPsr item s
  | .subSsr item => Sys2Proof.Machine.execSubSsr item s
  | .subMds item => Sys2Proof.Machine.execSubMds item s
  | .subSpare p => Sys2Proof.Machine.execSubSpare p s
  | .subFx p => Sys2Proof.Machine.execSubFx p s
  | .header c l => Sys2Proof.Machine.execHeader c l s

end Sys2Proof.Machine
end

