-- ==== Sys2Proof/WellFormed.lean ====
section
/-! DEFINITION. Which instructions the encodings admit (30_encoding.md R86, R87). -/

namespace Sys2Proof

/-- The operand bounds of 30_encoding.md R86 and R87: FS.SET and FS.GET take a bit number 1..8, OFS.Q an FRN 1..14;
every other instruction has no operand or one that takes every value. -/
def Instr.WellFormed : Instr → Bool
  | .hdrEnc => true
  | .hdrDec => true
  | .fsSet n => 1 ≤ n.toNat && n.toNat ≤ 8
  | .fsGet n => 1 ≤ n.toNat && n.toNat ≤ 8
  | .fspecEnc => true
  | .fspecDec => true
  | .towDsi => true
  | .towMty => true
  | .towTod => true
  | .towSec => true
  | .towArp => true
  | .towScs => true
  | .towSpm => true
  | .towGpw => true
  | .towPos => true
  | .frwDsi => true
  | .frwMty => true
  | .frwTod => true
  | .frwSec => true
  | .frwArp => true
  | .frwScs => true
  | .frwSpm => true
  | .frwGpw => true
  | .frwPos => true
  | .recEnc => true
  | .recDec => true
  | .ofsQ f => 1 ≤ f.toNat && f.toNat ≤ 14
  | .msgEnc => true
  | .msgDec => true
  | .frn1Dsi => true
  | .frn2Mty => true
  | .frn3Tod => true
  | .frn4Sec => true
  | .frn5Arp => true
  | .frn6Scs => true
  | .frn7Spm => true
  | .frn8 => true
  | .frn9Gpw => true
  | .frn10 => true
  | .frn11Pos => true
  | .frn12 => true
  | .frn13 => true
  | .frn14 => true
  | .fx0 => true
  | .fx1 _ => true
  | .subCom _ => true
  | .subPsr _ => true
  | .subSsr _ => true
  | .subMds _ => true
  | .subSpare _ => true
  | .subFx _ => true
  | .header _ _ => true

/-- The 29 host commands of 30_encoding.md R86, as against the wire-level rows. -/
def Instr.isCommand : Instr → Bool
  | .hdrEnc => true
  | .hdrDec => true
  | .fsSet _ => true
  | .fsGet _ => true
  | .fspecEnc => true
  | .fspecDec => true
  | .towDsi => true
  | .towMty => true
  | .towTod => true
  | .towSec => true
  | .towArp => true
  | .towScs => true
  | .towSpm => true
  | .towGpw => true
  | .towPos => true
  | .frwDsi => true
  | .frwMty => true
  | .frwTod => true
  | .frwSec => true
  | .frwArp => true
  | .frwScs => true
  | .frwSpm => true
  | .frwGpw => true
  | .frwPos => true
  | .recEnc => true
  | .recDec => true
  | .ofsQ _ => true
  | .msgEnc => true
  | .msgDec => true
  | .frn1Dsi => false
  | .frn2Mty => false
  | .frn3Tod => false
  | .frn4Sec => false
  | .frn5Arp => false
  | .frn6Scs => false
  | .frn7Spm => false
  | .frn8 => false
  | .frn9Gpw => false
  | .frn10 => false
  | .frn11Pos => false
  | .frn12 => false
  | .frn13 => false
  | .frn14 => false
  | .fx0 => false
  | .fx1 _ => false
  | .subCom _ => false
  | .subPsr _ => false
  | .subSsr _ => false
  | .subMds _ => false
  | .subSpare _ => false
  | .subFx _ => false
  | .header _ _ => false

end Sys2Proof
end

