-- ==== Sys2Proof/Decode.lean ====
section
/-! DEFINITION. Decoding, total on every code, with a named rejection; the encoder; and the reading of an opcode-table
word (30_encoding.md R70, R71, R76, R78, R86, R87). -/

namespace Sys2Proof

open Machine (srcBit srcMask fx)

/-- Why a code is no instruction. -/
inductive Reject where
  /-- The operation code is none of the table's (30_encoding.md R87). -/
  | illegalOp (op : Byte)
  /-- The argument is out of range for the operation (30_encoding.md R87). -/
  | illegalArg (op : Byte) (arg : Byte)
  /-- The octet has no bit set that the role looks at: it announces nothing (43_record_engine.md R172). -/
  | nothingDeclared
deriving DecidableEq, Repr

/-- The operation code, CMD[15:8] (30_encoding.md R86). -/
def commandOp (w : Half) : Byte := w.extractLsb' 8 8

/-- The argument, CMD[7:0] (30_encoding.md R86). -/
def commandArg (w : Half) : Byte := w.extractLsb' 0 8

/-- An operation that takes no argument: `arg` must be 0 (30_encoding.md R87). -/
def noArg (op arg : Byte) (i : Instr) : Except Reject Instr :=
  if arg = 0 then .ok i else .error (.illegalArg op arg)

/-- TOW: the argument is the FRN of a field with codec (30_encoding.md R86, R87). -/
def decodeTow (arg : Byte) : Except Reject Instr :=
  match arg with
  | 1#8 => .ok .towDsi
  | 2#8 => .ok .towMty
  | 3#8 => .ok .towTod
  | 4#8 => .ok .towSec
  | 5#8 => .ok .towArp
  | 6#8 => .ok .towScs
  | 7#8 => .ok .towSpm
  | 9#8 => .ok .towGpw
  | 11#8 => .ok .towPos
  | other => .error (.illegalArg 0x30#8 other)

/-- FRW: the argument is the FRN of a field with codec (30_encoding.md R86, R87). -/
def decodeFrw (arg : Byte) : Except Reject Instr :=
  match arg with
  | 1#8 => .ok .frwDsi
  | 2#8 => .ok .frwMty
  | 3#8 => .ok .frwTod
  | 4#8 => .ok .frwSec
  | 5#8 => .ok .frwArp
  | 6#8 => .ok .frwScs
  | 7#8 => .ok .frwSpm
  | 9#8 => .ok .frwGpw
  | 11#8 => .ok .frwPos
  | other => .error (.illegalArg 0x31#8 other)

/-- The command table of 30_encoding.md R86, on operation code and argument. -/
def decodeOpArg (op arg : Byte) : Except Reject Instr :=
  match op with
  | 0x10#8 => noArg 0x10#8 arg .hdrEnc
  | 0x11#8 => noArg 0x11#8 arg .hdrDec
  | 0x20#8 => if (Instr.fsSet arg).WellFormed then .ok (.fsSet arg) else .error (.illegalArg 0x20#8 arg)
  | 0x21#8 => if (Instr.fsGet arg).WellFormed then .ok (.fsGet arg) else .error (.illegalArg 0x21#8 arg)
  | 0x22#8 => noArg 0x22#8 arg .fspecEnc
  | 0x23#8 => noArg 0x23#8 arg .fspecDec
  | 0x30#8 => decodeTow arg
  | 0x31#8 => decodeFrw arg
  | 0x40#8 => noArg 0x40#8 arg .recEnc
  | 0x41#8 => noArg 0x41#8 arg .recDec
  | 0x42#8 => if (Instr.ofsQ arg).WellFormed then .ok (.ofsQ arg) else .error (.illegalArg 0x42#8 arg)
  | 0x50#8 => noArg 0x50#8 arg .msgEnc
  | 0x51#8 => noArg 0x51#8 arg .msgDec
  | other => .error (.illegalOp other)

/-- A host command word (30_encoding.md R86, R87). -/
def decodeCommand (w : Half) : Except Reject Instr := decodeOpArg (commandOp w) (commandArg w)

/-- The first thing an FSPEC octet at chain index 0 announces: FX (the chain is read before any field, 41_fspec.md
R114), then the presence bits in ascending FRN order (30_encoding.md R76). -/
def decodeChain0 (o : Byte) : Except Reject Instr :=
  if srcBit o 1 then .ok .fx0
  else if srcBit o 8 then .ok .frn1Dsi
  else if srcBit o 7 then .ok .frn2Mty
  else if srcBit o 6 then .ok .frn3Tod
  else if srcBit o 5 then .ok .frn4Sec
  else if srcBit o 4 then .ok .frn5Arp
  else if srcBit o 3 then .ok .frn6Scs
  else if srcBit o 2 then .ok .frn7Spm
  else .error .nothingDeclared

/-- The first presence bit of an FSPEC octet at chain index 1, in ascending FRN order (30_encoding.md R76). -/
def decodeChain1 (o : Byte) : Except Reject Instr :=
  if srcBit o 8 then .ok .frn8
  else if srcBit o 7 then .ok .frn9Gpw
  else if srcBit o 6 then .ok .frn10
  else if srcBit o 5 then .ok .frn11Pos
  else if srcBit o 4 then .ok .frn12
  else if srcBit o 3 then .ok .frn13
  else if srcBit o 2 then .ok .frn14
  else .error .nothingDeclared

/-- The first subfield bit of a primary octet, in the order COM, PSR, SSR, MDS (30_encoding.md R78). -/
def decodePrimary (sm : Config.SubMap) (item : StatusItem) (o : Byte) : Except Reject Instr :=
  if srcBit o sm.com then .ok (.subCom item)
  else if srcBit o sm.psr then .ok (.subPsr item)
  else if srcBit o sm.ssr then .ok (.subSsr item)
  else if srcBit o sm.mds then .ok (.subMds item)
  else .error .nothingDeclared

/-- An octet in its role. -/
def decodeOctet (sm : Config.SubMap) (role : Role) (o : Byte) : Except Reject Instr :=
  match role with
  | .chain0 => decodeChain0 o
  | .chain1 => decodeChain1 o
  | .chain1Fx => .ok (.fx1 o)
  | .primary item => decodePrimary sm item o
  | .primarySpare => .ok (.subSpare o)
  | .primaryFx => .ok (.subFx o)

/-- A header: category in bits 23:16, length in bits 15:0 (30_encoding.md R70). -/
def decodeHeader (h : Word24) : Instr := .header (h.extractLsb' 16 8) (h.extractLsb' 0 16)

/-- The decoder. SUBMAP is a parameter of the encoding (30_encoding.md R78). -/
def decode (sm : Config.SubMap) : Code → Except Reject Instr
  | .command w => decodeCommand w
  | .octet role o => decodeOctet sm role o
  | .header h => .ok (decodeHeader h)

/-- A command word from operation code and argument (30_encoding.md R86). -/
def commandWord (op arg : Byte) : Code := .command (op ++ arg)

/-- The encoder: the code of a well-formed instruction, from the same tables (30_encoding.md R70, R71, R76, R78,
R86). -/
def encode (sm : Config.SubMap) : Instr → Code
  | .hdrEnc => commandWord 0x10#8 0
  | .hdrDec => commandWord 0x11#8 0
  | .fsSet n => commandWord 0x20#8 n
  | .fsGet n => commandWord 0x21#8 n
  | .fspecEnc => commandWord 0x22#8 0
  | .fspecDec => commandWord 0x23#8 0
  | .towDsi => commandWord 0x30#8 1
  | .towMty => commandWord 0x30#8 2
  | .towTod => commandWord 0x30#8 3
  | .towSec => commandWord 0x30#8 4
  | .towArp => commandWord 0x30#8 5
  | .towScs => commandWord 0x30#8 6
  | .towSpm => commandWord 0x30#8 7
  | .towGpw => commandWord 0x30#8 9
  | .towPos => commandWord 0x30#8 11
  | .frwDsi => commandWord 0x31#8 1
  | .frwMty => commandWord 0x31#8 2
  | .frwTod => commandWord 0x31#8 3
  | .frwSec => commandWord 0x31#8 4
  | .frwArp => commandWord 0x31#8 5
  | .frwScs => commandWord 0x31#8 6
  | .frwSpm => commandWord 0x31#8 7
  | .frwGpw => commandWord 0x31#8 9
  | .frwPos => commandWord 0x31#8 11
  | .recEnc => commandWord 0x40#8 0
  | .recDec => commandWord 0x41#8 0
  | .ofsQ f => commandWord 0x42#8 f
  | .msgEnc => commandWord 0x50#8 0
  | .msgDec => commandWord 0x51#8 0
  | .frn1Dsi => .octet .chain0 0x80#8
  | .frn2Mty => .octet .chain0 0x40#8
  | .frn3Tod => .octet .chain0 0x20#8
  | .frn4Sec => .octet .chain0 0x10#8
  | .frn5Arp => .octet .chain0 0x08#8
  | .frn6Scs => .octet .chain0 0x04#8
  | .frn7Spm => .octet .chain0 0x02#8
  | .frn8 => .octet .chain1 0x80#8
  | .frn9Gpw => .octet .chain1 0x40#8
  | .frn10 => .octet .chain1 0x20#8
  | .frn11Pos => .octet .chain1 0x10#8
  | .frn12 => .octet .chain1 0x08#8
  | .frn13 => .octet .chain1 0x04#8
  | .frn14 => .octet .chain1 0x02#8
  | .fx0 => .octet .chain0 0x01#8
  | .fx1 o => .octet .chain1Fx o
  | .subCom item => .octet (.primary item) (srcMask sm.com)
  | .subPsr item => .octet (.primary item) (srcMask sm.psr)
  | .subSsr item => .octet (.primary item) (srcMask sm.ssr)
  | .subMds item => .octet (.primary item) (srcMask sm.mds)
  | .subSpare p => .octet .primarySpare p
  | .subFx p => .octet .primaryFx p
  | .header c l => .header (c ++ l)

/-- The code that a word of spec/opcode_table.json stands for. 16-bit words are command words; 24 bits are a header. An
octet does not say its role, so the table's width helps where it can: octets of 8 bits are read at chain index 0, and 00
as the legal pattern of FX at chain index 1; of the octets to which the table gives more than 8 bits, the bits 0x40 to
0x04 are the rows of FRN 9 to 13 at chain index 1, the others are read at chain index 0 (log entry 9). -/
def tableCode (nbits w : Nat) : Option Code :=
  if nbits = 24 then some (.header (BitVec.ofNat 24 w))
  else if nbits = 8 then
    if w % 256 = 0 then some (.octet .chain1Fx 0) else some (.octet .chain0 (BitVec.ofNat 8 w))
  else if nbits = 16 then
    if w % 65536 < 256 ∧ w % 256 ≠ 0 then
      if w % 256 ∈ [0x40, 0x20, 0x10, 0x08, 0x04] then some (.octet .chain1 (BitVec.ofNat 8 w))
      else some (.octet .chain0 (BitVec.ofNat 8 w))
    else some (.command (BitVec.ofNat 16 w))
  else none

/-- The instruction the decoder reads from an opcode-table word; none where it refuses. -/
def decodeTableWord (nbits w : Nat) : Option Instr :=
  match tableCode nbits w with
  | none => none
  | some c =>
    match decode Config.SubMap.default c with
    | .ok i => some i
    | .error _ => none

end Sys2Proof
end

