-- ==== Sys2Proof/Machine/Fetch.lean ====
section
/-! DEFINITION. Where the engine's next request comes from: the head of the queue `pending` (30_encoding.md R86,
70_reset_and_hazards.md R238; log entry 1). -/

namespace Sys2Proof.Machine

/-- The next request and the state without it; none when the host has asked for nothing (60_exceptions.md R221). -/
def fetch (s : State) : Option (Request × State) :=
  match s.pending with
  | [] => none
  | q :: rest => some (q, s.setPending rest)

/-- What a code that is no instruction does. An illegal command word raises CommandInvalid with no other effect
(30_encoding.md R87); an octet that announces nothing moves nothing (43_record_engine.md R172). -/
def rejectCode (e : Reject) (s : State) : Host.Outcome State Fault Refusal :=
  match e with
  | .illegalOp _ => raise .commandInvalid s
  | .illegalArg _ _ => raise .commandInvalid s
  | .nothingDeclared => .next s

/-- A code put where the next step fetches it (log entry 1). -/
def presentCode (c : Code) (s : State) : State := s.setPending (.code c :: s.pending)

/-- An opcode-table word put where the next step fetches it; a word the table knows no code for is presented as the
command word of its low 16 bits (log entry 9). -/
def presentTableWord (s : State) (nbits w : Nat) : State :=
  match tableCode nbits w with
  | some c => presentCode c s
  | none => presentCode (.command (BitVec.ofNat 16 w)) s

end Sys2Proof.Machine
end

