-- ==== Sys2Proof/Machine/HostPort.lean ====
section
/-! DEFINITION. The host's register writes between commands (70_reset_and_hazards.md R238; 30_encoding.md R88). -/

namespace Sys2Proof.Machine

/-- Records for the indices that come into being when NREC grows: their contents are free (10_state.md R32; log entry
5). -/
def freeRecords (start count : Nat) : List Record := (List.range count).map fun i => Config.freeRecord (start + i)

/-- `NREC := n`: RS is cut to n records, or grows by records of free contents (log entries 5 and 12). -/
def State.setNrec (s : State) (n : Nat) : State :=
  { s with rs := s.rs.take n ++ freeRecords s.freeCount (n - s.rs.length),
           freeCount := s.freeCount + (n - s.rs.length) }

/-- A write to RS[i], which must be below NREC (10_state.md R32; log entry 10). -/
def writeRs (i : Half) (change : Record → Record) (s : State) : Host.Outcome State Fault Refusal :=
  if i.toNat < s.rs.length then .next { s with rs := s.rs.modify i.toNat change } else .fault (.noSuchRecord i)

/-- One host write. STATUS is not written: it is the outcome of the last command (10_state.md R26). -/
def hostWrite (h : HostWrite) (s : State) : Host.Outcome State Fault Refusal :=
  match h with
  | .buf a b =>
    if a.toNat < Config.bufCap then .next { s with buf := Memory.write s.buf a.toNat b } else .fault (.noSuchByte a)
  | .blen n => .next { s with blen := n }
  | .slot v => .next { s with r := s.r.put v }
  | .clear f => .next { s with r := s.r.clear f }
  | .nrec n => .next (s.setNrec n.toNat)
  | .rs i rec => writeRs i (fun _ => rec) s
  | .rsSlot i v => writeRs i (fun rec => rec.put v) s
  | .rsClear i f => writeRs i (fun rec => rec.clear f) s
  | .hcat c => .next { s with hcat := c }
  | .hlen n => .next { s with hlen := n }
  | .fsb b => .next { s with fsb := b }
  | .fsp0 b => .next { s with fsp0 := b }
  | .fsp1 b => .next { s with fsp1 := b }
  | .flen n => .next { s with flen := n }
  | .w i b => .next { s with w := s.w.set i b }
  | .wlen n => .next { s with wlen := n }
  | .rlen n => .next { s with rlen := n }
  | .ofs n => .next { s with ofs := n }
  | .t b => .next { s with t := b }

end Sys2Proof.Machine
end

