-- ==== Sys2Proof/Machine/Step.lean ====
section
/-! DEFINITION. One step: the engine takes the host's next request, a command or a register write, and performs it
whole (10_state.md R20). -/

namespace Sys2Proof.Machine

/-- One step. With nothing asked for, the engine waits and loses no state (60_exceptions.md R221). -/
def step (s : State) : Host.Outcome State Fault Refusal :=
  match fetch s with
  | none => .next s
  | some (.write h, s') => hostWrite h s'
  | some (.code c, s') =>
    match decode s.params.subMap c with
    | .ok i => exec i s'
    | .error e => rejectCode e s'

/-- `s` with an opcode-table word stored where `step` fetches its next instruction (log entries 1 and 9). -/
def State.withFetchWord (s : State) (nbits w : Nat) : State := presentTableWord s nbits w

end Sys2Proof.Machine
end

