-- ==== Sys2Proof/Safety.lean ====
section
/-! DEFINITION. What a good state is, and the terms the statements are written in: the values a codec accepts
(10_state.md R22), truncation as an inequality, quantised records (43_record_engine.md R180), and the wire-level rows
run one after another. -/

namespace Sys2Proof.Machine

/-! ## Good states -/

/-- What every step keeps: BUF in canonical form inside 0..65534 (20_memory.md R50), at most 65535 records
(10_state.md R32), STATUS a code of the table (60_exceptions.md R200: 6 and 7 are never written, 10_state.md R26), and
no terminal phase outlives its command (10_state.md R34). -/
def State.Inv (s : State) : Prop :=
  Memory.wf s.buf ∧ s.rs.length ≤ 65535 ∧ s.status.toNat ≤ 5 ∧ (s.ph = none ∨ s.ph = some .readRecord)

/-- The legal command words, written out from 30_encoding.md R87. -/
def legalCommand (w : Half) : Bool :=
  let op := w.toNat / 256
  let arg := w.toNat % 256
  (op ∈ [0x10, 0x11, 0x22, 0x23, 0x40, 0x41, 0x50, 0x51] && arg = 0) ||
  (op ∈ [0x20, 0x21] && 1 ≤ arg && arg ≤ 8) ||
  (op ∈ [0x30, 0x31] && arg ∈ [1, 2, 3, 4, 5, 6, 7, 9, 11]) ||
  (op = 0x42 && 1 ≤ arg && arg ≤ 14)

/-! ## Values -/

/-- The values TOW accepts (10_state.md R22, last column; MessageType under MT_STRICT by 42_field_codecs.md R142). -/
def FieldValue.Accepted (p : Config.Params) : FieldValue → Prop
  | .dsi _ => True
  | .mty m => p.mtStrict = false ∨ (1 ≤ m.toNat ∧ m.toNat ≤ 7)
  | .tod v => -1 / 128 < v ∧ v < 131072
  | .sec v => -45 / 32 < v ∧ v < 360
  | .arp v => -1 / 128 < v ∧ v < 512
  | .scs _ => True
  | .spm _ => True
  | .gpw v =>
    (-1 / 256 < v.rhoStart ∧ v.rhoStart < 256) ∧ (-1 / 256 < v.rhoEnd ∧ v.rhoEnd < 256) ∧
    (-45 / 8192 < v.thetaStart ∧ v.thetaStart < 360) ∧ (-45 / 8192 < v.thetaEnd ∧ v.thetaEnd < 360)
  | .pos v =>
    (-32769 < v.height ∧ v.height < 32768) ∧ (-180 - 45 / 2097152 < v.lat ∧ v.lat < 180) ∧
    (-180 - 45 / 2097152 < v.lon ∧ v.lon < 180)

/-- Every present slot holds a value its codec accepts (70_reset_and_hazards.md R233). -/
def Record.Accepted (p : Config.Params) (rec : Record) : Prop :=
  ∀ f v, rec.get f = some v → v.Accepted p

/-- The scales of the scale table (42_field_codecs.md R133). -/
def scaleTable : List Scale := [scaleTod, scaleSec, scaleArp, scaleRho, scaleTheta, scaleHeight, scaleLatLon]

/-- n is v divided by the LSB with the fraction discarded, toward zero (00_scope.md R11, 42_field_codecs.md R135),
said without division. -/
def TruncatesTo (v lsb : Rat) (n : Int) : Prop :=
  (0 ≤ v → (n : Rat) * lsb ≤ v ∧ v < ((n : Rat) + 1) * lsb) ∧
  (v < 0 → ((n : Rat) - 1) * lsb < v ∧ v ≤ (n : Rat) * lsb)

/-- `dec(enc(v))` of one scaled component (43_record_engine.md R180). -/
def Scale.quantise (sc : Scale) (v : Rat) : Rat := sc.value (sc.wire v)

/-- `q(r)`: every scaled component of a record replaced by `dec(enc(v))` (43_record_engine.md R180). -/
def Record.quantised (rec : Record) : Record :=
  { rec with
    tod := rec.tod.map scaleTod.quantise
    sec := rec.sec.map scaleSec.quantise
    arp := rec.arp.map scaleArp.quantise
    gpw := rec.gpw.map fun v =>
      { rhoStart := scaleRho.quantise v.rhoStart, rhoEnd := scaleRho.quantise v.rhoEnd,
        thetaStart := scaleTheta.quantise v.thetaStart, thetaEnd := scaleTheta.quantise v.thetaEnd }
    pos := rec.pos.map fun v =>
      { height := scaleHeight.quantise v.height, lat := scaleLatLon.quantise v.lat,
        lon := scaleLatLon.quantise v.lon } }

/-- The wire size of a value from its side, `vsize(f, v)` (43_record_engine.md R174). -/
def FieldValue.wireSize : FieldValue → Nat
  | .dsi _ => 2
  | .mty _ => 1
  | .tod _ => 3
  | .sec _ => 1
  | .arp _ => 2
  | .scs v => 1 + v.com.toList.length + v.psr.toList.length + v.ssr.toList.length + v.mds.toList.length
  | .spm v => 1 + v.com.toList.length + v.psr.toList.length + v.ssr.toList.length + v.mds.toList.length
  | .gpw _ => 8
  | .pos _ => 8

/-- The octets that the present fields with an FRN below f occupy (43_record_engine.md R175). -/
def Record.sizeBelow (rec : Record) (f : Nat) : Nat :=
  (((codecFields.filter (fun g => g.frn < f)).filterMap rec.get).map FieldValue.wireSize).sum

/-- The declared fields below FRN f all read: the octets bs begin with their chain o and then with the octets of one
value for each declared FRN below f, in ascending order; `more` is what follows (43_record_engine.md R172). -/
def ReadsBelow (p : Config.Params) (o bs : List Byte) (f : Nat) (more : List Byte) : Prop :=
  ∃ (vs : List FieldValue) (body : List Byte),
    ((chainFrns o).filter (fun g => g < f)).map Field.ofFrn = vs.map (fun v => some v.field) ∧
    joinWire (vs.map (toWire p)) = .ok body ∧ bs = o ++ body ++ more

/-- The parameters with MT_STRICT false: under them a field reads iff its size does (43_record_engine.md R174; MT_STRICT
is the only test of a codec on a slice of the right size, 42_field_codecs.md R143). -/
def lenient (p : Config.Params) : Config.Params := { p with mtStrict := false }

/-- What ends the reading of a record at a declared FRN f whose octets begin with `more`: the tests of
43_record_engine.md R172 in their order, with the error each raises. -/
inductive FieldFails (p : Config.Params) : Nat → List Byte → ErrorKind → Prop where
  | noCodec {f : Nat} {more : List Byte} (h : f ∈ [8, 10, 12, 13, 14]) : FieldFails p f more .itemUnsupported
  | cutOff {f : Nat} {more : List Byte} {fld : Field} {n : Nat} (h : Field.ofFrn f = some fld)
      (size : fld.fixedSize = some n) (short : more.length < n) : FieldFails p f more .sizeInvalid
  | item {f : Nat} {more : List Byte} {k : ErrorKind} (h : f = 6 ∨ f = 7) (failed : subParse p.subMap more = .error k) :
      FieldFails p f more k
  | messageType {m : Byte} {more : List Byte} (strict : p.mtStrict = true) (outside : m.toNat = 0 ∨ 7 < m.toNat) :
      FieldFails p 2 (m :: more) .itemUnsupported

/-- The octets after a header are records to the last octet, each with a canonical chain (44_message_engine.md R195,
41_fspec.md R118). -/
inductive CanonicalRecords (p : Config.Params) : List Byte → Prop where
  | ended : CanonicalRecords p []
  | record {bs o : List Byte} {rec : Record} {n : Nat} (chain : fspecParse bs = .ok o)
      (canonical : canonicalChain o = true) (read : recDec p bs = .ok (rec, n))
      (rest : CanonicalRecords p (bs.drop n)) : CanonicalRecords p bs

/-- The octets after a header are the records `recs`, one after another to the last octet (44_message_engine.md R192,
R194). -/
inductive RecordsRead (p : Config.Params) : List Byte → List Record → Prop where
  | ended : RecordsRead p [] []
  | record {bs : List Byte} {rec : Record} {n : Nat} {recs : List Record} (ne : bs ≠ [])
      (read : recDec p bs = .ok (rec, n)) (rest : RecordsRead p (bs.drop n) recs) : RecordsRead p bs (rec :: recs)

/-- Reading records one after another, the first one that fails fails with the error `k` (44_message_engine.md R194). -/
inductive RecordsFail (p : Config.Params) : List Byte → ErrorKind → Prop where
  | here {bs : List Byte} {k : ErrorKind} (ne : bs ≠ []) (failed : recDec p bs = .error k) : RecordsFail p bs k
  | later {bs : List Byte} {rec : Record} {n : Nat} {k : ErrorKind} (ne : bs ≠ [])
      (read : recDec p bs = .ok (rec, n)) (rest : RecordsFail p (bs.drop n) k) : RecordsFail p bs k

/-! ## The wire-level rows one after another -/

/-- The row of a presence bit (30_encoding.md R76); FRNs outside 1..14 have none and stand for FRN 14's. -/
def frnInstr : Nat → Instr
  | 1 => .frn1Dsi
  | 2 => .frn2Mty
  | 3 => .frn3Tod
  | 4 => .frn4Sec
  | 5 => .frn5Arp
  | 6 => .frn6Scs
  | 7 => .frn7Spm
  | 8 => .frn8
  | 9 => .frn9Gpw
  | 10 => .frn10
  | 11 => .frn11Pos
  | 12 => .frn12
  | 13 => .frn13
  | _ => .frn14

/-- The rows a chain announces, in ascending FRN order (43_record_engine.md R172). -/
def chainProgram (o : List Byte) : List Instr := (chainFrns o).map frnInstr

/-- The rows a primary octet announces: the FX test, the spare test, then the subfield bits in wire order
(42_field_codecs.md R151). -/
def primaryProgram (sm : Config.SubMap) (item : StatusItem) (p : Byte) : List Instr :=
  [.subFx p, .subSpare p] ++ (if srcBit p sm.com then [.subCom item] else []) ++
  (if srcBit p sm.psr then [.subPsr item] else []) ++ (if srcBit p sm.ssr then [.subSsr item] else []) ++
  (if srcBit p sm.mds then [.subMds item] else [])

/-- Wire-level rows in order from a state with STATUS 0, up to the first error. -/
def runRows : List Instr → State → State
  | [], s => s
  | i :: is, s =>
    match exec i s with
    | .next t => if t.status = 0 then runRows is t else t
    | .fault _ => s
    | .refused _ => s

end Sys2Proof.Machine
end

