-- ==== Sys2Proof/Certificates/Slice0/Obligations.lean ====
section
/-! DEFINITION. The statements about the model. -/

open Sys2Proof Sys2Proof.Machine

/-! ## Encoding, fetching, waiting -/

/-- DECODE AND ENCODE AGREE on every well-formed instruction, every operand at every value, whatever SUBMAP is
(30_encoding.md R70, R71, R76, R78, R86). The roles of octets are the model's (log entry 7). -/
def Obligations.DecodeOfEncodeIsTheInstruction : Prop :=
  ∀ (sm : Config.SubMap) (i : Instr), i.WellFormed = true → decode sm (encode sm i) = .ok i

/-- A command word has one meaning: what it decodes to is a well-formed command whose code is that word
(30_encoding.md R86, R87; the codes are the spec's decision D3). -/
def Obligations.CommandWordsHaveOneReading : Prop :=
  ∀ (sm : Config.SubMap) (w : Half) (i : Instr), decode sm (.command w) = .ok i →
    encode sm i = .command w ∧ i.WellFormed = true ∧ i.isCommand = true

/-- The legal command words are exactly those of R86; every other word raises CommandInvalid and has no other effect
(R87, the spec's decision D23), but that CUR is not defined after a command (10_state.md R24; log entry 2). -/
def Obligations.IllegalCommandWordsRaiseCommandInvalid : Prop :=
  ∀ (s : State) (w : Half) (rest : List Request), s.pending = .code (.command w) :: rest →
    (legalCommand w = false → step s = .next ({ s with pending := rest }.finish 5)) ∧
    (legalCommand w = true → ∃ i, i.isCommand = true ∧ decode s.params.subMap (.command w) = .ok i ∧
      step s = exec i { s with pending := rest })

/-- Codes written out from the tables of the spec decode to the instruction they stand for: command words
(30_encoding.md R86), presence bits (R76), a subfield bit (R78), a header (R70). That an octet is a code of its
own, in a role, is the model's choice (log entry 7); the subfield bit is read under the default SUBMAP (log entry
6), and 0x08 is SUB.SSR only under it. -/
def Obligations.WrittenOutCodesDecode : Prop :=
  decode .default (.command 0x1000#16) = .ok .hdrEnc ∧
  decode .default (.command 0x2008#16) = .ok (.fsSet 8#8) ∧
  decode .default (.command 0x3004#16) = .ok .towSec ∧
  decode .default (.command 0x310B#16) = .ok .frwPos ∧
  decode .default (.command 0x420E#16) = .ok (.ofsQ 14#8) ∧
  decode .default (.command 0x5100#16) = .ok .msgDec ∧
  decode .default (.octet .chain0 0x80#8) = .ok .frn1Dsi ∧
  decode .default (.octet .chain1 0x10#8) = .ok .frn11Pos ∧
  decode .default (.octet (.primary .scs) 0x08#8) = .ok (.subSsr .scs) ∧
  decode .default (.header 0x220017#24) = .ok (.header 0x22#8 23#16)

/-- A STEP RUNS THE DECODED INSTRUCTION: the request at the head of the queue is taken off and the instruction its
code decodes to is executed on the rest. The queue is the model's own (log entry 1). -/
def Obligations.StepRunsTheDecodedInstruction : Prop :=
  ∀ (s : State) (c : Code) (rest : List Request) (i : Instr),
    s.pending = .code c :: rest → decode s.params.subMap c = .ok i →
    step s = exec i { s with pending := rest }

/-- With nothing asked for, the engine waits and loses no state (60_exceptions.md R221); a host write is one step of
its own (70_reset_and_hazards.md R238). The queue is the model's own (log entry 1). -/
def Obligations.StepWaitsOrTakesTheHostWrite : Prop :=
  ∀ s : State, (s.pending = [] → step s = .next s) ∧
    (∀ (h : HostWrite) (rest : List Request), s.pending = .write h :: rest →
      step s = hostWrite h { s with pending := rest })

/-- What each host write does: it writes the register it names and nothing else (R238); BUF[65535] and RS[NREC] do
not exist and the write stops (20_memory.md R50, 10_state.md R32; log entry 10). STATUS and CUR are never written
(the spec's decision D29; log entries 5 and 21). -/
def Obligations.HostWritesWriteTheNamedRegister : Prop :=
  ∀ (s : State),
    (∀ (a : Half) (b : Byte), a.toNat < 65535 →
      ∃ t, hostWrite (.buf a b) s = .next t ∧ t = { s with buf := t.buf } ∧
        ∀ x, Memory.octet t.buf x = if x = a.toNat then b else Memory.octet s.buf x) ∧
    (∀ b, hostWrite (.buf 0xFFFF#16 b) s = .fault (.noSuchByte 0xFFFF#16)) ∧
    (∀ v, hostWrite (.slot v) s = .next { s with r := s.r.put v }) ∧
    (∀ f, hostWrite (.clear f) s = .next { s with r := s.r.clear f }) ∧
    (∀ (i : Half) (rec : Record), i.toNat < s.rs.length →
      hostWrite (.rs i rec) s = .next { s with rs := s.rs.set i.toNat rec }) ∧
    (∀ (i : Half) (rec : Record), s.rs[i.toNat]? = some rec →
      (∀ v, hostWrite (.rsSlot i v) s = .next { s with rs := s.rs.set i.toNat (rec.put v) }) ∧
      (∀ f, hostWrite (.rsClear i f) s = .next { s with rs := s.rs.set i.toNat (rec.clear f) })) ∧
    (∀ i : Half, s.rs.length ≤ i.toNat →
      (∀ rec, hostWrite (.rs i rec) s = .fault (.noSuchRecord i)) ∧
      (∀ v, hostWrite (.rsSlot i v) s = .fault (.noSuchRecord i)) ∧
      (∀ f, hostWrite (.rsClear i f) s = .fault (.noSuchRecord i))) ∧
    (∀ n : Half, ∃ t, hostWrite (.nrec n) s = .next t ∧ t.rs.length = n.toNat ∧
      (∀ k, k < n.toNat → k < s.rs.length → t.rs[k]? = s.rs[k]?) ∧
      t = { s with rs := t.rs, freeCount := t.freeCount }) ∧
    (∀ n, hostWrite (.blen n) s = .next { s with blen := n }) ∧
    (∀ n, hostWrite (.wlen n) s = .next { s with wlen := n }) ∧
    (∀ c, hostWrite (.hcat c) s = .next { s with hcat := c }) ∧
    (∀ n, hostWrite (.hlen n) s = .next { s with hlen := n }) ∧
    (∀ b, hostWrite (.fsb b) s = .next { s with fsb := b }) ∧
    (∀ b, hostWrite (.fsp0 b) s = .next { s with fsp0 := b }) ∧
    (∀ b, hostWrite (.fsp1 b) s = .next { s with fsp1 := b }) ∧
    (∀ n, hostWrite (.flen n) s = .next { s with flen := n }) ∧
    (∀ i b, ∃ t, hostWrite (.w i b) s = .next t ∧ t = { s with w := t.w } ∧
      t.w.toList = s.w.toList.set i.val b) ∧
    (∀ n, hostWrite (.rlen n) s = .next { s with rlen := n }) ∧
    (∀ n, hostWrite (.ofs n) s = .next { s with ofs := n }) ∧
    (∀ b, hostWrite (.t b) s = .next { s with t := b }) ∧
    (∀ h t, hostWrite h s = .next t →
      t.status = s.status ∧ t.cur = s.cur ∧ t.params = s.params ∧ t.pending = s.pending)

/-! ## Reset and the invariant -/

/-- The reset values the spec gives (70_reset_and_hazards.md R230, 10_state.md R36; the spec's decision D22). CUR and
BUF are left open there and nothing is said of them. -/
def Obligations.ResetHoldsTheSpecValues : Prop :=
  State.reset.r = { dsi := none, mty := none, tod := none, sec := none, arp := none, scs := none, spm := none,
                    gpw := none, pos := none } ∧
  State.reset.status = 0 ∧ State.reset.t = false ∧ State.reset.rlen = 0 ∧ State.reset.ofs = 0 ∧
  State.reset.hcat = 0 ∧ State.reset.hlen = 0 ∧ State.reset.fsb = 0 ∧ State.reset.fsp0 = 0 ∧
  State.reset.fsp1 = 0 ∧ State.reset.flen = 0 ∧ State.reset.w.toList = [0, 0, 0, 0, 0, 0, 0, 0] ∧
  State.reset.wlen = 0 ∧ State.reset.nrec = 0 ∧ State.reset.rs = [] ∧ State.reset.blen = 0 ∧ State.reset.ph = none

/-- What each command does in the reset state (70_reset_and_hazards.md R231, which the spec marks derived). -/
def Obligations.FirstCommandAfterReset : Prop :=
  (∀ i, i ∈ [Instr.msgDec, .recDec, .fspecDec, .hdrDec] → exec i .reset = .next (State.reset.finish 1)) ∧
  (∀ f : Byte, 1 ≤ f.toNat → f.toNat ≤ 14 → exec (.ofsQ f) .reset = .next (State.reset.finish 1)) ∧
  exec .msgEnc .reset = .next (State.reset.finish 2) ∧
  (∃ t, exec .recEnc .reset = .next t ∧ t = { State.reset.finish 0 with buf := t.buf, blen := 1, rlen := 1 } ∧
    Memory.octet t.buf 0 = 0) ∧
  exec .fspecEnc .reset = .next { State.reset.finish 0 with fsp0 := 0, flen := 1 } ∧
  (∃ t, exec .hdrEnc .reset = .next t ∧ t = { State.reset.finish 0 with w := t.w, wlen := 3 } ∧
    t.w.toList.take 3 = [0, 0, 0]) ∧
  (∀ n : Byte, 1 ≤ n.toNat → n.toNat ≤ 8 →
    exec (.fsGet n) .reset = .next { State.reset.finish 0 with t := false } ∧
    exec (.fsSet n) .reset = .next { State.reset.finish 0 with fsb := 1#8 <<< (n.toNat - 1) }) ∧
  (∀ i, i ∈ [Instr.towDsi, .towMty, .towTod, .towSec, .towArp, .towScs, .towSpm, .towGpw, .towPos] →
    exec i .reset = .next (State.reset.finish 5)) ∧
  (∀ i, i ∈ [Instr.frwDsi, .frwMty, .frwTod, .frwSec, .frwArp, .frwScs, .frwSpm, .frwGpw, .frwPos] →
    exec i .reset = .next (State.reset.finish 1))

/-- The invariant holds at reset. -/
def Obligations.InvariantHoldsAtReset : Prop := State.reset.Inv

/-- AN INVARIANT THAT EVERY STEP KEEPS: BUF stays canonical and inside 0..65534, NREC stays in 16 bits, STATUS stays
one of the six codes, and no terminal phase outlives its command (20_memory.md R50; 10_state.md R26, R32, R34). -/
def Obligations.EveryStepKeepsTheInvariant : Prop :=
  ∀ s t : State, s.Inv → step s = .next t → t.Inv

/-- No step writes the parameters, and each step takes at most one request off the queue (log entries 1 and 6). -/
def Obligations.StepKeepsParametersAndQueueOrder : Prop :=
  ∀ s t : State, step s = .next t → t.params = s.params ∧ t.pending = s.pending.tail

/-! ## How commands end -/

/-- Every instruction on every state has a defined outcome: a next state (93_implementation_defined.md Part 1;
70_reset_and_hazards.md R240). -/
def Obligations.EveryInstructionAnswersANextState : Prop :=
  ∀ (i : Instr) (s : State), ∃ t, exec i s = .next t

/-- A command that raises changes STATUS and nothing else (60_exceptions.md R210, the spec's decision D18); CUR is
not defined between commands (10_state.md R24) and the model's counter of free values moves with it (log entry
2). -/
def Obligations.FailingCommandChangesOnlyStatus : Prop :=
  ∀ (i : Instr) (s t : State), i.isCommand = true → exec i s = .next t → t.status ≠ 0 →
    t = { s with status := t.status, cur := t.cur, freeCount := t.freeCount, ph := none }

/-- Which command can end with which kind (60_exceptions.md R207, marked derived; R200): no other code ever stands in
STATUS after it. A well-formed command never ends with CommandInvalid but TOW. -/
def Obligations.OutcomeKindsOfEachCommand : Prop :=
  ∀ (i : Instr) (s t : State), i.isCommand = true → i.WellFormed = true → exec i s = .next t →
    (t.status = 0 ∨ t.status = 1 ∨ t.status = 2 ∨ t.status = 3 ∨ t.status = 4 ∨ t.status = 5) ∧
    (t.status = 1 → i ∈ [Instr.hdrDec, .fspecDec, .frwDsi, .frwMty, .frwTod, .frwSec, .frwArp, .frwScs, .frwSpm,
      .frwGpw, .frwPos, .recDec, .msgEnc, .msgDec] ∨ ∃ f, i = .ofsQ f) ∧
    (t.status = 2 → i = .msgEnc ∨ i = .msgDec) ∧
    (t.status = 3 → i ∈ [Instr.towTod, .towSec, .towArp, .towGpw, .towPos, .recEnc, .msgEnc]) ∧
    (t.status = 4 → i ∈ [Instr.frwScs, .frwSpm, .recDec, .msgDec] ∨ (∃ f, i = .ofsQ f) ∨
      (s.params.mtStrict = true ∧ i ∈ [Instr.towMty, .frwMty, .recEnc, .msgEnc])) ∧
    (t.status = 5 → i ∈ [Instr.towDsi, .towMty, .towTod, .towSec, .towArp, .towScs, .towSpm, .towGpw, .towPos])

/-- A command's result does not depend on STATUS, on where the cursor was left, or on a phase (10_state.md R24, R34,
R35). -/
def Obligations.CommandsIgnoreStatusCursorAndPhase : Prop :=
  ∀ (i : Instr) (s : State) (st : BitVec 3) (c : Half) (p : Option Phase), i.isCommand = true →
    exec i { s with status := st, cur := c, ph := p } = exec i s

/-- Octets at or beyond BLEN never influence a result (20_memory.md R52): with another BUF that has the same valid
octets, every command but the two that write BUF ends the same, BUF aside. -/
def Obligations.CommandsIgnoreOctetsBeyondBlen : Prop :=
  ∀ (i : Instr) (s t : State) (m : Memory), i.isCommand = true → i ≠ .recEnc → i ≠ .msgEnc →
    (∀ a, a < s.blen.toNat → Memory.octet m a = Memory.octet s.buf a) →
    exec i s = .next t → exec i { s with buf := m } = .next { t with buf := m }

/-- FSP, FLEN and FSB are no input of encoding (43_record_engine.md R178, 70_reset_and_hazards.md R235). -/
def Obligations.EncodingIgnoresTheChainRegisters : Prop :=
  ∀ (i : Instr) (s t : State) (a b c : Byte) (n : Fin 3), i = .recEnc ∨ i = .msgEnc → exec i s = .next t →
    exec i { s with fsp0 := a, fsp1 := b, fsb := c, flen := n } =
      .next { t with fsp0 := a, fsp1 := b, fsb := c, flen := n }

/-- FRAME OF THE COMMANDS: each register is written by the commands that the spec says write it and by no other
(70_reset_and_hazards.md R238; 10_state.md R23, R27 to R33). Every octet of BUF reads as before unless the
command is REC.ENC or MSG.ENC; those two write BUF[0 .. BLEN) and leave every octet at or beyond the new BLEN. -/
def Obligations.CommandsWriteOnlyTheirRegisters : Prop :=
  ∀ (i : Instr) (s t : State), i.isCommand = true → exec i s = .next t →
    (i ∉ [Instr.recEnc, .msgEnc] → t.blen = s.blen ∧ ∀ a, Memory.octet t.buf a = Memory.octet s.buf a) ∧
    (i ∈ [Instr.recEnc, .msgEnc] → t.status = 0 →
      ∀ a, t.blen.toNat ≤ a → Memory.octet t.buf a = Memory.octet s.buf a) ∧
    (i ∉ [Instr.frwDsi, .frwMty, .frwTod, .frwSec, .frwArp, .frwScs, .frwSpm, .frwGpw, .frwPos, .recDec] →
      t.r = s.r) ∧
    (i ≠ .msgDec → t.rs = s.rs) ∧
    (i ∉ [Instr.hdrDec, .msgDec] → t.hcat = s.hcat) ∧
    (i ∉ [Instr.hdrDec, .msgEnc, .msgDec] → t.hlen = s.hlen) ∧
    ((∀ n, i ≠ .fsSet n) → t.fsb = s.fsb) ∧
    (i ∉ [Instr.fspecEnc, .fspecDec] → t.fsp0 = s.fsp0 ∧ t.fsp1 = s.fsp1 ∧ t.flen = s.flen) ∧
    (i ∉ [Instr.hdrEnc, .towDsi, .towMty, .towTod, .towSec, .towArp, .towScs, .towSpm, .towGpw, .towPos] →
      t.w = s.w ∧ t.wlen = s.wlen) ∧
    (i ∉ [Instr.recEnc, .recDec] → t.rlen = s.rlen) ∧
    ((∀ f, i ≠ .ofsQ f) → t.ofs = s.ofs) ∧
    ((∀ f, i ≠ .ofsQ f) → (∀ n, i ≠ .fsGet n) → t.t = s.t) ∧
    t.params = s.params ∧ t.pending = s.pending

/-! ## Header and FieldSpec commands -/

/-- HDR.ENC, the word 0x1000: W[0..3) is category, high octet, low octet; W[3..7] unchanged; WLEN 3; nothing else
(40_header.md R102). -/
def Obligations.HdrEncWritesTheHeaderOctets : Prop :=
  (∀ sm, decode sm (.command 0x1000#16) = .ok .hdrEnc) ∧
  ∀ s : State, ∃ t, exec .hdrEnc s = .next t ∧ t = { s.finish 0 with w := t.w, wlen := 3 } ∧
    t.w.toList = [s.hcat, BitVec.ofNat 8 (s.hlen.toNat / 256), BitVec.ofNat 8 (s.hlen.toNat % 256)] ++
      s.w.toList.drop 3

/-- HDR.DEC, the word 0x1100: with three octets or more HCAT is the first and HLEN the next two, high octet first;
with fewer, SizeInvalid (40_header.md R103). -/
def Obligations.HdrDecReadsTheHeaderOctets : Prop :=
  (∀ sm, decode sm (.command 0x1100#16) = .ok .hdrDec) ∧
  ∀ s : State,
    (3 ≤ s.wlen.val → exec .hdrDec s =
      .next { s.finish 0 with hcat := s.w[0], hlen := BitVec.ofNat 16 (s.w[1].toNat * 256 + s.w[2].toNat) }) ∧
    (s.wlen.val < 3 → exec .hdrDec s = .next (s.finish 1))

/-- FS.SET n, the word 0x2000 + n: it sets the source's bit n of FSB and leaves the other seven and everything else;
n outside 1..8 is no legal word and CommandInvalid (41_fspec.md R110). -/
def Obligations.FsSetSetsOneBit : Prop :=
  (∀ (sm : Config.SubMap) (n : Byte),
    (1 ≤ n.toNat → n.toNat ≤ 8 → decode sm (.command (0x2000#16 + n.setWidth 16)) = .ok (.fsSet n)) ∧
    (n.toNat = 0 ∨ 8 < n.toNat → ∃ e, decode sm (.command (0x2000#16 + n.setWidth 16)) = .error e)) ∧
  ∀ (s : State) (n : Byte),
    (1 ≤ n.toNat → n.toNat ≤ 8 → ∃ t, exec (.fsSet n) s = .next t ∧ t = { s.finish 0 with fsb := t.fsb } ∧
      ∀ k, t.fsb.getLsbD k = (s.fsb.getLsbD k || k = n.toNat - 1)) ∧
    (n.toNat = 0 ∨ 8 < n.toNat → exec (.fsSet n) s = .next (s.finish 5))

/-- FS.GET n, the word 0x2100 + n: T is the source's bit n of FSB, FSB and everything else unchanged; n outside 1..8
is no legal word and CommandInvalid (41_fspec.md R111). -/
def Obligations.FsGetTestsOneBit : Prop :=
  (∀ (sm : Config.SubMap) (n : Byte),
    (1 ≤ n.toNat → n.toNat ≤ 8 → decode sm (.command (0x2100#16 + n.setWidth 16)) = .ok (.fsGet n)) ∧
    (n.toNat = 0 ∨ 8 < n.toNat → ∃ e, decode sm (.command (0x2100#16 + n.setWidth 16)) = .error e)) ∧
  ∀ (s : State) (n : Byte),
    (1 ≤ n.toNat → n.toNat ≤ 8 →
      exec (.fsGet n) s = .next { s.finish 0 with t := ((s.fsb >>> (n.toNat - 1)) &&& 1) = 1 }) ∧
    (n.toNat = 0 ∨ 8 < n.toNat → exec (.fsGet n) s = .next (s.finish 5))

/-- FSPEC.ENC, the word 0x2200: bit 9-k of FSP[0] is the presence of FRN k, FX is set iff FRN 9 or 11 is present;
FSP[1] has 0x40 for FRN 9 and 0x10 for FRN 11 and nothing else; FLEN is the number of octets (41_fspec.md R113). -/
def Obligations.FspecEncBuildsTheChainFromPresence : Prop :=
  (∀ sm, decode sm (.command 0x2200#16) = .ok .fspecEnc) ∧
  ∀ s : State, ∃ t, exec .fspecEnc s = .next t ∧
    t = { s.finish 0 with fsp0 := t.fsp0, fsp1 := t.fsp1, flen := t.flen } ∧
    (t.fsp0.getLsbD 7 = s.r.dsi.isSome ∧ t.fsp0.getLsbD 6 = s.r.mty.isSome ∧ t.fsp0.getLsbD 5 = s.r.tod.isSome ∧
      t.fsp0.getLsbD 4 = s.r.sec.isSome ∧ t.fsp0.getLsbD 3 = s.r.arp.isSome ∧ t.fsp0.getLsbD 2 = s.r.scs.isSome ∧
      t.fsp0.getLsbD 1 = s.r.spm.isSome ∧ t.fsp0.getLsbD 0 = (s.r.gpw.isSome || s.r.pos.isSome)) ∧
    t.fsp1 = (if s.r.gpw.isSome then 0x40#8 else 0) ||| (if s.r.pos.isSome then 0x10#8 else 0) ∧
    t.flen.val = (if s.r.gpw.isSome || s.r.pos.isSome then 2 else 1)

/-- FSPEC.DEC, the word 0x2300, every outcome (41_fspec.md R115): by how many octets there are and their FX bits. -/
def Obligations.FspecDecReadsTheChain : Prop :=
  (∀ sm, decode sm (.command 0x2300#16) = .ok .fspecDec) ∧
  ∀ s : State,
    let a := Memory.octet s.buf 0
    let b := Memory.octet s.buf 1
    (s.blen.toNat = 0 → exec .fspecDec s = .next (s.finish 1)) ∧
    (1 ≤ s.blen.toNat → a.getLsbD 0 = false →
      exec .fspecDec s = .next { s.finish 0 with fsp0 := a, fsp1 := 0, flen := 1 }) ∧
    (s.blen.toNat = 1 → a.getLsbD 0 = true → exec .fspecDec s = .next (s.finish 1)) ∧
    (2 ≤ s.blen.toNat → a.getLsbD 0 = true → b.getLsbD 0 = false →
      exec .fspecDec s = .next { s.finish 0 with fsp0 := a, fsp1 := b, flen := 2 }) ∧
    (2 ≤ s.blen.toNat → a.getLsbD 0 = true → b.getLsbD 0 = true → exec .fspecDec s = .next (s.finish 1))

/-- Build and parse are inverse on canonical chains, and a non-canonical chain rebuilds to its first octet without FX
(41_fspec.md R119, R117, which the spec marks derived, and R118, its decision D11). -/
def Obligations.ChainBuildAndParseAreInverse : Prop :=
  (∀ (P : Nat → Bool) (more : List Byte),
    fspecParse (fspecBuild (allFrns.filter P) ++ more) = .ok (fspecBuild (allFrns.filter P)) ∧
    chainFrns (fspecBuild (allFrns.filter P)) = allFrns.filter P) ∧
  (∀ bs o, fspecParse bs = .ok o →
    (canonicalChain o = true ↔ ¬ ∃ a b, o = [a, b] ∧ b &&& 0xFE#8 = 0) ∧
    (canonicalChain o = true → fspecBuild (chainFrns o) = o) ∧
    (∀ a b, o = [a, b] → b &&& 0xFE#8 = 0 → fspecBuild (chainFrns o) = [a &&& 0xFE#8]))

/-- The chain parser reads at most MAXCHAIN octets, answers a chain of one or two octets that the buffer begins with,
and FX always set is SizeInvalid (41_fspec.md R116, R114; the spec's decision D8). -/
def Obligations.ChainParseIsBounded : Prop :=
  ∀ bs : List Byte, fspecParse bs = fspecParse (bs.take 2) ∧
    (∀ o, fspecParse bs = .ok o → (o.length = 1 ∨ o.length = 2) ∧ o = bs.take o.length) ∧
    ((∀ b ∈ bs, b.getLsbD 0 = true) → fspecParse bs = .error .sizeInvalid)

/-! ## Field codecs -/

/-- TOW on an empty slot is CommandInvalid, for each of the nine (42_field_codecs.md R138, 60_exceptions.md R205 b;
the spec's decision D23). -/
def Obligations.TowOnAnEmptySlotIsCommandInvalid : Prop :=
  ∀ s : State,
    (s.r.dsi = none → exec .towDsi s = .next (s.finish 5)) ∧ (s.r.mty = none → exec .towMty s = .next (s.finish 5)) ∧
    (s.r.tod = none → exec .towTod s = .next (s.finish 5)) ∧ (s.r.sec = none → exec .towSec s = .next (s.finish 5)) ∧
    (s.r.arp = none → exec .towArp s = .next (s.finish 5)) ∧ (s.r.scs = none → exec .towScs s = .next (s.finish 5)) ∧
    (s.r.spm = none → exec .towSpm s = .next (s.finish 5)) ∧ (s.r.gpw = none → exec .towGpw s = .next (s.finish 5)) ∧
    (s.r.pos = none → exec .towPos s = .next (s.finish 5))

/-- TOW.DSI and FRW.DSI, the words 0x3001 and 0x3101, every outcome: the two octets move as they are; the rest of W
is unchanged; no value is CommandInvalid, any WLEN but 2 is SizeInvalid (42_field_codecs.md R140, R141). -/
def Obligations.DataSourceMovesAsItIs : Prop :=
  (∀ sm, decode sm (.command 0x3001#16) = .ok .towDsi ∧ decode sm (.command 0x3101#16) = .ok .frwDsi) ∧
  ∀ s : State,
    (∀ v, s.r.dsi = some v → ∃ t, exec .towDsi s = .next t ∧ t = { s.finish 0 with w := t.w, wlen := 2 } ∧
      t.w.toList = [v.o0, v.o1] ++ s.w.toList.drop 2) ∧
    (s.r.dsi = none → exec .towDsi s = .next (s.finish 5)) ∧
    (s.wlen = 2 → exec .frwDsi s =
      .next { s.finish 0 with r := { s.r with dsi := some { o0 := s.w[0], o1 := s.w[1] } } }) ∧
    (s.wlen ≠ 2 → exec .frwDsi s = .next (s.finish 1))

/-- TOW.MTY and FRW.MTY move the octet as it is, the rest of W unchanged; MessageType outside 1..7 is ItemUnsupported
exactly under MT_STRICT; any WLEN but 1 is SizeInvalid (42_field_codecs.md R142, R143; the spec's decision D13). -/
def Obligations.MessageTypeMovesAsItIs : Prop :=
  ∀ s : State,
    (∀ m, s.r.mty = some m → s.params.mtStrict = false ∨ (1 ≤ m.toNat ∧ m.toNat ≤ 7) →
      ∃ t, exec .towMty s = .next t ∧ t = { s.finish 0 with w := t.w, wlen := 1 } ∧
        t.w.toList = [m] ++ s.w.toList.drop 1) ∧
    (∀ m, s.r.mty = some m → s.params.mtStrict = true → m.toNat = 0 ∨ 7 < m.toNat →
      exec .towMty s = .next (s.finish 4)) ∧
    (s.wlen = 1 → s.params.mtStrict = false ∨ (1 ≤ s.w[0].toNat ∧ s.w[0].toNat ≤ 7) →
      exec .frwMty s = .next { s.finish 0 with r := { s.r with mty := some s.w[0] } }) ∧
    (s.wlen = 1 → s.params.mtStrict = true → s.w[0].toNat = 0 ∨ 7 < s.w[0].toNat →
      exec .frwMty s = .next (s.finish 4)) ∧
    (s.wlen ≠ 1 → exec .frwMty s = .next (s.finish 1))

/-- TOW.TOD, TOW.SEC and TOW.ARP: the value divided by its LSB, truncated toward zero, big-endian; a value outside
the interval of 10_state.md R22 is RangeInvalid (42_field_codecs.md R144, R146, R148; the refusal is the spec's
decision D17). -/
def Obligations.TowScaledFieldsTruncateTowardZero : Prop :=
  ∀ (s : State) (v : Rat),
    (s.r.tod = some v →
      (-1 / 128 < v → v < 131072 → ∃ (n : Int) (t : State), TruncatesTo v (1 / 128) n ∧ 0 ≤ n ∧ n ≤ 16777215 ∧
        exec .towTod s = .next t ∧ t = { s.finish 0 with w := t.w, wlen := 3 } ∧
        t.w.toList = [BitVec.ofNat 8 (n.toNat / 65536), BitVec.ofNat 8 (n.toNat / 256), BitVec.ofNat 8 n.toNat] ++
          s.w.toList.drop 3) ∧
      (v ≤ -1 / 128 ∨ 131072 ≤ v → exec .towTod s = .next (s.finish 3))) ∧
    (s.r.sec = some v →
      (-45 / 32 < v → v < 360 → ∃ (n : Int) (t : State), TruncatesTo v (45 / 32) n ∧ 0 ≤ n ∧ n ≤ 255 ∧
        exec .towSec s = .next t ∧ t = { s.finish 0 with w := t.w, wlen := 1 } ∧
        t.w.toList = [BitVec.ofNat 8 n.toNat] ++ s.w.toList.drop 1) ∧
      (v ≤ -45 / 32 ∨ 360 ≤ v → exec .towSec s = .next (s.finish 3))) ∧
    (s.r.arp = some v →
      (-1 / 128 < v → v < 512 → ∃ (n : Int) (t : State), TruncatesTo v (1 / 128) n ∧ 0 ≤ n ∧ n ≤ 65535 ∧
        exec .towArp s = .next t ∧ t = { s.finish 0 with w := t.w, wlen := 2 } ∧
        t.w.toList = [BitVec.ofNat 8 (n.toNat / 256), BitVec.ofNat 8 n.toNat] ++ s.w.toList.drop 2) ∧
      (v ≤ -1 / 128 ∨ 512 ≤ v → exec .towArp s = .next (s.finish 3)))

/-- TOW.GPW: four components in wire order; one component outside its interval refuses the whole field
(42_field_codecs.md R156; the spec's decision D17; the component order: log entry 18). -/
def Obligations.TowPolarWindowStagesFourComponents : Prop :=
  ∀ (s : State) (v : PolarWindow), s.r.gpw = some v →
    ((FieldValue.gpw v).Accepted s.params → ∃ (a b c d : Int) (t : State),
      TruncatesTo v.rhoStart (1 / 256) a ∧ TruncatesTo v.rhoEnd (1 / 256) b ∧
      TruncatesTo v.thetaStart (45 / 8192) c ∧ TruncatesTo v.thetaEnd (45 / 8192) d ∧
      (0 ≤ a ∧ a ≤ 65535 ∧ 0 ≤ b ∧ b ≤ 65535 ∧ 0 ≤ c ∧ c ≤ 65535 ∧ 0 ≤ d ∧ d ≤ 65535) ∧
      exec .towGpw s = .next t ∧ t = { s.finish 0 with w := t.w, wlen := 8 } ∧
      t.w.toList = [BitVec.ofNat 8 (a.toNat / 256), BitVec.ofNat 8 a.toNat,
        BitVec.ofNat 8 (b.toNat / 256), BitVec.ofNat 8 b.toNat, BitVec.ofNat 8 (c.toNat / 256), BitVec.ofNat 8 c.toNat,
        BitVec.ofNat 8 (d.toNat / 256), BitVec.ofNat 8 d.toNat]) ∧
    (¬ (FieldValue.gpw v).Accepted s.params → exec .towGpw s = .next (s.finish 3))

/-- TOW.POS: height, latitude, longitude in that order, two's complement; one component outside its interval refuses
the whole field (42_field_codecs.md R158; the spec's decision D17). -/
def Obligations.TowPositionStagesTwosComplement : Prop :=
  ∀ (s : State) (v : Position), s.r.pos = some v →
    ((FieldValue.pos v).Accepted s.params → ∃ (h a o : Int) (t : State),
      TruncatesTo v.height 1 h ∧ TruncatesTo v.lat (45 / 2097152) a ∧ TruncatesTo v.lon (45 / 2097152) o ∧
      (-32768 ≤ h ∧ h ≤ 32767 ∧ -8388608 ≤ a ∧ a ≤ 8388607 ∧ -8388608 ≤ o ∧ o ≤ 8388607) ∧
      exec .towPos s = .next t ∧ t = { s.finish 0 with w := t.w, wlen := 8 } ∧
      t.w.toList = [BitVec.ofInt 8 (h / 256), BitVec.ofInt 8 h,
        BitVec.ofInt 8 (a / 65536), BitVec.ofInt 8 (a / 256), BitVec.ofInt 8 a,
        BitVec.ofInt 8 (o / 65536), BitVec.ofInt 8 (o / 256), BitVec.ofInt 8 o]) ∧
    (¬ (FieldValue.pos v).Accepted s.params → exec .towPos s = .next (s.finish 3))

/-- TOW.SCS and TOW.SPM: a primary octet with exactly the bits of the present subfields, then those subfields in the
order COM, PSR, SSR, MDS; the rest of W unchanged (42_field_codecs.md R152, R154; SUBMAP is the spec's decision
D15). -/
def Obligations.TowSubfieldItemsStagePrimaryAndSubfields : Prop :=
  ∀ (s : State) (v : Subfields) (i : Instr),
    (s.r.scs = some v ∧ i = .towScs) ∨ (s.r.spm = some v ∧ i = .towSpm) →
    ∃ (t : State) (p : Byte), exec i s = .next t ∧ t = { s.finish 0 with w := t.w, wlen := t.wlen } ∧
      t.w.toList = (p :: (v.com.toList ++ v.psr.toList ++ v.ssr.toList ++ v.mds.toList)) ++
        s.w.toList.drop t.wlen.val ∧
      t.wlen.val = 1 + v.com.toList.length + v.psr.toList.length + v.ssr.toList.length + v.mds.toList.length ∧
      ∀ n, 1 ≤ n → n ≤ 8 → (p.getLsbD (n - 1) = true ↔
        (n = s.params.subMap.com ∧ v.com.isSome) ∨ (n = s.params.subMap.psr ∧ v.psr.isSome) ∨
        (n = s.params.subMap.ssr ∧ v.ssr.isSome) ∨ (n = s.params.subMap.mds ∧ v.mds.isSome))

/-- FRW.TOD, FRW.SEC and FRW.ARP, the words 0x3103 to 0x3105, every outcome: the octets W[0 .. WLEN) big-endian,
times the LSB, exactly, into the one slot; any WLEN but the field's size is SizeInvalid (42_field_codecs.md R145,
R147, R149). -/
def Obligations.FrwScaledFieldsReadTheirValue : Prop :=
  (∀ sm, decode sm (.command 0x3103#16) = .ok .frwTod ∧ decode sm (.command 0x3104#16) = .ok .frwSec ∧
    decode sm (.command 0x3105#16) = .ok .frwArp) ∧
  ∀ s : State,
    (s.wlen = 3 → exec .frwTod s = .next { s.finish 0 with
      r := { s.r with tod := some ((s.w[0].toNat * 65536 + s.w[1].toNat * 256 + s.w[2].toNat : Nat) / 128) } }) ∧
    (s.wlen ≠ 3 → exec .frwTod s = .next (s.finish 1)) ∧
    (s.wlen = 1 → exec .frwSec s = .next { s.finish 0 with r := { s.r with sec := some (s.w[0].toNat * 45 / 32) } }) ∧
    (s.wlen ≠ 1 → exec .frwSec s = .next (s.finish 1)) ∧
    (s.wlen = 2 → exec .frwArp s = .next { s.finish 0 with
      r := { s.r with arp := some ((s.w[0].toNat * 256 + s.w[1].toNat : Nat) / 128) } }) ∧
    (s.wlen ≠ 2 → exec .frwArp s = .next (s.finish 1))

/-- FRW.GPW and FRW.POS, the words 0x3109 and 0x310B, every outcome: four unsigned components; height, latitude,
longitude in two's complement; any WLEN but 8 is SizeInvalid (42_field_codecs.md R157, R159; the order of the
components of GPW: log entry 18). -/
def Obligations.FrwLongFieldsReadTheirComponents : Prop :=
  (∀ sm, decode sm (.command 0x3109#16) = .ok .frwGpw ∧ decode sm (.command 0x310B#16) = .ok .frwPos) ∧
  ∀ s : State,
    (s.wlen = 8 → exec .frwGpw s = .next { s.finish 0 with r := s.r.put (.gpw
      { rhoStart := (s.w[0].toNat * 256 + s.w[1].toNat : Nat) / 256,
        rhoEnd := (s.w[2].toNat * 256 + s.w[3].toNat : Nat) / 256,
        thetaStart := (s.w[4].toNat * 256 + s.w[5].toNat : Nat) * 45 / 8192,
        thetaEnd := (s.w[6].toNat * 256 + s.w[7].toNat : Nat) * 45 / 8192 }) }) ∧
    (s.wlen ≠ 8 → exec .frwGpw s = .next (s.finish 1)) ∧
    (s.wlen = 8 → exec .frwPos s = .next { s.finish 0 with r := s.r.put (.pos
      { height := ((s.w[0] ++ s.w[1]).toInt : Rat),
        lat := ((s.w[2] ++ s.w[3] ++ s.w[4]).toInt : Rat) * 45 / 2097152,
        lon := ((s.w[5] ++ s.w[6] ++ s.w[7]).toInt : Rat) * 45 / 2097152 }) }) ∧
    (s.wlen ≠ 8 → exec .frwPos s = .next (s.finish 1))

/-- FRW.SCS and FRW.SPM, every outcome in the order of the tests (42_field_codecs.md R153, R155, R151; the spec's
decision D16): an empty slice, FX set, a spare bit set, a slice that is not exactly the item; and the value of an
item. -/
def Obligations.FrwSubfieldItemsEveryOutcome : Prop :=
  ∀ s : State,
    (s.staged = [] → exec .frwScs s = .next (s.finish 1) ∧ exec .frwSpm s = .next (s.finish 1)) ∧
    (∀ p more, s.staged = p :: more →
      (p.getLsbD 0 = true → exec .frwScs s = .next (s.finish 1) ∧ exec .frwSpm s = .next (s.finish 1)) ∧
      (p.getLsbD 0 = false →
        (∃ n, 2 ≤ n ∧ n ≤ 8 ∧ n ∉ [s.params.subMap.com, s.params.subMap.psr, s.params.subMap.ssr, s.params.subMap.mds] ∧
          p.getLsbD (n - 1) = true) →
        exec .frwScs s = .next (s.finish 4) ∧ exec .frwSpm s = .next (s.finish 4)) ∧
      (p.getLsbD 0 = false →
        (∀ n, 2 ≤ n → n ≤ 8 →
          n ∉ [s.params.subMap.com, s.params.subMap.psr, s.params.subMap.ssr, s.params.subMap.mds] →
          p.getLsbD (n - 1) = false) →
        more.length ≠ (p.getLsbD (s.params.subMap.com - 1)).toNat + (p.getLsbD (s.params.subMap.psr - 1)).toNat +
          (p.getLsbD (s.params.subMap.ssr - 1)).toNat + (p.getLsbD (s.params.subMap.mds - 1)).toNat →
        exec .frwScs s = .next (s.finish 1) ∧ exec .frwSpm s = .next (s.finish 1))) ∧
    (∀ v : Subfields, s.staged = subToWire s.params.subMap v →
      exec .frwScs s = .next { s.finish 0 with r := { s.r with scs := some v } } ∧
      exec .frwSpm s = .next { s.finish 0 with r := { s.r with spm := some v } })

/-- The round-trip laws of a scaled component (42_field_codecs.md R134, which the spec marks derived): (a) encode of
decode is the wire integer, (b) decode of encode lies between 0 and v within one LSB, (c) it is v exactly for
multiples of the LSB. -/
def Obligations.ScaleRoundTripLaws : Prop :=
  ∀ sc ∈ scaleTable,
    (∀ n : Int, sc.fits n = true → sc.wire (sc.value n) = n) ∧
    (∀ v : Rat, sc.fits (sc.wire v) = true →
      |sc.quantise v - v| < sc.lsb ∧
      (0 ≤ v → 0 ≤ v - sc.quantise v ∧ v - sc.quantise v < sc.lsb) ∧
      (v ≤ 0 → 0 ≤ sc.quantise v - v ∧ sc.quantise v - v < sc.lsb) ∧
      (sc.quantise v = v ↔ ∃ n : Int, v = n * sc.lsb))

/-- The fixed-point realisation computes the same results as the rules on exact rationals (42_field_codecs.md R137,
the spec's decision D7): for `v = P / 2^32` the wire integer is the same, decoding gives the same value, and
every decoded value is representable, that is the P of every wire integer in range is a signed integer of PHYS_W
= 64 bits. -/
def Obligations.FixedPointAgreesWithRationals : Prop :=
  ∀ sc ∈ scaleTable,
    (∀ P : Int, sc.fixedWire P = sc.wire ((P : Rat) / 4294967296)) ∧
    (∀ n : Int, sc.value n = (sc.fixedValue n : Rat) / 4294967296) ∧
    (∀ n : Int, sc.fits n = true →
      -(2 ^ (Config.physW - 1) : Int) ≤ sc.fixedValue n ∧ sc.fixedValue n < 2 ^ (Config.physW - 1)) ∧
    sc.k < Config.physFb

/-! ## Record engine -/

/-- REC.ENC: when every present slot holds a value its codec accepts, BUF[0 .. n) is the record's octets, every other
octet of BUF is unchanged, BLEN and RLEN are n; otherwise ItemUnsupported for a refused MessageType and
RangeInvalid for the rest, and nothing is written (43_record_engine.md R171, R170; the refusals are the spec's
decisions D13, D17). -/
def Obligations.RecEncWritesTheRecord : Prop :=
  ∀ s : State,
    (s.r.Accepted s.params → ∃ bs t, recEnc s.params s.r = .ok bs ∧ exec .recEnc s = .next t ∧
      t = { s.finish 0 with buf := t.buf, blen := BitVec.ofNat 16 bs.length, rlen := BitVec.ofNat 16 bs.length } ∧
      bs.length ≤ 37 ∧ ∀ a, Memory.octet t.buf a = bs.getD a (Memory.octet s.buf a)) ∧
    ((∃ m, s.r.mty = some m ∧ ¬ (FieldValue.mty m).Accepted s.params) → exec .recEnc s = .next (s.finish 4)) ∧
    (¬ s.r.Accepted s.params → (∀ m, s.r.mty = some m → (FieldValue.mty m).Accepted s.params) →
      exec .recEnc s = .next (s.finish 3))

/-- A record occupies at least 1 and at most 37 octets, and at most 20 when only FRN 1 to 7 are present
(43_record_engine.md R179, which the spec marks derived). -/
def Obligations.RecordSizeBounds : Prop :=
  ∀ (p : Config.Params) (rec : Record) (bs : List Byte), recEnc p rec = .ok bs →
    1 ≤ bs.length ∧ bs.length ≤ 37 ∧ (rec.gpw = none → rec.pos = none → bs.length ≤ 20)

/-- REC.DEC of a record's octets followed by anything gives the record with every scaled component at `dec(enc(v))`,
and RLEN its length; trailing octets are not read (43_record_engine.md R180, which the spec marks derived, and
R173). -/
def Obligations.RecDecInvertsRecEnc : Prop :=
  ∀ (s : State) (rec : Record) (bs more : List Byte), recEnc s.params rec = .ok bs → s.validBytes = bs ++ more →
    exec .recDec s = .next { s.finish 0 with r := rec.quantised, rlen := BitVec.ofNat 16 bs.length }

/-- Decode then encode reproduces the octets: after a successful REC.DEC of a record with a canonical chain, REC.ENC
succeeds, gives the same length and leaves every octet of BUF as it was (43_record_engine.md R180, marked
derived). -/
def Obligations.RecEncAfterRecDecReproducesTheOctets : Prop :=
  ∀ (s t : State) (o : List Byte), fspecParse s.validBytes = .ok o → canonicalChain o = true →
    exec .recDec s = .next t → t.status = 0 →
    ∃ u, exec .recEnc t = .next u ∧ u.status = 0 ∧ u.rlen = t.rlen ∧ u.blen = t.rlen ∧ u.r = t.r ∧
      ∀ a, Memory.octet u.buf a = Memory.octet s.buf a

/-- Presence consistency (43_record_engine.md R181, marked derived): after REC.DEC a slot is present iff the chain
declares it; after rec_enc the chain declares exactly the presence set. -/
def Obligations.PresenceMatchesTheChain : Prop :=
  (∀ (s t : State), exec .recDec s = .next t → t.status = 0 →
    ∃ o, fspecParse s.validBytes = .ok o ∧ ∀ f, 1 ≤ f → f ≤ 14 → present t.r f = declared o f) ∧
  (∀ (p : Config.Params) (rec : Record) (bs : List Byte), recEnc p rec = .ok bs →
    ∃ o, fspecParse bs = .ok o ∧ chainFrns o = presentFrns rec)

/-- In REC.DEC the first declared FRN that fails, in ascending order, decides: where every declared field below f
reads, a chain bit of f without codec is ItemUnsupported, a field cut off is SizeInvalid, an item of FRN 6 or 7
raises what its walk raises, and a MessageType outside 1..7 is ItemUnsupported under MT_STRICT; and a record
whose chain parses either decodes or has such an f (43_record_engine.md R172, R173; 30_encoding.md R79; the
spec's decisions D9, D13, D16). -/
def Obligations.UnsupportedFrnEndsRecDec : Prop :=
  ∀ (s : State) (o : List Byte), fspecParse s.validBytes = .ok o →
    (∀ (f : Nat) (more : List Byte) (k : ErrorKind), 1 ≤ f → f ≤ 14 → declared o f = true →
      ReadsBelow s.params o s.validBytes f more → FieldFails s.params f more k →
      exec .recDec s = .next (s.finish k.code)) ∧
    (∀ (f : Nat) (more : List Byte), f ∈ [8, 10, 12, 13, 14] → declared o f = true →
      ReadsBelow s.params o s.validBytes f more → exec .recDec s = .next (s.finish 4)) ∧
    ((∃ t, exec .recDec s = .next t ∧ t.status = 0) ∨
      ∃ f more k, 1 ≤ f ∧ f ≤ 14 ∧ declared o f = true ∧ ReadsBelow s.params o s.validBytes f more ∧
        FieldFails s.params f more k)

/-- OFS.Q: in a record that decodes, OFS is the chain length plus the sizes of the present fields below f, and T
tells whether f is declared (43_record_engine.md R175, marked derived, and R176, the spec's decision D33). -/
def Obligations.OffsetQueryIsTheSumOfSizes : Prop :=
  ∀ (s : State) (f : Byte) (o : List Byte) (rec : Record) (n : Nat), 1 ≤ f.toNat → f.toNat ≤ 14 →
    fspecParse s.validBytes = .ok o → recDec s.params s.validBytes = .ok (rec, n) →
    exec (.ofsQ f) s = .next { s.finish 0 with
      ofs := BitVec.ofNat 16 (o.length + rec.sizeBelow f.toNat), t := declared o f.toNat }

/-- OFS.Q examines the chain and the sizes of the declared fields below f, and nothing else: for the lowest declared
FRN it answers the chain length even where REC.DEC refuses the record; where every declared field below f has its
octets, whatever a MessageType among them holds under MT_STRICT, it answers the offset of what follows them; the
first declared FRN below f that has no codec or whose size fails decides the error; a chain that does not parse
is SizeInvalid; f outside 1..14 is CommandInvalid (43_record_engine.md R176, the spec's decision D33). Without
MT_STRICT it goes as far as the rows of the declared FRNs below f, run one after another: that clause rests on
the model's rows run by themselves (log entries 7 and 8), of which R176 does not speak. -/
def Obligations.OffsetQueryExaminesOnlyFieldsBelow : Prop :=
  ∀ (s : State) (f : Byte),
    (∀ o, 1 ≤ f.toNat → f.toNat ≤ 14 → fspecParse s.validBytes = .ok o →
      (∀ g, 1 ≤ g → g < f.toNat → declared o g = false) →
      exec (.ofsQ f) s = .next { s.finish 0 with ofs := BitVec.ofNat 16 o.length, t := declared o f.toNat }) ∧
    (∀ o, 1 ≤ f.toNat → f.toNat ≤ 14 → fspecParse s.validBytes = .ok o → s.params.mtStrict = false →
      let t := runRows (((chainFrns o).filter (fun g => g < f.toNat)).map frnInstr)
        { s with status := 0, r := Record.empty, cur := BitVec.ofNat 16 o.length }
      (t.status = 0 → exec (.ofsQ f) s = .next { s.finish 0 with ofs := t.cur, t := declared o f.toNat }) ∧
      (t.status ≠ 0 → exec (.ofsQ f) s = .next (s.finish t.status))) ∧
    (∀ o more, 1 ≤ f.toNat → f.toNat ≤ 14 → fspecParse s.validBytes = .ok o →
      ReadsBelow (lenient s.params) o s.validBytes f.toNat more →
      exec (.ofsQ f) s = .next { s.finish 0 with
        ofs := BitVec.ofNat 16 (s.validBytes.length - more.length), t := declared o f.toNat }) ∧
    (∀ o g more k, 1 ≤ g → g < f.toNat → f.toNat ≤ 14 → fspecParse s.validBytes = .ok o → declared o g = true →
      ReadsBelow (lenient s.params) o s.validBytes g more → FieldFails (lenient s.params) g more k →
      exec (.ofsQ f) s = .next (s.finish k.code)) ∧
    (1 ≤ f.toNat → f.toNat ≤ 14 → fspecParse s.validBytes = .error .sizeInvalid →
      exec (.ofsQ f) s = .next (s.finish 1)) ∧
    (f.toNat = 0 ∨ 14 < f.toNat → exec (.ofsQ f) s = .next (s.finish 5))

/-! ## Message engine -/

/-- MSG.ENC: with category 34 and records of accepted values, BUF is the header and the records' octets, HLEN = BLEN
= the number of octets, every other octet of BUF is unchanged; above 65535 octets SizeInvalid; the first record
that does not encode decides the error, ItemUnsupported for a MessageType that MT_STRICT refuses and RangeInvalid
otherwise; another category is CategoryInvalid before anything else (44_message_engine.md R190, R191;
60_exceptions.md R208 d; the spec's decisions D13, D17, D20, D21). -/
def Obligations.MsgEncWritesTheMessage : Prop :=
  ∀ s : State,
    (s.hcat ≠ 34 → exec .msgEnc s = .next (s.finish 2)) ∧
    (s.hcat = 34 → (∀ rec ∈ s.rs, rec.Accepted s.params) → ∃ body, joinWire (s.rs.map (recEnc s.params)) = .ok body ∧
      (3 + body.length ≤ 65535 → ∃ t, exec .msgEnc s = .next t ∧
        t = { s.finish 0 with buf := t.buf, blen := BitVec.ofNat 16 (3 + body.length),
                              hlen := BitVec.ofNat 16 (3 + body.length) } ∧
        ∀ a, Memory.octet t.buf a = (34#8 :: BitVec.ofNat 8 ((3 + body.length) / 256) ::
          BitVec.ofNat 8 (3 + body.length) :: body).getD a (Memory.octet s.buf a)) ∧
      (65535 < 3 + body.length → exec .msgEnc s = .next (s.finish 1))) ∧
    (∀ done rec rest, s.hcat = 34 → s.rs = done ++ rec :: rest → (∀ r ∈ done, r.Accepted s.params) →
      ((∃ m, rec.mty = some m ∧ ¬ (FieldValue.mty m).Accepted s.params) → exec .msgEnc s = .next (s.finish 4)) ∧
      (¬ rec.Accepted s.params → (∀ m, rec.mty = some m → (FieldValue.mty m).Accepted s.params) →
        exec .msgEnc s = .next (s.finish 3)))

/-- Header.length == byte_length(encoded_message): after a successful MSG.ENC the three header octets in BUF are the
category and the length, and HLEN = BLEN (44_message_engine.md R191). -/
def Obligations.MessageLengthInvariant : Prop :=
  ∀ s t : State, exec .msgEnc s = .next t → t.status = 0 →
    t.hlen = t.blen ∧ t.hcat = 34 ∧ Memory.octet t.buf 0 = 34 ∧
    (Memory.octet t.buf 1).toNat * 256 + (Memory.octet t.buf 2).toNat = t.blen.toNat ∧
    3 ≤ t.blen.toNat ∧ 3 + s.rs.length ≤ t.blen.toNat

/-- MESSAGE ROUND TRIP: MSG.DEC on the octets of an encoded message gives category 34, its length and the records
with every scaled component at `dec(enc(v))` (44_message_engine.md R195, which the spec marks derived, and R193). -/
def Obligations.MsgDecInvertsMsgEnc : Prop :=
  ∀ (s : State) (recs : List Record) (bs : List Byte), msgEnc s.params 34 recs = .ok bs → s.validBytes = bs →
    exec .msgDec s = .next { s.finish 0 with
      hcat := 34, hlen := BitVec.ofNat 16 bs.length, rs := recs.map Record.quantised }

/-- The two commands one after the other, in both orders. MSG.DEC after a successful MSG.ENC leaves HCAT, HLEN and
BUF, keeps the number of records, and replaces each record by its quantised form. MSG.ENC after a successful
MSG.DEC of a message whose chains are all canonical leaves every octet of BUF, BLEN, HCAT, HLEN and RS
(44_message_engine.md R195, marked derived). -/
def Obligations.MsgDecAfterMsgEncKeepsTheMessage : Prop :=
  (∀ s t : State, exec .msgEnc s = .next t → t.status = 0 →
    ∃ u, exec .msgDec t = .next u ∧ u.status = 0 ∧ u.hcat = t.hcat ∧ u.hlen = t.hlen ∧ u.buf = t.buf ∧
      u.rs = s.rs.map Record.quantised) ∧
  (∀ s t : State, exec .msgDec s = .next t → t.status = 0 → CanonicalRecords s.params (s.validBytes.drop 3) →
    ∃ u, exec .msgEnc t = .next u ∧ u.status = 0 ∧ u.validBytes = s.validBytes ∧ u.blen = s.blen ∧
      u.hcat = t.hcat ∧ u.hlen = t.hlen ∧ u.rs = t.rs ∧ ∀ a, Memory.octet u.buf a = Memory.octet s.buf a)

/-- MSG.DEC, every outcome in the order of its tests: fewer than 3 octets, then the declared length against BLEN,
then the category; then the records one after another to the last octet, into RS, or the error of the first that
fails (44_message_engine.md R192, R193; 60_exceptions.md R208 b; the spec's decision D20). -/
def Obligations.MsgDecEveryOutcome : Prop :=
  ∀ s : State,
    let declaredLen := (Memory.octet s.buf 1).toNat * 256 + (Memory.octet s.buf 2).toNat
    (s.blen.toNat < 3 → exec .msgDec s = .next (s.finish 1)) ∧
    (3 ≤ s.blen.toNat → declaredLen ≠ s.blen.toNat → exec .msgDec s = .next (s.finish 1)) ∧
    (3 ≤ s.blen.toNat → declaredLen = s.blen.toNat → Memory.octet s.buf 0 ≠ 34 →
      exec .msgDec s = .next (s.finish 2)) ∧
    (3 ≤ s.blen.toNat → declaredLen = s.blen.toNat → Memory.octet s.buf 0 = 34 →
      (∀ recs, RecordsRead s.params (s.validBytes.drop 3) recs →
        exec .msgDec s = .next { s.finish 0 with hcat := 34, hlen := s.blen, rs := recs }) ∧
      (∀ k, RecordsFail s.params (s.validBytes.drop 3) k → exec .msgDec s = .next (s.finish k.code)) ∧
      ((∃ recs, RecordsRead s.params (s.validBytes.drop 3) recs) ∨
        ∃ k, RecordsFail s.params (s.validBytes.drop 3) k))

/-- The decoder's state machine (44_message_engine.md R194): started on any octets it ends in Done or Failed, and in
Done the cursor stands exactly at the declared length, which is the number of octets. -/
def Obligations.MessageWalkEndsInATerminalPhase : Prop :=
  ∀ (p : Config.Params) (buf : List Byte),
    let m := msgRun p buf (buf.length + 2) msgStart
    ((∃ k, m.ph = .failed k) ∨ (m.ph = .done ∧ m.cur = m.len.toNat ∧ m.len.toNat = buf.length ∧ m.cat = 34 ∧
      m.recs.length + 3 ≤ buf.length)) ∧
    msgStep p buf m = m

/-! ## The wire-level rows -/

/-- The rows of the fixed-size fields at the cursor: the field's octets into its slot, CUR past them, nothing else;
with too few octets SizeInvalid (43_record_engine.md R172, 30_encoding.md R76). That they run by themselves is
the model's choice (log entries 7 and 8). The order of the components of FRN9.GPW is the family's (log entry 18). -/
def Obligations.FixedFieldRowsReadAtTheCursor : Prop :=
  ∀ s : State,
    (∀ a b more, s.atCursor = a :: b :: more → exec .frn1Dsi s = .next { s with
      r := { s.r with dsi := some { o0 := a, o1 := b } }, cur := s.cur + 2 }) ∧
    (∀ a more, s.atCursor = a :: more → s.params.mtStrict = false ∨ (1 ≤ a.toNat ∧ a.toNat ≤ 7) →
      exec .frn2Mty s = .next { s with r := { s.r with mty := some a }, cur := s.cur + 1 }) ∧
    (∀ a b c more, s.atCursor = a :: b :: c :: more → exec .frn3Tod s = .next { s with
      r := { s.r with tod := some ((a.toNat * 65536 + b.toNat * 256 + c.toNat : Nat) / 128) }, cur := s.cur + 3 }) ∧
    (∀ a more, s.atCursor = a :: more → exec .frn4Sec s = .next { s with
      r := { s.r with sec := some (a.toNat * 45 / 32) }, cur := s.cur + 1 }) ∧
    (∀ a b more, s.atCursor = a :: b :: more → exec .frn5Arp s = .next { s with
      r := { s.r with arp := some ((a.toNat * 256 + b.toNat : Nat) / 128) }, cur := s.cur + 2 }) ∧
    (∀ a b c d e f g h more, s.atCursor = a :: b :: c :: d :: e :: f :: g :: h :: more →
      exec .frn9Gpw s = .next { s with cur := s.cur + 8, r := s.r.put (.gpw
        { rhoStart := (a.toNat * 256 + b.toNat : Nat) / 256, rhoEnd := (c.toNat * 256 + d.toNat : Nat) / 256,
          thetaStart := (e.toNat * 256 + f.toNat : Nat) * 45 / 8192,
          thetaEnd := (g.toNat * 256 + h.toNat : Nat) * 45 / 8192 }) } ∧
      exec .frn11Pos s = .next { s with cur := s.cur + 8, r := s.r.put (.pos
        { height := ((a ++ b).toInt : Rat), lat := ((c ++ d ++ e).toInt : Rat) * 45 / 2097152,
          lon := ((f ++ g ++ h).toInt : Rat) * 45 / 2097152 }) }) ∧
    (∀ a more, s.atCursor = a :: more → s.params.mtStrict = true → a.toNat = 0 ∨ 7 < a.toNat →
      exec .frn2Mty s = .next (s.finish 4)) ∧
    (s.atCursor.length < 2 → exec .frn1Dsi s = .next (s.finish 1) ∧ exec .frn5Arp s = .next (s.finish 1)) ∧
    (s.atCursor.length < 1 → exec .frn2Mty s = .next (s.finish 1) ∧ exec .frn4Sec s = .next (s.finish 1)) ∧
    (s.atCursor.length < 3 → exec .frn3Tod s = .next (s.finish 1)) ∧
    (s.atCursor.length < 8 → exec .frn9Gpw s = .next (s.finish 1) ∧ exec .frn11Pos s = .next (s.finish 1))

/-- The rows of the subfield-bearing items at the cursor: the item into its slot, CUR past it; an item that is
malformed or cut off raises what its walk raises (43_record_engine.md R172; 42_field_codecs.md R151, R153; the
spec's decision D16). Run by themselves: log entries 7 and 8. -/
def Obligations.SubfieldItemRowsReadAtTheCursor : Prop :=
  (∀ (s : State) (v : Subfields) (more : List Byte), s.atCursor = subToWire s.params.subMap v ++ more →
    exec .frn6Scs s = .next { s with
      r := { s.r with scs := some v }, cur := s.cur + BitVec.ofNat 16 (FieldValue.scs v).wireSize } ∧
    exec .frn7Spm s = .next { s with
      r := { s.r with spm := some v }, cur := s.cur + BitVec.ofNat 16 (FieldValue.spm v).wireSize }) ∧
  (∀ (s : State) (k : ErrorKind), subParse s.params.subMap s.atCursor = .error k →
    exec .frn6Scs s = .next (s.finish k.code) ∧ exec .frn7Spm s = .next (s.finish k.code)) ∧
  (∀ (s : State) (n : Nat), subParse s.params.subMap s.atCursor = .ok n →
    ∃ v more, s.atCursor = subToWire s.params.subMap v ++ more ∧ n = (subToWire s.params.subMap v).length)

/-- The rows without codec raise ItemUnsupported, on every state: the row's decode action (30_encoding.md R79) is the
spec's decision D9, and that the row runs by itself is the model's choice (log entry 7). -/
def Obligations.RowsWithoutCodecRaiseItemUnsupported : Prop :=
  ∀ (s : State) (i : Instr), i ∈ [Instr.frn8, .frn10, .frn12, .frn13, .frn14] → exec i s = .next (s.finish 4)

/-- The FX rows, the spare and FX tests of a primary octet, the subfield bits and the header, each by itself
(30_encoding.md R71, R80, R82, R78, R70; 44_message_engine.md R194). What they write is the model's choice (log
entry 8). That they run by themselves: log entry 7; the legal patterns: log entry 22. -/
def Obligations.BitAndHeaderRowsByThemselves : Prop :=
  ∀ s : State,
    (∀ o more, s.atCursor = o :: more → exec .fx0 s = .next { s with fsp1 := o, flen := 2, cur := s.cur + 1 }) ∧
    (s.atCursor = [] → exec .fx0 s = .next (s.finish 1)) ∧
    (∀ o : Byte, exec (.fx1 o) s = .next (if o.getLsbD 0 then s.finish 1 else s)) ∧
    (∀ p : Byte, exec (.subFx p) s = .next (if p.getLsbD 0 then s.finish 1 else s)) ∧
    (∀ p : Byte, exec (.subSpare p) s = .next (if p &&& spareMask s.params.subMap = 0 then s else s.finish 4)) ∧
    (∀ b more v, s.atCursor = b :: more →
      s.r.scs = some v ∨ (s.r.scs = none ∧ v = { com := none, psr := none, ssr := none, mds := none }) →
      exec (.subCom .scs) s = .next { s with r := { s.r with scs := some { v with com := some b } }, cur := s.cur + 1 } ∧
      exec (.subPsr .scs) s = .next { s with r := { s.r with scs := some { v with psr := some b } }, cur := s.cur + 1 } ∧
      exec (.subSsr .scs) s = .next { s with r := { s.r with scs := some { v with ssr := some b } }, cur := s.cur + 1 } ∧
      exec (.subMds .scs) s = .next { s with r := { s.r with scs := some { v with mds := some b } }, cur := s.cur + 1 }) ∧
    (∀ b more v, s.atCursor = b :: more →
      s.r.spm = some v ∨ (s.r.spm = none ∧ v = { com := none, psr := none, ssr := none, mds := none }) →
      exec (.subCom .spm) s = .next { s with r := { s.r with spm := some { v with com := some b } }, cur := s.cur + 1 } ∧
      exec (.subPsr .spm) s = .next { s with r := { s.r with spm := some { v with psr := some b } }, cur := s.cur + 1 } ∧
      exec (.subSsr .spm) s = .next { s with r := { s.r with spm := some { v with ssr := some b } }, cur := s.cur + 1 } ∧
      exec (.subMds .spm) s = .next { s with r := { s.r with spm := some { v with mds := some b } }, cur := s.cur + 1 }) ∧
    (∀ item, s.atCursor = [] → exec (.subCom item) s = .next (s.finish 1) ∧
      exec (.subPsr item) s = .next (s.finish 1) ∧ exec (.subSsr item) s = .next (s.finish 1) ∧
      exec (.subMds item) s = .next (s.finish 1)) ∧
    (∀ (c : Byte) (l : Half), 3 ≤ s.blen.toNat → l = s.blen → c = 34 →
      exec (.header c l) s = .next { s with hcat := 34, hlen := s.blen, ph := some .readRecord, cur := 3 }) ∧
    (∀ (c : Byte) (l : Half), s.blen.toNat < 3 ∨ l ≠ s.blen → exec (.header c l) s = .next (s.finish 1)) ∧
    (∀ (c : Byte) (l : Half), 3 ≤ s.blen.toNat → l = s.blen → c ≠ 34 → exec (.header c l) s = .next (s.finish 2))

/-- FRAME OF THE WIRE-LEVEL ROWS: a row that raises changes what a failing command changes; any other leaves BUF,
BLEN, W, RS, STATUS and every register but the cursor, its slot, FSP[1] and FLEN (FX0), HCAT, HLEN and PH
(HEADER). That the rows run by themselves and what they write is the model's choice (log entries 7 and 8). -/
def Obligations.WireRowsWriteOnlyTheirRegisters : Prop :=
  ∀ (i : Instr) (s t : State), i.isCommand = false → exec i s = .next t →
    (∃ k : ErrorKind, t = s.finish k.code) ∨
    (t = { s with r := t.r, cur := t.cur, fsp1 := t.fsp1, flen := t.flen, hcat := t.hcat, hlen := t.hlen,
                  ph := t.ph } ∧
      (i ≠ .fx0 → t.fsp1 = s.fsp1 ∧ t.flen = s.flen) ∧
      ((∀ c l, i ≠ .header c l) → t.hcat = s.hcat ∧ t.hlen = s.hlen ∧ t.ph = s.ph) ∧
      (i ≠ .frn1Dsi → t.r.dsi = s.r.dsi) ∧ (i ≠ .frn2Mty → t.r.mty = s.r.mty) ∧
      (i ≠ .frn3Tod → t.r.tod = s.r.tod) ∧ (i ≠ .frn4Sec → t.r.sec = s.r.sec) ∧
      (i ≠ .frn5Arp → t.r.arp = s.r.arp) ∧
      (i ∉ [Instr.frn6Scs, .subCom .scs, .subPsr .scs, .subSsr .scs, .subMds .scs] → t.r.scs = s.r.scs) ∧
      (i ∉ [Instr.frn7Spm, .subCom .spm, .subPsr .spm, .subSsr .spm, .subMds .spm] → t.r.spm = s.r.spm) ∧
      (i ≠ .frn9Gpw → t.r.gpw = s.r.gpw) ∧ (i ≠ .frn11Pos → t.r.pos = s.r.pos))

/-- REC.DEC IS ITS ROWS: the command gives exactly what the rows of the parsed chain give one after another in
ascending FRN order, from an empty record with the cursor behind the chain, or ends with the error the first
failing row raises; a chain that does not parse is SizeInvalid (43_record_engine.md R172, R175; log entries 7 and
8). -/
def Obligations.RecDecRunsTheRowsOfItsChain : Prop :=
  (∀ (s : State) (o : List Byte), fspecParse s.validBytes = .ok o →
    let t := runRows (chainProgram o) { s with status := 0, r := Record.empty, cur := BitVec.ofNat 16 o.length }
    (t.status = 0 → exec .recDec s = .next { s.finish 0 with r := t.r, rlen := t.cur }) ∧
    (t.status ≠ 0 → exec .recDec s = .next (s.finish t.status))) ∧
  (∀ (s : State) (k : ErrorKind), fspecParse s.validBytes = .error k → exec .recDec s = .next (s.finish 1))

/-- FRN6.SCS IS ITS ROWS: with the primary octet p at the cursor, the item's row does what the FX test, the spare
test and the subfield rows do one after another with the cursor behind p (42_field_codecs.md R151, R153; log
entries 7 and 8). -/
def Obligations.ScsRowRunsTheRowsOfItsPrimary : Prop :=
  ∀ (s : State) (p : Byte) (more : List Byte), s.atCursor = p :: more → s.status = 0 →
    let t := runRows (primaryProgram s.params.subMap .scs p) { s with
      cur := s.cur + 1
      r := { s.r with scs := some { com := none, psr := none, ssr := none, mds := none } } }
    (t.status = 0 → exec .frn6Scs s = .next t) ∧
    (t.status ≠ 0 → exec .frn6Scs s = .next (s.finish t.status))
end

