-- ==== Sys2Proof/Laws/Bytes.lean ====
section
/-! SUPPORT. Big-endian octets, two's complement, truncation and the scale laws (00_scope.md R11; 20_memory.md R53;
42_field_codecs.md R131, R132). -/

namespace Sys2Proof.Machine

/-! ## Big-endian octets -/

@[simp] theorem beBytes_length (w n : Nat) : (beBytes w n).length = w := by simp [beBytes]

@[simp] theorem beNat_nil : beNat [] = 0 := rfl

theorem beNat_append (bs cs : List Byte) : beNat (bs ++ cs) = beNat bs * 256 ^ cs.length + beNat cs := by
  induction cs using List.reverseRecOn with
  | nil => simp
  | append_singleton cs c ih =>
    have step : ∀ ds : List Byte, beNat (ds ++ [c]) = beNat ds * 256 + c.toNat := fun ds => by simp [beNat]
    rw [← List.append_assoc, step, ih, step, List.length_append, List.length_singleton, pow_succ]
    ring

theorem beNat_cons (b : Byte) (bs : List Byte) : beNat (b :: bs) = b.toNat * 256 ^ bs.length + beNat bs := by
  have := beNat_append [b] bs
  simpa [beNat] using this

theorem beNat_lt (bs : List Byte) : beNat bs < 256 ^ bs.length := by
  induction bs with
  | nil => simp
  | cons b bs ih =>
    rw [beNat_cons, List.length_cons, pow_succ]
    have := b.isLt
    nlinarith

theorem pow_256 (w : Nat) : 256 ^ w = 2 ^ (8 * w) := by rw [Nat.pow_mul]

theorem beBytes_succ (w n : Nat) : beBytes (w + 1) n = BitVec.ofNat 8 (n / 256 ^ w) :: beBytes w n := by
  have hp := pow_256 w
  simp only [beBytes, List.range_succ_eq_map, List.map_cons, List.map_map]
  congr 1
  · simp [Nat.shiftRight_eq_div_pow, hp]
  · refine List.map_congr_left fun i _ => ?_
    simp only [Function.comp, Nat.succ_eq_add_one]
    congr 3
    omega

@[simp] theorem beBytes_zero (n : Nat) : beBytes 0 n = [] := rfl

theorem beNat_beBytes (w n : Nat) : beNat (beBytes w n) = n % 256 ^ w := by
  induction w with
  | zero => simp [Nat.mod_one]
  | succ w ih =>
    rw [beBytes_succ, beNat_cons, ih, beBytes_length, pow_succ]
    simp only [BitVec.toNat_ofNat]
    have h := Nat.mod_mul (x := n) (a := 256 ^ w) (b := 256)
    rw [h]
    norm_num
    ring

theorem beNat_injective {bs cs : List Byte} (hl : bs.length = cs.length) (h : beNat bs = beNat cs) : bs = cs := by
  induction bs generalizing cs with
  | nil => cases cs <;> simp_all
  | cons b bs ih =>
    cases cs with
    | nil => simp at hl
    | cons c cs =>
      simp only [List.length_cons, Nat.add_right_cancel_iff] at hl
      rw [beNat_cons, beNat_cons, hl] at h
      have h1 := beNat_lt bs
      have h2 := beNat_lt cs
      rw [hl] at h1
      have hp : 0 < 256 ^ cs.length := by positivity
      have hb : b.toNat = c.toNat := by
        rcases Nat.lt_trichotomy b.toNat c.toNat with hlt | heq | hgt
        · nlinarith
        · exact heq
        · nlinarith
      rw [hb] at h
      rw [BitVec.eq_of_toNat_eq hb, ih hl (by omega)]

theorem beBytes_beNat (bs : List Byte) : beBytes bs.length (beNat bs) = bs :=
  beNat_injective (by simp) (by rw [beNat_beBytes, Nat.mod_eq_of_lt (beNat_lt bs)])

theorem beNat_singleton (a : Byte) : beNat [a] = a.toNat := by simp [beNat]

theorem beNat_pair (a b : Byte) : beNat [a, b] = a.toNat * 256 + b.toNat := by simp [beNat]

theorem beNat_triple (a b c : Byte) : beNat [a, b, c] = a.toNat * 65536 + b.toNat * 256 + c.toNat := by
  simp [beNat]; ring

/-! ## Truncation toward zero -/

theorem trunc_neg (q : Rat) : trunc (-q) = -trunc q := by simp [trunc, Int.neg_tdiv]

theorem trunc_of_nonneg {q : Rat} (h : 0 ≤ q) : trunc q = ⌊q⌋ := by
  rw [trunc, Int.tdiv_eq_ediv_of_nonneg (Rat.num_nonneg.2 h), Rat.floor_def']

theorem trunc_bounds_nonneg {q : Rat} (h : 0 ≤ q) : (trunc q : Rat) ≤ q ∧ q < trunc q + 1 := by
  rw [trunc_of_nonneg h]; exact ⟨Int.floor_le q, Int.lt_floor_add_one q⟩

theorem trunc_bounds_nonpos {q : Rat} (h : q ≤ 0) : (trunc q : Rat) - 1 < q ∧ q ≤ trunc q := by
  have := trunc_bounds_nonneg (q := -q) (by linarith)
  rw [trunc_neg] at this
  push_cast at this
  exact ⟨by linarith [this.2], by linarith [this.1]⟩

theorem trunc_intCast (n : Int) : trunc (n : Rat) = n := by simp [trunc]

/-- Truncation is what `TruncatesTo` says (42_field_codecs.md R135). -/
theorem truncatesTo_trunc {v lsb : Rat} (hl : 0 < lsb) : TruncatesTo v lsb (trunc (v / lsb)) := by
  refine ⟨fun hv => ?_, fun hv => ?_⟩
  · have := trunc_bounds_nonneg (q := v / lsb) (by positivity)
    exact ⟨(le_div_iff₀ hl).1 this.1, (div_lt_iff₀ hl).1 this.2⟩
  · have := trunc_bounds_nonpos (q := v / lsb) (div_nonpos_of_nonpos_of_nonneg hv.le hl.le)
    exact ⟨(lt_div_iff₀ hl).1 this.1, (div_le_iff₀ hl).1 this.2⟩

theorem lt_trunc_iff (q : Rat) (n : Int) (hn : 0 ≤ n) : n < trunc q ↔ (n : Rat) + 1 ≤ q := by
  rcases le_total 0 q with h | h
  · rw [trunc_of_nonneg h, ← Int.add_one_le_iff, Int.le_floor]; push_cast; rfl
  · have hb := trunc_bounds_nonpos h
    have hn' : (0 : Rat) ≤ n := by exact_mod_cast hn
    constructor
    · intro hlt
      have ht : trunc q ≤ 0 := by
        rw [show q = -(-q) by ring, trunc_neg, trunc_of_nonneg (by linarith)]
        have := Int.floor_nonneg.2 (show (0 : Rat) ≤ -q by linarith)
        omega
      omega
    · intro; linarith

theorem trunc_lt_iff (q : Rat) (n : Int) (hn : n ≤ 0) : trunc q < n ↔ q ≤ (n : Rat) - 1 := by
  have h := lt_trunc_iff (-q) (-n) (by omega)
  rw [trunc_neg] at h
  push_cast at h
  constructor
  · intro h'; have := h.1 (by omega); linarith
  · intro h'; have := h.2 (by linarith); omega

/-! ## Two's complement -/

theorem sext_twosComp {b : Nat} (hb : 1 ≤ b) {n : Int} (h1 : -(2 ^ (b - 1)) ≤ n) (h2 : n ≤ 2 ^ (b - 1) - 1) :
    sext b (twosComp b n) = n := by
  obtain ⟨k, rfl⟩ : ∃ k, b = k + 1 := ⟨b - 1, by omega⟩
  simp only [Nat.add_sub_cancel] at h1 h2
  simp only [sext, twosComp, Nat.add_sub_cancel]
  have e : (2 : Int) ^ (k + 1) = 2 * 2 ^ k := by ring
  have c : ((2 ^ k : Nat) : Int) = 2 ^ k := by push_cast; rfl
  split
  · rw [if_pos (by zify; rw [Int.toNat_of_nonneg (by omega)]; omega)]; omega
  · rw [if_neg (by zify; rw [Int.toNat_of_nonneg (by omega)]; omega)]; omega

theorem twosComp_lt {b : Nat} (hb : 1 ≤ b) {n : Int} (h1 : -(2 ^ (b - 1)) ≤ n) (h2 : n ≤ 2 ^ (b - 1) - 1) :
    twosComp b n < 2 ^ b := by
  obtain ⟨k, rfl⟩ : ∃ k, b = k + 1 := ⟨b - 1, by omega⟩
  simp only [Nat.add_sub_cancel] at h1 h2
  have e : (2 : Int) ^ (k + 1) = 2 * 2 ^ k := by ring
  have c : (0 : Int) < 2 ^ k := by positivity
  simp only [twosComp]
  split <;> (zify; rw [Int.toNat_of_nonneg (by omega)]; omega)

theorem twosComp_sext {b v : Nat} (hb : 1 ≤ b) (h : v < 2 ^ b) : twosComp b (sext b v) = v := by
  obtain ⟨k, rfl⟩ : ∃ k, b = k + 1 := ⟨b - 1, by omega⟩
  have e : (2 : Int) ^ (k + 1) = 2 * 2 ^ k := by ring
  have e' : 2 ^ (k + 1) = 2 * 2 ^ k := by ring
  have c : ((2 ^ k : Nat) : Int) = 2 ^ k := by push_cast; rfl
  simp only [sext, twosComp, Nat.add_sub_cancel]
  split
  · rw [if_pos (by omega)]; omega
  · rw [if_neg (by omega)]; omega

theorem sext_bounds {b v : Nat} (hb : 1 ≤ b) (h : v < 2 ^ b) :
    -(2 ^ (b - 1)) ≤ sext b v ∧ sext b v ≤ 2 ^ (b - 1) - 1 := by
  obtain ⟨k, rfl⟩ : ∃ k, b = k + 1 := ⟨b - 1, by omega⟩
  have e : (2 : Int) ^ (k + 1) = 2 * 2 ^ k := by ring
  have e' : 2 ^ (k + 1) = 2 * 2 ^ k := by ring
  have c : ((2 ^ k : Nat) : Int) = 2 ^ k := by push_cast; rfl
  simp only [sext, Nat.add_sub_cancel]
  split <;> omega

/-! ## Scales -/

/-- What every row of the scale table has. -/
theorem scaleTable_positive {sc : Scale} (h : sc ∈ scaleTable) : 0 < sc.m ∧ 1 ≤ sc.w := by
  simp only [scaleTable, List.mem_cons, List.not_mem_nil, or_false] at h
  rcases h with rfl | rfl | rfl | rfl | rfl | rfl | rfl <;> decide

theorem Scale.lsb_pos {sc : Scale} (h : 0 < sc.m) : 0 < sc.lsb := by
  have : (0 : Rat) < sc.m := by exact_mod_cast h
  unfold Scale.lsb; positivity

theorem Scale.wire_eq {sc : Scale} (v : Rat) : sc.wire v = trunc (v / sc.lsb) := by
  rw [Scale.wire, Scale.lsb, div_div_eq_mul_div]

theorem Scale.value_eq (sc : Scale) (n : Int) : sc.value n = n * sc.lsb := by
  rw [Scale.value, Scale.lsb, mul_div_assoc]

/-- Encode of decode is the wire integer (42_field_codecs.md R134 a). -/
theorem Scale.wire_value {sc : Scale} (h : 0 < sc.m) (n : Int) : sc.wire (sc.value n) = n := by
  rw [Scale.wire_eq, Scale.value_eq, mul_div_cancel_right₀ _ (Scale.lsb_pos h).ne', trunc_intCast]

theorem Scale.integer_bytes {sc : Scale} (hw : 1 ≤ sc.w) {n : Int} (h : sc.fits n = true) :
    sc.integer (beBytes sc.w (twosComp (8 * sc.w) n)) = n := by
  have hp := pow_256 sc.w
  simp only [Scale.integer, Scale.fits, beNat_beBytes, hp] at h ⊢
  split <;> rename_i hs
  · simp only [hs, if_true, Bool.and_eq_true, decide_eq_true_eq] at h
    rw [Nat.mod_eq_of_lt (twosComp_lt (by omega) h.1 h.2), sext_twosComp (by omega) h.1 h.2]
  · have c : ((2 ^ (8 * sc.w) : Nat) : Int) = 2 ^ (8 * sc.w) := by push_cast; rfl
    have h' := h
    simp only [hs, Bool.false_eq_true, if_false, Bool.and_eq_true, decide_eq_true_eq] at h'
    simp only [twosComp, if_pos h'.1]
    rw [Nat.mod_eq_of_lt (by omega)]
    omega

theorem Scale.fits_integer {sc : Scale} (hw : 1 ≤ sc.w) {bs : List Byte} (hl : bs.length = sc.w) :
    sc.fits (sc.integer bs) = true := by
  have hlt := beNat_lt bs
  have hp : (256 : Nat) ^ bs.length = 2 ^ (8 * sc.w) := by rw [hl, pow_256]
  rw [hp] at hlt
  have c : ((2 ^ (8 * sc.w) : Nat) : Int) = 2 ^ (8 * sc.w) := by push_cast; rfl
  simp only [Scale.integer, Scale.fits]
  split
  · have := sext_bounds (b := 8 * sc.w) (by omega) hlt; simpa using this
  · simp only [Bool.and_eq_true, decide_eq_true_eq]; omega

theorem Scale.bytes_integer {sc : Scale} (hw : 1 ≤ sc.w) {bs : List Byte} (hl : bs.length = sc.w) :
    beBytes sc.w (twosComp (8 * sc.w) (sc.integer bs)) = bs := by
  have hlt := beNat_lt bs
  have hp : (256 : Nat) ^ bs.length = 2 ^ (8 * sc.w) := by rw [hl, pow_256]
  rw [hp] at hlt
  have key : twosComp (8 * sc.w) (sc.integer bs) = beNat bs := by
    simp only [Scale.integer]
    split
    · exact twosComp_sext (by omega) hlt
    · simp [twosComp]
  rw [key, ← hl, beBytes_beNat]

/-- Everything the encode direction of a scale can answer (42_field_codecs.md R131, R136). -/
theorem Scale.toWire_cases (sc : Scale) (v : Rat) :
    (sc.fits (sc.wire v) = true ∧ sc.toWire v = .ok (beBytes sc.w (twosComp (8 * sc.w) (sc.wire v)))) ∨
    (sc.fits (sc.wire v) = false ∧ sc.toWire v = .error .rangeInvalid) := by
  unfold Scale.toWire
  split
  · exact .inl ⟨‹_›, rfl⟩
  · exact .inr ⟨Bool.eq_false_iff.2 ‹_›, rfl⟩

/-- Decode after encode is `dec(enc(v))`. -/
theorem Scale.fromWire_toWire {sc : Scale} (hw : 1 ≤ sc.w) {v : Rat} {bs : List Byte} (h : sc.toWire v = .ok bs) :
    sc.fromWire bs = sc.quantise v ∧ bs.length = sc.w := by
  rcases sc.toWire_cases v with ⟨hf, he⟩ | ⟨_, he⟩
  · rw [he] at h; injection h with h; subst h
    exact ⟨by rw [Scale.fromWire, Scale.integer_bytes hw hf, Scale.quantise], by simp⟩
  · rw [he] at h; cases h

/-- Encode after decode gives the octets back. -/
theorem Scale.toWire_fromWire {sc : Scale} (hm : 0 < sc.m) (hw : 1 ≤ sc.w) {bs : List Byte} (hl : bs.length = sc.w) :
    sc.toWire (sc.fromWire bs) = .ok bs := by
  rw [Scale.toWire, Scale.fromWire, Scale.wire_value hm, if_pos (Scale.fits_integer hw hl), Scale.bytes_integer hw hl]

/-! ## Staging -/

theorem stageBytes_toList (w : Vector Byte 8) {bs : List Byte} (h : bs.length ≤ 8) :
    (stageBytes w bs).toList = bs ++ w.toList.drop bs.length := by
  simp [stageBytes, Vector.toList]
  omega

/-- Staged octets read back (10_state.md R31). -/
theorem State.staged_stage (s : State) {bs : List Byte} (h : bs.length ≤ 8) : (s.stage bs).staged = bs := by
  have hl : (Fin.ofNat 9 bs.length).val = bs.length := Nat.mod_eq_of_lt (by omega)
  simp only [State.staged, State.stage, stageBytes_toList s.w h]
  rw [hl, List.take_append_of_le_length (le_refl _), List.take_length]

end Sys2Proof.Machine
end

