-- ==== Sys2Proof/Laws/Codecs.lean ====
section
/-! SUPPORT. The subfield-bearing items and the nine codecs: what each direction answers, and that they are inverse
(42_field_codecs.md R134, R150 to R159). -/

namespace Sys2Proof.Machine

/-! ## Source bits -/

theorem srcBit_srcMask {n k : Nat} (hn : 1 ≤ n) (hn8 : n ≤ 8) (hk : 1 ≤ k) :
    srcBit (srcMask n) k = decide (n = k) := by
  simp only [srcBit, srcMask, BitVec.getLsbD_shiftLeft, BitVec.getLsbD_one]
  by_cases h : n = k
  · subst h; simp; omega
  · simp [h]; omega

theorem byte_ext {a b : Byte} (h : ∀ k, 1 ≤ k → k ≤ 8 → srcBit a k = srcBit b k) : a = b := by
  apply BitVec.eq_of_getLsbD_eq
  intro i hi
  have := h (i + 1) (by omega) (by omega)
  simpa [srcBit] using this

@[simp] theorem srcBit_or (a b : Byte) (k : Nat) : srcBit (a ||| b) k = (srcBit a k || srcBit b k) := by simp [srcBit]

@[simp] theorem srcBit_and (a b : Byte) (k : Nat) : srcBit (a &&& b) k = (srcBit a k && srcBit b k) := by simp [srcBit]

@[simp] theorem srcBit_zero (k : Nat) : srcBit 0#8 k = false := by simp [srcBit]

/-- The bits SUBMAP gives a subfield. -/
def subBits (sm : Config.SubMap) : List Nat := [sm.com, sm.psr, sm.ssr, sm.mds]

theorem subBits_range (sm : Config.SubMap) :
    (2 ≤ sm.com ∧ sm.com ≤ 8) ∧ (2 ≤ sm.psr ∧ sm.psr ≤ 8) ∧ (2 ≤ sm.ssr ∧ sm.ssr ≤ 8) ∧ (2 ≤ sm.mds ∧ sm.mds ≤ 8) := by
  have := sm.ordered; omega

theorem srcBit_FE {k : Nat} (h1 : 1 ≤ k) (h8 : k ≤ 8) : srcBit 0xFE#8 k = decide (2 ≤ k) := by
  interval_cases k <;> decide

theorem srcBit_spareMask (sm : Config.SubMap) {k : Nat} (h1 : 1 ≤ k) (h8 : k ≤ 8) :
    srcBit (spareMask sm) k = (decide (2 ≤ k) && !decide (k ∈ subBits sm)) := by
  obtain ⟨⟨hc, hc8⟩, ⟨hp, hp8⟩, ⟨hs, hs8⟩, ⟨hm, hm8⟩⟩ := subBits_range sm
  have hx : ∀ a b : Byte, srcBit (a ^^^ b) k = (srcBit a k ^^ srcBit b k) := fun a b => by simp [srcBit]
  simp only [spareMask, srcBit_and, hx, srcBit_or, srcBit_FE h1 h8, subBits,
    srcBit_srcMask (show 1 ≤ sm.com by omega) hc8 h1, srcBit_srcMask (show 1 ≤ sm.psr by omega) hp8 h1,
    srcBit_srcMask (show 1 ≤ sm.ssr by omega) hs8 h1, srcBit_srcMask (show 1 ≤ sm.mds by omega) hm8 h1,
    List.mem_cons, List.not_mem_nil, or_false]
  by_cases h2 : 2 ≤ k <;> simp [h2, eq_comm, Bool.and_assoc]

/-- The spare test bit by bit (42_field_codecs.md R151). -/
theorem spare_zero_iff (sm : Config.SubMap) (p : Byte) :
    p &&& spareMask sm = 0 ↔ ∀ k, 2 ≤ k → k ≤ 8 → k ∉ subBits sm → srcBit p k = false := by
  constructor
  · intro h k h2 h8 hk
    have := congrArg (srcBit · k) h
    simpa [srcBit_spareMask sm (show 1 ≤ k by omega) h8, h2, hk] using this
  · intro h
    refine byte_ext fun k h1 h8 => ?_
    rw [srcBit_and, srcBit_spareMask sm h1 h8, show srcBit (0 : Byte) k = false from srcBit_zero k]
    by_cases h2 : 2 ≤ k
    · by_cases hk : k ∈ subBits sm
      · simp [hk]
      · simp [h k h2 h8 hk]
    · simp [h2]

/-! ## Items with a primary octet -/

theorem srcBit_primaryOctet (sm : Config.SubMap) (v : Subfields) {k : Nat} (h1 : 1 ≤ k) :
    srcBit (primaryOctet sm v) k = ((v.com.isSome && decide (sm.com = k)) || (v.psr.isSome && decide (sm.psr = k)) ||
      (v.ssr.isSome && decide (sm.ssr = k)) || (v.mds.isSome && decide (sm.mds = k))) := by
  obtain ⟨⟨hc, hc8⟩, ⟨hp, hp8⟩, ⟨hs, hs8⟩, ⟨hm, hm8⟩⟩ := subBits_range sm
  have hi : ∀ (b : Bool) (n : Nat), 2 ≤ n → n ≤ 8 →
      srcBit (if b = true then srcMask n else 0) k = (b && decide (n = k)) := by
    intro b n h2 h8; cases b <;> simp [srcBit_srcMask (show 1 ≤ n by omega) h8 h1]
  simp only [primaryOctet, srcBit_or, hi _ _ hc hc8, hi _ _ hp hp8, hi _ _ hs hs8, hi _ _ hm hm8]

theorem primaryOctet_bits (sm : Config.SubMap) (v : Subfields) :
    srcBit (primaryOctet sm v) sm.com = v.com.isSome ∧ srcBit (primaryOctet sm v) sm.psr = v.psr.isSome ∧
    srcBit (primaryOctet sm v) sm.ssr = v.ssr.isSome ∧ srcBit (primaryOctet sm v) sm.mds = v.mds.isSome := by
  have ho := sm.ordered
  refine ⟨?_, ?_, ?_, ?_⟩ <;> rw [srcBit_primaryOctet sm v (by omega)] <;>
    simp [show sm.com ≠ sm.psr by omega, show sm.com ≠ sm.ssr by omega, show sm.com ≠ sm.mds by omega,
      show sm.psr ≠ sm.com by omega, show sm.psr ≠ sm.ssr by omega, show sm.psr ≠ sm.mds by omega,
      show sm.ssr ≠ sm.com by omega, show sm.ssr ≠ sm.psr by omega, show sm.ssr ≠ sm.mds by omega,
      show sm.mds ≠ sm.com by omega, show sm.mds ≠ sm.psr by omega, show sm.mds ≠ sm.ssr by omega]

theorem fx_primaryOctet (sm : Config.SubMap) (v : Subfields) : fx (primaryOctet sm v) = false := by
  have ho := sm.ordered
  rw [fx, srcBit_primaryOctet sm v (le_refl 1)]
  simp [show sm.com ≠ 1 by omega, show sm.psr ≠ 1 by omega, show sm.ssr ≠ 1 by omega, show sm.mds ≠ 1 by omega]

theorem spare_primaryOctet (sm : Config.SubMap) (v : Subfields) : primaryOctet sm v &&& spareMask sm = 0 := by
  rw [spare_zero_iff]
  intro k h2 _ hk
  simp only [subBits, List.mem_cons, List.not_mem_nil, or_false, not_or] at hk
  rw [srcBit_primaryOctet sm v (by omega)]
  simp [Ne.symm hk.1, Ne.symm hk.2.1, Ne.symm hk.2.2.1, Ne.symm hk.2.2.2]

theorem option_toList_length {α : Type} (o : Option α) : o.toList.length = o.isSome.toNat := by cases o <;> rfl

theorem subSize_primaryOctet (sm : Config.SubMap) (v : Subfields) :
    subSize sm (primaryOctet sm v) = (subToWire sm v).length := by
  obtain ⟨h1, h2, h3, h4⟩ := primaryOctet_bits sm v
  simp only [subSize, h1, h2, h3, h4, subToWire, List.length_cons, List.length_append, option_toList_length]
  omega

/-- Everything `sub_parse` can answer on octets that begin with `p` (42_field_codecs.md R151). -/
theorem subParse_cons (sm : Config.SubMap) (p : Byte) (more : List Byte) :
    subParse sm (p :: more) =
      if fx p then .error .sizeInvalid
      else if p &&& spareMask sm ≠ 0 then .error .itemUnsupported
      else if more.length + 1 < subSize sm p then .error .sizeInvalid
      else .ok (subSize sm p) := by
  simp [subParse]

theorem subParse_ok {sm : Config.SubMap} {bs : List Byte} {n : Nat} (h : subParse sm bs = .ok n) :
    ∃ p more, bs = p :: more ∧ fx p = false ∧ p &&& spareMask sm = 0 ∧ n = subSize sm p ∧ n ≤ bs.length := by
  cases bs with
  | nil => simp [subParse] at h
  | cons p more =>
    rw [subParse_cons] at h
    split at h
    · cases h
    · split at h
      · cases h
      · split at h
        · cases h
        · injection h with h
          exact ⟨p, more, rfl, by simp_all, by simp_all, h.symm, by simp only [List.length_cons]; omega⟩

theorem subParse_subToWire (sm : Config.SubMap) (v : Subfields) (more : List Byte) :
    subParse sm (subToWire sm v ++ more) = .ok (subToWire sm v).length := by
  rw [show subToWire sm v ++ more =
    primaryOctet sm v :: (v.com.toList ++ v.psr.toList ++ v.ssr.toList ++ v.mds.toList ++ more) by simp [subToWire],
    subParse_cons, fx_primaryOctet, spare_primaryOctet, subSize_primaryOctet]
  have hl : (v.com.toList ++ v.psr.toList ++ v.ssr.toList ++ v.mds.toList ++ more).length + 1 =
    (subToWire sm v).length + more.length := by simp [subToWire]; omega
  rw [hl]
  simp

theorem takeSub_toList (o : Option Byte) (rest : List Byte) : takeSub o.isSome (o.toList ++ rest) = (o, rest) := by
  cases o <;> simp [takeSub]

theorem subFields_primaryOctet (sm : Config.SubMap) (v : Subfields) :
    subFields sm (primaryOctet sm v) (v.com.toList ++ v.psr.toList ++ v.ssr.toList ++ v.mds.toList) = v := by
  obtain ⟨h1, h2, h3, h4⟩ := primaryOctet_bits sm v
  have e := takeSub_toList v.mds []
  rw [List.append_nil] at e
  simp only [subFields, h1, h2, h3, h4, List.append_assoc, takeSub_toList, e]

/-- `frw_6` of `tow_6` (42_field_codecs.md R152, R153). -/
theorem subFromWire_subToWire (sm : Config.SubMap) (v : Subfields) : subFromWire sm (subToWire sm v) = .ok v := by
  have h := subParse_subToWire sm v []
  rw [List.append_nil] at h
  simp only [subFromWire.eq_def, h]
  simp only [ne_eq, not_true_eq_false, if_false, subToWire, subFields_primaryOctet]

theorem takeSub_some {b : Bool} {bs : List Byte} (h : b.toNat ≤ bs.length) :
    (takeSub b bs).1.isSome = b ∧ (takeSub b bs).1.toList ++ (takeSub b bs).2 = bs ∧
    (takeSub b bs).2.length = bs.length - b.toNat := by
  cases b with
  | false => simp [takeSub]
  | true =>
    cases bs with
    | nil => simp at h
    | cons c bs => simp [takeSub]

/-- The subfields of octets that are long enough: presence is the primary octet's bits, and they write back. -/
theorem subFields_spec (sm : Config.SubMap) (p : Byte) {bs : List Byte} (h : bs.length + 1 = subSize sm p) :
    (subFields sm p bs).com.isSome = srcBit p sm.com ∧ (subFields sm p bs).psr.isSome = srcBit p sm.psr ∧
    (subFields sm p bs).ssr.isSome = srcBit p sm.ssr ∧ (subFields sm p bs).mds.isSome = srcBit p sm.mds ∧
    (subFields sm p bs).com.toList ++ (subFields sm p bs).psr.toList ++ (subFields sm p bs).ssr.toList ++
      (subFields sm p bs).mds.toList = bs := by
  simp only [subSize] at h
  have h1 := takeSub_some (b := srcBit p sm.com) (bs := bs) (by omega)
  have h2 := takeSub_some (b := srcBit p sm.psr) (bs := (takeSub (srcBit p sm.com) bs).2) (by omega)
  have h3 := takeSub_some (b := srcBit p sm.ssr)
    (bs := (takeSub (srcBit p sm.psr) (takeSub (srcBit p sm.com) bs).2).2) (by omega)
  have h4 := takeSub_some (b := srcBit p sm.mds)
    (bs := (takeSub (srcBit p sm.ssr) (takeSub (srcBit p sm.psr) (takeSub (srcBit p sm.com) bs).2).2).2) (by omega)
  refine ⟨h1.1, h2.1, h3.1, h4.1, ?_⟩
  have e4 : (takeSub (srcBit p sm.mds) (takeSub (srcBit p sm.ssr) (takeSub (srcBit p sm.psr)
    (takeSub (srcBit p sm.com) bs).2).2).2).2 = [] := List.eq_nil_of_length_eq_zero (by omega)
  have e := h4.2.1
  rw [e4, List.append_nil] at e
  simp only [subFields, List.append_assoc]
  rw [e, h3.2.1, h2.2.1, h1.2.1]

/-- A primary octet that passes the tests is the one of the subfields it announces. -/
theorem primaryOctet_subFields {sm : Config.SubMap} {p : Byte} {bs : List Byte} (hf : fx p = false)
    (hs : p &&& spareMask sm = 0) (h : bs.length + 1 = subSize sm p) : primaryOctet sm (subFields sm p bs) = p := by
  obtain ⟨h1, h2, h3, h4, -⟩ := subFields_spec sm p h
  rw [spare_zero_iff] at hs
  refine byte_ext fun k hk1 hk8 => ?_
  rw [srcBit_primaryOctet sm _ hk1, h1, h2, h3, h4]
  rcases Nat.eq_or_lt_of_le hk1 with rfl | hk2
  · have ho := sm.ordered
    rw [show srcBit p 1 = false from hf]
    simp [show sm.com ≠ 1 by omega, show sm.psr ≠ 1 by omega, show sm.ssr ≠ 1 by omega, show sm.mds ≠ 1 by omega]
  · by_cases hk : k ∈ subBits sm
    · have ho := sm.ordered
      simp only [subBits, List.mem_cons, List.not_mem_nil, or_false] at hk
      rcases hk with rfl | rfl | rfl | rfl <;>
      simp [show sm.com ≠ sm.psr by omega, show sm.com ≠ sm.ssr by omega, show sm.com ≠ sm.mds by omega,
        show sm.psr ≠ sm.com by omega, show sm.psr ≠ sm.ssr by omega, show sm.psr ≠ sm.mds by omega,
        show sm.ssr ≠ sm.com by omega, show sm.ssr ≠ sm.psr by omega, show sm.ssr ≠ sm.mds by omega,
        show sm.mds ≠ sm.com by omega, show sm.mds ≠ sm.psr by omega, show sm.mds ≠ sm.ssr by omega]
    · rw [hs k hk2 hk8 hk]
      simp only [subBits, List.mem_cons, List.not_mem_nil, or_false, not_or] at hk
      simp [Ne.symm hk.1, Ne.symm hk.2.1, Ne.symm hk.2.2.1, Ne.symm hk.2.2.2]

/-- What a successful `frw_6` read: exactly the item's octets (42_field_codecs.md R151, R153). -/
theorem subFromWire_ok {sm : Config.SubMap} {bs : List Byte} {v : Subfields} (h : subFromWire sm bs = .ok v) :
    bs = subToWire sm v := by
  unfold subFromWire at h
  split at h
  · cases h
  · rename_i n hn
    obtain ⟨p, more, rfl, hf, hs, rfl, -⟩ := subParse_ok hn
    split at h
    · cases h
    · rename_i hl
      simp only [List.length_cons, ne_eq, not_not] at hl
      injection h with h
      subst h
      rw [subToWire, primaryOctet_subFields hf hs hl.symm, (subFields_spec sm p hl.symm).2.2.2.2]

theorem subFromWire_of_parse {sm : Config.SubMap} {bs : List Byte} {n : Nat} (h : subParse sm bs = .ok n) :
    ∃ v, subFromWire sm (bs.take n) = .ok v ∧ bs.take n = subToWire sm v := by
  obtain ⟨p, more, rfl, hf, hs, rfl, hn⟩ := subParse_ok h
  have hp : subSize sm p = (subSize sm p - 1) + 1 := by simp [subSize]; omega
  have ht : (p :: more).take (subSize sm p) = p :: more.take (subSize sm p - 1) := by rw [hp]; rfl
  have hl : (more.take (subSize sm p - 1)).length + 1 = subSize sm p := by
    simp only [List.length_cons] at hn; rw [List.length_take]; omega
  have e : p :: more.take (subSize sm p - 1) = subToWire sm (subFields sm p (more.take (subSize sm p - 1))) := by
    rw [subToWire, primaryOctet_subFields hf hs hl, (subFields_spec sm p hl).2.2.2.2]
  rw [ht, e]
  exact ⟨_, subFromWire_subToWire _ _, rfl⟩

/-! ## Several components one after another -/

theorem joinWire_cons_ok {r : Except ErrorKind (List Byte)} {rest : List (Except ErrorKind (List Byte))}
    {bs : List Byte} : joinWire (r :: rest) = .ok bs ↔ ∃ a b, r = .ok a ∧ joinWire rest = .ok b ∧ bs = a ++ b := by
  cases r with
  | error k => simp [joinWire]
  | ok a =>
    cases hr : joinWire rest <;> simp [joinWire, hr, eq_comm]

theorem joinWire_nil_ok {bs : List Byte} : joinWire [] = .ok bs ↔ bs = [] := by simp [joinWire, eq_comm]

/-- The first error in order decides. -/
theorem joinWire_cons_error {r : Except ErrorKind (List Byte)} {rest : List (Except ErrorKind (List Byte))}
    {k : ErrorKind} : joinWire (r :: rest) = .error k ↔ r = .error k ∨ ∃ a, r = .ok a ∧ joinWire rest = .error k := by
  cases r with
  | error k => simp [joinWire]
  | ok a =>
    cases hr : joinWire rest <;> simp [joinWire, hr]

/-! ## The nine codecs -/

theorem scale_w_pos {sc : Scale} (h : sc ∈ scaleTable) : 1 ≤ sc.w := (scaleTable_positive h).2

/-- Everything the encode direction answers besides octets: ItemUnsupported for a MessageType, RangeInvalid for a
scaled component (60_exceptions.md R203, R204). -/
theorem joinWire_range {l : List (Except ErrorKind (List Byte))} {k : ErrorKind}
    (hl : ∀ r ∈ l, ∀ e, r = .error e → e = .rangeInvalid) (h : joinWire l = .error k) : k = .rangeInvalid := by
  induction l with
  | nil => simp [joinWire] at h
  | cons r l ih =>
    rcases joinWire_cons_error.1 h with h | ⟨a, _, h⟩
    · exact hl r (by simp) k h
    · exact ih (fun r hr => hl r (by simp [hr])) h

theorem Scale.toWire_error {sc : Scale} {v : Rat} {k : ErrorKind} (h : sc.toWire v = .error k) : k = .rangeInvalid := by
  rcases sc.toWire_cases v with ⟨_, he⟩ | ⟨_, he⟩ <;> rw [he] at h <;> cases h
  rfl

theorem toWire_error {p : Config.Params} {v : FieldValue} {k : ErrorKind} (h : toWire p v = .error k) :
    (k = .itemUnsupported ∧ p.mtStrict = true ∧ ∃ m, v = .mty m ∧ messageTypeOk p m = false) ∨
    (k = .rangeInvalid ∧ v.field ∈ [Field.tod, .sec, .arp, .gpw, .pos]) := by
  have hj : ∀ {l : List (Scale × Rat)}, joinWire (l.map fun q => q.1.toWire q.2) = .error k → k = .rangeInvalid := by
    intro l hl
    refine joinWire_range (fun r hr e he => ?_) hl
    obtain ⟨q, _, rfl⟩ := List.mem_map.1 hr
    exact Scale.toWire_error he
  cases v with
  | dsi v => simp [toWire] at h
  | mty m =>
    simp only [toWire] at h
    split at h
    · cases h
    · rename_i hm
      injection h with h
      refine .inl ⟨h.symm, ?_, m, rfl, by simpa using hm⟩
      by_contra hs
      exact hm (by simp [messageTypeOk, hs])
  | tod v => exact .inr ⟨Scale.toWire_error h, by simp [FieldValue.field]⟩
  | sec v => exact .inr ⟨Scale.toWire_error h, by simp [FieldValue.field]⟩
  | arp v => exact .inr ⟨Scale.toWire_error h, by simp [FieldValue.field]⟩
  | scs v => simp [toWire] at h
  | spm v => simp [toWire] at h
  | gpw v =>
    exact .inr ⟨hj (l := [(scaleRho, v.rhoStart), (scaleRho, v.rhoEnd), (scaleTheta, v.thetaStart),
      (scaleTheta, v.thetaEnd)]) h, by simp [FieldValue.field]⟩
  | pos v =>
    exact .inr ⟨hj (l := [(scaleHeight, v.height), (scaleLatLon, v.lat), (scaleLatLon, v.lon)]) h,
      by simp [FieldValue.field]⟩

/-- `q(v)` of one field value (43_record_engine.md R180). -/
def FieldValue.quantised : FieldValue → FieldValue
  | .dsi v => .dsi v
  | .mty v => .mty v
  | .tod v => .tod (scaleTod.quantise v)
  | .sec v => .sec (scaleSec.quantise v)
  | .arp v => .arp (scaleArp.quantise v)
  | .scs v => .scs v
  | .spm v => .spm v
  | .gpw v =>
    .gpw { rhoStart := scaleRho.quantise v.rhoStart, rhoEnd := scaleRho.quantise v.rhoEnd,
           thetaStart := scaleTheta.quantise v.thetaStart, thetaEnd := scaleTheta.quantise v.thetaEnd }
  | .pos v =>
    .pos { height := scaleHeight.quantise v.height, lat := scaleLatLon.quantise v.lat,
           lon := scaleLatLon.quantise v.lon }

theorem Record.get_quantised (rec : Record) (f : Field) :
    rec.quantised.get f = (rec.get f).map FieldValue.quantised := by
  cases f <;> simp [Record.get, Record.quantised, Option.map_map, Function.comp_def, FieldValue.quantised]

/-- Decode after encode: the wire octets of a value read back as its quantised form, of the value's own size. -/
theorem fromWire_toWire {p : Config.Params} {v : FieldValue} {bs : List Byte} (h : toWire p v = .ok bs) :
    fromWire p v.field bs = .ok v.quantised ∧ bs.length = v.wireSize ∧
    ∀ n, v.field.fixedSize = some n → bs.length = n := by
  have sp : ∀ {sc : Scale} {x : Rat} {cs : List Byte}, sc ∈ scaleTable → sc.toWire x = .ok cs →
      sc.fromWire cs = sc.quantise x ∧ cs.length = sc.w := fun hm hx => Scale.fromWire_toWire (scale_w_pos hm) hx
  cases v with
  | dsi v =>
    injection h with h; subst h
    simp [fromWire, FieldValue.field, Field.fixedSize, fixedValue, FieldValue.quantised, FieldValue.wireSize]
  | mty m =>
    simp only [toWire] at h
    split at h
    · injection h with h; subst h
      simp [fromWire, FieldValue.field, Field.fixedSize, fixedValue, FieldValue.quantised, FieldValue.wireSize, *]
    · cases h
  | tod v =>
    obtain ⟨h1, h2⟩ := sp (by simp [scaleTable]) h
    have h2' : bs.length = 3 := h2
    simp [fromWire, FieldValue.field, Field.fixedSize, fixedValue, FieldValue.quantised, FieldValue.wireSize, h1, h2']
  | sec v =>
    obtain ⟨h1, h2⟩ := sp (by simp [scaleTable]) h
    have h2' : bs.length = 1 := h2
    simp [fromWire, FieldValue.field, Field.fixedSize, fixedValue, FieldValue.quantised, FieldValue.wireSize, h1, h2']
  | arp v =>
    obtain ⟨h1, h2⟩ := sp (by simp [scaleTable]) h
    have h2' : bs.length = 2 := h2
    simp [fromWire, FieldValue.field, Field.fixedSize, fixedValue, FieldValue.quantised, FieldValue.wireSize, h1, h2']
  | scs v =>
    injection h with h; subst h
    refine ⟨by simp [fromWire, FieldValue.field, Field.fixedSize, fixedValue, FieldValue.quantised,
      subFromWire_subToWire], by simp [subToWire, FieldValue.wireSize]; ring, by simp [FieldValue.field, Field.fixedSize]⟩
  | spm v =>
    injection h with h; subst h
    refine ⟨by simp [fromWire, FieldValue.field, Field.fixedSize, fixedValue, FieldValue.quantised,
      subFromWire_subToWire], by simp [subToWire, FieldValue.wireSize]; ring, by simp [FieldValue.field, Field.fixedSize]⟩
  | gpw v =>
    obtain ⟨a, r1, ha, h1, rfl⟩ := joinWire_cons_ok.1 h
    obtain ⟨b, r2, hb, h2, rfl⟩ := joinWire_cons_ok.1 h1
    obtain ⟨c, r3, hc, h3, rfl⟩ := joinWire_cons_ok.1 h2
    obtain ⟨d, r4, hd, h4, rfl⟩ := joinWire_cons_ok.1 h3
    rw [joinWire_nil_ok.1 h4]
    obtain ⟨ea, la⟩ := sp (by simp [scaleTable]) ha
    obtain ⟨eb, lb⟩ := sp (by simp [scaleTable]) hb
    obtain ⟨ec, lc⟩ := sp (by simp [scaleTable]) hc
    obtain ⟨ed, ld⟩ := sp (by simp [scaleTable]) hd
    simp only [scaleRho, scaleTheta] at la lb lc ld
    obtain ⟨a0, a1, rfl⟩ := List.length_eq_two.1 la
    obtain ⟨b0, b1, rfl⟩ := List.length_eq_two.1 lb
    obtain ⟨c0, c1, rfl⟩ := List.length_eq_two.1 lc
    obtain ⟨d0, d1, rfl⟩ := List.length_eq_two.1 ld
    simp [fromWire, FieldValue.field, Field.fixedSize, fixedValue, FieldValue.quantised, FieldValue.wireSize, ea, eb,
      ec, ed]
  | pos v =>
    obtain ⟨a, r1, ha, h1, rfl⟩ := joinWire_cons_ok.1 h
    obtain ⟨b, r2, hb, h2, rfl⟩ := joinWire_cons_ok.1 h1
    obtain ⟨c, r3, hc, h3, rfl⟩ := joinWire_cons_ok.1 h2
    rw [joinWire_nil_ok.1 h3]
    obtain ⟨ea, la⟩ := sp (by simp [scaleTable]) ha
    obtain ⟨eb, lb⟩ := sp (by simp [scaleTable]) hb
    obtain ⟨ec, lc⟩ := sp (by simp [scaleTable]) hc
    simp only [scaleHeight, scaleLatLon] at la lb lc
    obtain ⟨a0, a1, rfl⟩ := List.length_eq_two.1 la
    obtain ⟨b0, b1, b2, rfl⟩ := List.length_eq_three.1 lb
    obtain ⟨c0, c1, c2, rfl⟩ := List.length_eq_three.1 lc
    simp [fromWire, FieldValue.field, Field.fixedSize, fixedValue, FieldValue.quantised, FieldValue.wireSize, ea, eb,
      ec]

end Sys2Proof.Machine
end

