-- ==== Sys2Proof/Laws/Chain.lean ====
section
/-! SUPPORT. The FSPEC chain bit by bit: build, parse, and that they are inverse (41_fspec.md R112 to R119). -/

namespace Sys2Proof.Machine

theorem foldl_or_srcBit (l : List Nat) (o : Byte) (k : Nat) :
    srcBit (l.foldl (fun o f => o ||| frnMask f) o) k = (srcBit o k || l.any fun f => srcBit (frnMask f) k) := by
  induction l generalizing o with
  | nil => simp
  | cons f l ih => rw [List.foldl_cons, ih]; simp [Bool.or_assoc]

theorem srcBit_chainOctet (P : Nat → Bool) (i k : Nat) :
    srcBit (chainOctet (allFrns.filter P) i) k =
      allFrns.any fun f => P f && decide (frnOctet f = i) && srcBit (frnMask f) k := by
  rw [chainOctet, foldl_or_srcBit, show srcBit (0 : Byte) k = false from srcBit_zero k, Bool.false_or,
    List.any_filter, List.any_filter]
  congr 1
  funext f
  rw [Bool.and_assoc]

/-- The octet at chain index 0, bit by bit (30_encoding.md R76). -/
theorem chainOctet_zero (P : Nat → Bool) :
    let o := chainOctet (allFrns.filter P) 0
    srcBit o 1 = false ∧ srcBit o 2 = P 7 ∧ srcBit o 3 = P 6 ∧ srcBit o 4 = P 5 ∧ srcBit o 5 = P 4 ∧
    srcBit o 6 = P 3 ∧ srcBit o 7 = P 2 ∧ srcBit o 8 = P 1 := by
  refine ⟨?_, ?_, ?_, ?_, ?_, ?_, ?_, ?_⟩ <;>
    (rw [srcBit_chainOctet]; simp [allFrns, frnOctet, frnMask, srcBit, Config.frnPerOctet])

/-- The octet at chain index 1, bit by bit (30_encoding.md R76). -/
theorem chainOctet_one (P : Nat → Bool) :
    let o := chainOctet (allFrns.filter P) 1
    srcBit o 1 = false ∧ srcBit o 2 = P 14 ∧ srcBit o 3 = P 13 ∧ srcBit o 4 = P 12 ∧ srcBit o 5 = P 11 ∧
    srcBit o 6 = P 10 ∧ srcBit o 7 = P 9 ∧ srcBit o 8 = P 8 := by
  refine ⟨?_, ?_, ?_, ?_, ?_, ?_, ?_, ?_⟩ <;>
    (rw [srcBit_chainOctet]; simp [allFrns, frnOctet, frnMask, srcBit, Config.frnPerOctet])

/-- Is an FRN above 7 in the presence set? -/
def needsTwo (P : Nat → Bool) : Bool := P 8 || P 9 || P 10 || P 11 || P 12 || P 13 || P 14

theorem chainLength_filter (P : Nat → Bool) : chainLength (allFrns.filter P) = if needsTwo P then 2 else 1 := by
  have h : (allFrns.filter P).all (· ≤ Config.frnPerOctet) = !needsTwo P := by
    rw [List.all_filter]
    simp [allFrns, needsTwo, Config.frnPerOctet, Bool.and_assoc]
  rw [chainLength, h]
  cases needsTwo P <;> rfl

theorem fspecBuild_one {P : Nat → Bool} (h : needsTwo P = false) :
    fspecBuild (allFrns.filter P) = [chainOctet (allFrns.filter P) 0] := by
  simp [fspecBuild, chainLength_filter, h, List.range_succ]

theorem fspecBuild_two {P : Nat → Bool} (h : needsTwo P = true) :
    fspecBuild (allFrns.filter P) =
      [chainOctet (allFrns.filter P) 0 ||| srcMask 1, chainOctet (allFrns.filter P) 1] := by
  simp [fspecBuild, chainLength_filter, h, List.range_succ]

theorem fx_or_one (o : Byte) : fx (o ||| srcMask 1) = true := by
  simp [fx, srcBit_srcMask]

theorem srcBit_or_one (o : Byte) {k : Nat} (h : 2 ≤ k) : srcBit (o ||| srcMask 1) k = srcBit o k := by
  rw [srcBit_or, srcBit_srcMask (by omega) (by omega) (by omega)]
  simp [show (1 : Nat) ≠ k by omega]

/-! ## Parsing -/

/-- Every outcome of the chain walk (41_fspec.md R114). -/
theorem fspecParse_cases (bs : List Byte) :
    (bs = [] ∧ fspecParse bs = .error .sizeInvalid) ∨
    (∃ a more, bs = a :: more ∧ fx a = false ∧ fspecParse bs = .ok [a]) ∨
    (∃ a, bs = [a] ∧ fx a = true ∧ fspecParse bs = .error .sizeInvalid) ∨
    (∃ a b more, bs = a :: b :: more ∧ fx a = true ∧ fx b = false ∧ fspecParse bs = .ok [a, b]) ∨
    (∃ a b more, bs = a :: b :: more ∧ fx a = true ∧ fx b = true ∧ fspecParse bs = .error .sizeInvalid) := by
  cases bs with
  | nil => exact .inl ⟨rfl, rfl⟩
  | cons a bs =>
    cases ha : fx a with
    | false => exact .inr (.inl ⟨a, bs, rfl, ha, by simp [fspecParse, Config.maxChain, chainWalk, ha]⟩)
    | true =>
      cases bs with
      | nil => exact .inr (.inr (.inl ⟨a, rfl, ha, by simp [fspecParse, Config.maxChain, chainWalk, ha]⟩))
      | cons b more =>
        cases hb : fx b with
        | false =>
          exact .inr (.inr (.inr (.inl ⟨a, b, more, rfl, ha, hb, by
            simp [fspecParse, Config.maxChain, chainWalk, ha, hb]⟩)))
        | true =>
          exact .inr (.inr (.inr (.inr ⟨a, b, more, rfl, ha, hb, by
            simp [fspecParse, Config.maxChain, chainWalk, ha, hb]⟩)))

/-- The shape of a chain that parses. -/
theorem fspecParse_ok {bs o : List Byte} (h : fspecParse bs = .ok o) :
    ∃ more, bs = o ++ more ∧
      ((∃ a, o = [a] ∧ fx a = false) ∨ (∃ a b, o = [a, b] ∧ fx a = true ∧ fx b = false)) := by
  rcases fspecParse_cases bs with ⟨_, e⟩ | ⟨a, m, rfl, ha, e⟩ | ⟨a, rfl, _, e⟩ | ⟨a, b, m, rfl, ha, hb, e⟩ |
    ⟨a, b, m, rfl, _, _, e⟩ <;> rw [e] at h <;> cases h
  · exact ⟨m, rfl, .inl ⟨a, rfl, ha⟩⟩
  · exact ⟨m, rfl, .inr ⟨a, b, rfl, ha, hb⟩⟩

theorem fspecParse_error {bs : List Byte} {k : ErrorKind} (h : fspecParse bs = .error k) : k = .sizeInvalid := by
  rcases fspecParse_cases bs with ⟨_, e⟩ | ⟨a, m, rfl, ha, e⟩ | ⟨a, rfl, _, e⟩ | ⟨a, b, m, rfl, ha, hb, e⟩ |
    ⟨a, b, m, rfl, _, _, e⟩ <;> rw [e] at h <;> cases h <;> rfl

/-! ## What a chain declares -/

theorem declared_low (a : Byte) (more : List Byte) {f : Nat} (h1 : 1 ≤ f) (h7 : f ≤ 7) :
    declared (a :: more) f = srcBit a (9 - f) := by
  have key : ∀ a : Byte, ∀ f ∈ [1, 2, 3, 4, 5, 6, 7], (a &&& frnMask f != 0) = srcBit a (9 - f) := by decide +kernel
  have ho : frnOctet f = 0 := by simp only [frnOctet, Config.frnPerOctet]; omega
  rw [declared, ho]
  exact key a f (by simp; omega)

theorem declared_high (a b : Byte) (more : List Byte) {f : Nat} (h1 : 8 ≤ f) (h7 : f ≤ 14) :
    declared (a :: b :: more) f = srcBit b (16 - f) := by
  have key : ∀ a : Byte, ∀ f ∈ [8, 9, 10, 11, 12, 13, 14], (a &&& frnMask f != 0) = srcBit a (16 - f) := by
    decide +kernel
  have ho : frnOctet f = 1 := by simp only [frnOctet, Config.frnPerOctet]; omega
  rw [declared, ho]
  exact key b f (by simp; omega)

theorem declared_high_single (a : Byte) {f : Nat} (h1 : 8 ≤ f) : declared [a] f = false := by
  have ho : frnOctet f = (f - 1) / 7 := rfl
  obtain ⟨d, hd⟩ : ∃ d, frnOctet f = d + 1 := ⟨(f - 1) / 7 - 1, by omega⟩
  rw [declared, hd]
  rfl

theorem mem_allFrns {f : Nat} : f ∈ allFrns ↔ 1 ≤ f ∧ f ≤ 14 := by simp [allFrns]; omega

/-- The builder's chain declares exactly the presence set (41_fspec.md R119). -/
theorem declared_fspecBuild (P : Nat → Bool) {f : Nat} (h1 : 1 ≤ f) (h14 : f ≤ 14) :
    declared (fspecBuild (allFrns.filter P)) f = P f := by
  obtain ⟨-, z7, z6, z5, z4, z3, z2, z1⟩ := chainOctet_zero P
  obtain ⟨-, o14, o13, o12, o11, o10, o9, o8⟩ := chainOctet_one P
  cases hn : needsTwo P with
  | false =>
    rw [fspecBuild_one hn]
    rcases Nat.lt_or_ge 7 f with hf | hf
    · rw [declared_high_single _ (by omega)]
      simp only [needsTwo, Bool.or_eq_false_iff] at hn
      interval_cases f <;> simp [hn]
    · rw [declared_low _ _ h1 hf]
      interval_cases f <;> simpa
  | true =>
    rw [fspecBuild_two hn]
    rcases Nat.lt_or_ge 7 f with hf | hf
    · rw [declared_high _ _ _ (by omega) h14]
      interval_cases f <;> simpa
    · rw [declared_low _ _ h1 hf, srcBit_or_one _ (by omega)]
      interval_cases f <;> simpa

theorem chainFrns_fspecBuild (P : Nat → Bool) : chainFrns (fspecBuild (allFrns.filter P)) = allFrns.filter P :=
  List.filter_congr fun f hf => by rw [mem_allFrns] at hf; exact declared_fspecBuild P hf.1 hf.2

/-- The builder's chain parses, whatever follows it (41_fspec.md R119). -/
theorem fspecParse_fspecBuild (P : Nat → Bool) (more : List Byte) :
    fspecParse (fspecBuild (allFrns.filter P) ++ more) = .ok (fspecBuild (allFrns.filter P)) := by
  cases hn : needsTwo P with
  | false =>
    rw [fspecBuild_one hn]
    have h : fx (chainOctet (allFrns.filter P) 0) = false := (chainOctet_zero P).1
    simp [fspecParse, Config.maxChain, chainWalk, h]
  | true =>
    rw [fspecBuild_two hn]
    have h : fx (chainOctet (allFrns.filter P) 1) = false := (chainOctet_one P).1
    simp [fspecParse, Config.maxChain, chainWalk, h, fx_or_one]

theorem fspecBuild_length (P : Nat → Bool) :
    (fspecBuild (allFrns.filter P)).length = if needsTwo P then 2 else 1 := by
  rw [← chainLength_filter]; simp [fspecBuild]

/-- A chain of one octet rebuilds to itself. -/
theorem fspecBuild_chainFrns_one {a : Byte} (h : fx a = false) : fspecBuild (chainFrns [a]) = [a] := by
  have hn : needsTwo (declared [a]) = false := by
    simp [needsTwo, declared_high_single]
  rw [chainFrns, fspecBuild_one hn]
  obtain ⟨z, z7, z6, z5, z4, z3, z2, z1⟩ := chainOctet_zero (declared [a])
  congr 1
  refine byte_ext fun k h1 h8 => ?_
  have h' : srcBit a 1 = false := h
  interval_cases k <;> simp_all [declared_low]

/-- The second octet declares something iff one of its presence bits is set. -/
theorem needsTwo_pair (a b : Byte) : needsTwo (declared [a, b]) = decide (b &&& 0xFE#8 ≠ 0) := by
  have key : ∀ b : Byte, (srcBit b 8 || srcBit b 7 || srcBit b 6 || srcBit b 5 || srcBit b 4 || srcBit b 3 ||
    srcBit b 2) = decide (b &&& 0xFE#8 ≠ 0) := by decide +kernel
  rw [← key b]
  simp [needsTwo, declared_high]

theorem fspecBuild_chainFrns_two {a b : Byte} (ha : fx a = true) (hb : fx b = false) :
    fspecBuild (chainFrns [a, b]) = if b &&& 0xFE#8 = 0 then [a &&& 0xFE#8] else [a, b] := by
  have hn := needsTwo_pair a b
  obtain ⟨z, z7, z6, z5, z4, z3, z2, z1⟩ := chainOctet_zero (declared [a, b])
  obtain ⟨o, o14, o13, o12, o11, o10, o9, o8⟩ := chainOctet_one (declared [a, b])
  have ha' : srcBit a 1 = true := ha
  have hb' : srcBit b 1 = false := hb
  split
  · rename_i h0
    rw [chainFrns, fspecBuild_one (by rw [hn]; simp [h0])]
    congr 1
    refine byte_ext fun k h1 h8 => ?_
    rw [srcBit_and, srcBit_FE h1 h8]
    interval_cases k <;> simp_all [declared_low]
  · rename_i h0
    rw [chainFrns, fspecBuild_two (by rw [hn]; simpa using h0)]
    congr 1
    · refine byte_ext fun k h1 h8 => ?_
      rcases Nat.eq_or_lt_of_le h1 with rfl | h2
      · rw [ha']; exact fx_or_one _
      · rw [srcBit_or_one _ h2]
        interval_cases k <;> simp_all [declared_low]
    · congr 1
      refine byte_ext fun k h1 h8 => ?_
      interval_cases k <;> simp_all [declared_high]

end Sys2Proof.Machine
end

