-- ==== Sys2Proof/Laws/Memory.lean ====
section
/-! SUPPORT. What BUF's operations do: reading after writing, and the canonical form every write keeps. -/

namespace Sys2Proof.Machine

theorem Memory.read_write (m : Memory) (a x : Nat) (b : Byte) :
    Memory.read (Memory.write m a b) x = if x = a then some b else Memory.read m x := by
  induction m with
  | nil => simp [Memory.write, Memory.read, eq_comm]
  | cons c m ih =>
    simp only [Memory.write]
    split
    · rename_i h
      simp only [Memory.read, ih]
      split <;> split <;> simp_all
    · split
      · rename_i h; subst h; simp only [Memory.read]; split <;> simp_all [eq_comm]
      · simp only [Memory.read, eq_comm (a := x)]

theorem Memory.octet_write (m : Memory) (a x : Nat) (b : Byte) :
    Memory.octet (Memory.write m a b) x = if x = a then b else Memory.octet m x := by
  simp only [Memory.octet, Memory.read_write]; split <;> simp

/-- Octets written one after another: those of `bs` at `a` and on, the rest as before. -/
theorem Memory.octet_writeBytes (bs : List Byte) (m : Memory) (a x : Nat) :
    Memory.octet (Memory.writeBytes m a bs) x =
      if a ≤ x then bs.getD (x - a) (Memory.octet m x) else Memory.octet m x := by
  induction bs generalizing m a with
  | nil => simp [Memory.writeBytes]
  | cons b bs ih =>
    simp only [Memory.writeBytes, ih, Memory.octet_write]
    rcases Nat.lt_trichotomy x a with h | h | h
    · simp [Nat.not_le.2 h, show ¬ a + 1 ≤ x by omega, show x ≠ a by omega]
    · subst h; simp
    · obtain ⟨d, rfl⟩ : ∃ d, x = a + 1 + d := ⟨x - a - 1, by omega⟩
      simp [show a ≤ a + 1 + d by omega, show a + 1 + d - a = d + 1 by omega, show a + 1 + d ≠ a by omega]

theorem Memory.octet_writeBytes_zero (bs : List Byte) (m : Memory) (x : Nat) :
    Memory.octet (Memory.writeBytes m 0 bs) x = bs.getD x (Memory.octet m x) := by
  simp [Memory.octet_writeBytes]

theorem Memory.mem_write {m : Memory} {a : Nat} {b : Byte} {c : Host.Cell} (h : c ∈ Memory.write m a b) :
    c = (a, b) ∨ c ∈ m := by
  induction m with
  | nil => simpa [Memory.write] using h
  | cons d m ih =>
    simp only [Memory.write] at h
    split at h
    · rcases List.mem_cons.1 h with rfl | h
      · simp
      · rcases ih h with h | h <;> simp [h]
    · split at h <;> rcases List.mem_cons.1 h with rfl | h <;> simp_all

theorem Memory.write_wf {m : Memory} {a : Nat} (b : Byte) (hm : Memory.wf m) (ha : a < Config.bufCap) :
    Memory.wf (Memory.write m a b) := by
  refine ⟨?_, fun c hc => ?_⟩
  · have hp := hm.1
    clear hm
    induction m with
    | nil => simp [Memory.write]
    | cons d m ih =>
      rw [List.pairwise_cons] at hp
      simp only [Memory.write]
      split
      · rename_i h
        refine List.pairwise_cons.2 ⟨fun c hc => ?_, ih hp.2⟩
        rcases Memory.mem_write hc with rfl | hc
        · exact h
        · exact hp.1 c hc
      · split
        · rename_i h; subst h; exact List.pairwise_cons.2 ⟨fun c hc => hp.1 c hc, hp.2⟩
        · refine List.pairwise_cons.2 ⟨fun c hc => ?_, List.pairwise_cons.2 hp⟩
          rcases List.mem_cons.1 hc with rfl | hc
          · simp only; omega
          · have := hp.1 c hc; simp only; omega
  · rcases Memory.mem_write hc with rfl | hc
    · exact ha
    · exact hm.2 c hc

theorem Memory.writeBytes_wf (bs : List Byte) {m : Memory} {a : Nat} (hm : Memory.wf m)
    (h : a + bs.length ≤ Config.bufCap) : Memory.wf (Memory.writeBytes m a bs) := by
  induction bs generalizing m a with
  | nil => exact hm
  | cons b bs ih =>
    simp only [List.length_cons] at h
    exact ih (Memory.write_wf b hm (by omega)) (by omega)

theorem Memory.reset_wf : Memory.wf State.reset.buf := ⟨.nil, fun _ h => nomatch h⟩

/-- In canonical form equal readings mean equal memories. -/
theorem Memory.eq_of_read {m n : Memory} (hm : Memory.wf m) (hn : Memory.wf n)
    (h : ∀ a, Memory.read m a = Memory.read n a) : m = n := by
  replace hm := hm.1
  replace hn := hn.1
  have key : ∀ (c : Host.Cell) (l : Memory) (x : Nat), (c :: l).Pairwise (fun c d => c.1 < d.1) → x < c.1 →
      Memory.read (c :: l) x = none := by
    intro c l
    induction l generalizing c with
    | nil => intro x _ hx; simp [Memory.read]; omega
    | cons d l ih =>
      intro x hp hx
      rw [List.pairwise_cons] at hp
      have hd := hp.1 d (by simp)
      rw [Memory.read, if_neg (by omega), ih d x hp.2 (by omega)]
  induction m generalizing n with
  | nil =>
    cases n with
    | nil => rfl
    | cons d n => have := h d.1; simp [Memory.read] at this
  | cons c m ih =>
    cases n with
    | nil => have := h c.1; simp [Memory.read] at this
    | cons d n =>
      have hcd : c = d := by
        rcases Nat.lt_trichotomy c.1 d.1 with hl | he | hl
        · have := h c.1; rw [key d n c.1 hn hl] at this; simp [Memory.read] at this
        · have := h c.1; simp [Memory.read, he] at this; exact Prod.ext he this
        · have := h d.1; rw [key c m d.1 hm hl] at this; simp [Memory.read] at this
      subst hcd
      congr 1
      refine ih (n := n) (fun a => ?_) (List.pairwise_cons.1 hm).2 (List.pairwise_cons.1 hn).2
      have ha := h a
      by_cases hca : c.1 = a
      · have none_of : ∀ l : Memory, (c :: l).Pairwise (fun c d => c.1 < d.1) → Memory.read l a = none := by
          intro l hl
          cases l with
          | nil => rfl
          | cons e l =>
            rw [List.pairwise_cons] at hl
            exact key e l a hl.2 (hca ▸ hl.1 e (by simp))
        rw [none_of m hm, none_of n hn]
      · simpa [Memory.read, hca] using ha

theorem State.validBytes_length (s : State) : s.validBytes.length = s.blen.toNat := by simp [State.validBytes]

theorem State.validBytes_getElem? (s : State) (x : Nat) :
    s.validBytes[x]? = if x < s.blen.toNat then some (Memory.octet s.buf x) else none := by
  simp only [State.validBytes, List.getElem?_map]
  split <;> rename_i h
  · rw [List.getElem?_range h]; rfl
  · rw [List.getElem?_eq_none (by simpa using h)]; rfl

/-- The valid octets after storing `bs` are `bs` (20_memory.md R51). -/
theorem State.storeBuf_validBytes (s : State) (bs : List Byte) (h : bs.length ≤ 65535) :
    (s.storeBuf bs).validBytes = bs := by
  apply List.ext_getElem?
  intro x
  have hl : (BitVec.ofNat 16 bs.length).toNat = bs.length := by simp; omega
  rw [State.validBytes_getElem?]
  simp only [State.storeBuf, hl, Memory.octet_writeBytes_zero]
  split <;> rename_i hx
  · simp [hx]
  · simp; omega

/-- A command's end does not touch the valid octets. -/
theorem State.finish_validBytes (s : State) (c : BitVec 3) : (s.finish c).validBytes = s.validBytes := rfl

end Sys2Proof.Machine
end

