-- ==== Sys2Proof/Laws/Fields.lean ====
section
/-! SUPPORT. One field at the cursor: what reading it answers, and that it is the inverse of writing it
(43_record_engine.md R172, R174). -/

namespace Sys2Proof.Machine

theorem scale_quantise_value {sc : Scale} (h : 0 < sc.m) (bs : List Byte) :
    sc.quantise (sc.fromWire bs) = sc.fromWire bs := by
  rw [Scale.quantise, Scale.fromWire, Scale.wire_value h]

/-- Everything a successful read of a slice of the field's own size says: the value writes back to the slice
(42_field_codecs.md R134 a). -/
theorem fromWire_ok {p : Config.Params} {f : Field} {bs : List Byte} {v : FieldValue} (h : fromWire p f bs = .ok v) :
    v.field = f ∧ toWire p v = .ok bs ∧ v.quantised = v ∧ bs.length = v.wireSize := by
  have one : ∀ {l : List Byte}, l.length = 1 → ∃ a, l = [a] := fun h => List.length_eq_one_iff.1 h
  cases f with
  | dsi =>
    simp only [fromWire, Field.fixedSize] at h
    split at h
    · obtain ⟨a, b, rfl⟩ := List.length_eq_two.1 ‹_›
      injection h with h; subst h
      simp [FieldValue.field, toWire, FieldValue.quantised, FieldValue.wireSize]
    · cases h
  | mty =>
    simp only [fromWire, Field.fixedSize] at h
    split at h
    · obtain ⟨a, rfl⟩ := one ‹_›
      simp only [fixedValue] at h
      split at h
      · rename_i hm
        injection h with h; subst h
        simp only [List.getD_cons_zero] at hm
        simp [FieldValue.field, toWire, FieldValue.quantised, FieldValue.wireSize, hm]
      · cases h
    · cases h
  | tod =>
    simp only [fromWire, Field.fixedSize] at h
    split at h
    · rename_i hl
      injection h with h; subst h
      exact ⟨rfl, Scale.toWire_fromWire (by decide) (by decide) hl,
        by simp only [FieldValue.quantised, scale_quantise_value (sc := scaleTod) (by decide)], hl⟩
    · cases h
  | sec =>
    simp only [fromWire, Field.fixedSize] at h
    split at h
    · rename_i hl
      injection h with h; subst h
      exact ⟨rfl, Scale.toWire_fromWire (by decide) (by decide) hl,
        by simp only [FieldValue.quantised, scale_quantise_value (sc := scaleSec) (by decide)], hl⟩
    · cases h
  | arp =>
    simp only [fromWire, Field.fixedSize] at h
    split at h
    · rename_i hl
      injection h with h; subst h
      exact ⟨rfl, Scale.toWire_fromWire (by decide) (by decide) hl,
        by simp only [FieldValue.quantised, scale_quantise_value (sc := scaleArp) (by decide)], hl⟩
    · cases h
  | scs =>
    simp only [fromWire, Field.fixedSize, fixedValue] at h
    split at h
    · rename_i w hw
      injection h with h; subst h
      rw [subFromWire_ok hw]
      refine ⟨rfl, rfl, rfl, by simp [subToWire, FieldValue.wireSize]; ring⟩
    · cases h
  | spm =>
    simp only [fromWire, Field.fixedSize, fixedValue] at h
    split at h
    · rename_i w hw
      injection h with h; subst h
      rw [subFromWire_ok hw]
      refine ⟨rfl, rfl, rfl, by simp [subToWire, FieldValue.wireSize]; ring⟩
    · cases h
  | gpw =>
    simp only [fromWire, Field.fixedSize] at h
    split at h
    · rename_i hl
      injection h with h; subst h
      obtain ⟨a, b, c, d, e, g, i, j, rfl⟩ : ∃ a b c d e g i j, bs = [a, b, c, d, e, g, i, j] := by
        rcases bs with _ | ⟨a, _ | ⟨b, _ | ⟨c, _ | ⟨d, _ | ⟨e, _ | ⟨g, _ | ⟨i, _ | ⟨j, _ | ⟨k, l⟩⟩⟩⟩⟩⟩⟩⟩⟩ <;>
          simp at hl ⊢
      refine ⟨rfl, ?_, ?_, rfl⟩
      · simp only [toWire, List.take, List.drop]
        rw [Scale.toWire_fromWire (sc := scaleRho) (by decide) (by decide) (by rfl),
          Scale.toWire_fromWire (sc := scaleRho) (by decide) (by decide) (by rfl),
          Scale.toWire_fromWire (sc := scaleTheta) (by decide) (by decide) (by rfl),
          Scale.toWire_fromWire (sc := scaleTheta) (by decide) (by decide) (by rfl)]
        rfl
      · simp only [FieldValue.quantised, scale_quantise_value (sc := scaleRho) (by decide),
          scale_quantise_value (sc := scaleTheta) (by decide)]
    · cases h
  | pos =>
    simp only [fromWire, Field.fixedSize] at h
    split at h
    · rename_i hl
      injection h with h; subst h
      obtain ⟨a, b, c, d, e, g, i, j, rfl⟩ : ∃ a b c d e g i j, bs = [a, b, c, d, e, g, i, j] := by
        rcases bs with _ | ⟨a, _ | ⟨b, _ | ⟨c, _ | ⟨d, _ | ⟨e, _ | ⟨g, _ | ⟨i, _ | ⟨j, _ | ⟨k, l⟩⟩⟩⟩⟩⟩⟩⟩⟩ <;>
          simp at hl ⊢
      refine ⟨rfl, ?_, ?_, rfl⟩
      · simp only [toWire, List.take, List.drop]
        rw [Scale.toWire_fromWire (sc := scaleHeight) (by decide) (by decide) (by rfl),
          Scale.toWire_fromWire (sc := scaleLatLon) (by decide) (by decide) (by rfl),
          Scale.toWire_fromWire (sc := scaleLatLon) (by decide) (by decide) (by rfl)]
        rfl
      · simp only [FieldValue.quantised, scale_quantise_value (sc := scaleHeight) (by decide),
          scale_quantise_value (sc := scaleLatLon) (by decide)]
    · cases h

/-- A field's size is a matter of the octets that are there and never more than they are. -/
theorem fieldSize_ok {p : Config.Params} {f : Field} {rest : List Byte} {n : Nat} (h : fieldSize p f rest = .ok n) :
    n ≤ rest.length ∧ 1 ≤ n ∧ (f.fixedSize = some n ∨ (f.fixedSize = none ∧ subParse p.subMap rest = .ok n)) := by
  unfold fieldSize at h
  cases hf : f.fixedSize with
  | some m =>
    simp only [hf] at h
    split at h
    · injection h with h
      subst h
      exact ⟨‹_›, by cases f <;> simp [Field.fixedSize] at hf <;> omega, .inl rfl⟩
    · cases h
  | none =>
    simp only [hf] at h
    obtain ⟨q, more, rfl, -, -, hn, hl⟩ := subParse_ok h
    exact ⟨hl, by rw [hn, subSize]; omega, .inr ⟨rfl, h⟩⟩

/-- A MessageType that MT_STRICT refuses is the only slice of the right size that a codec turns away. -/
theorem fromWire_of_size {p : Config.Params} {f : Field} {rest : List Byte} {n : Nat} (h : fieldSize p f rest = .ok n) :
    (∃ v, fromWire p f (rest.take n) = .ok v) ∨
    (f = .mty ∧ p.mtStrict = true ∧ fromWire p f (rest.take n) = .error .itemUnsupported) := by
  obtain ⟨hl, -, hs⟩ := fieldSize_ok h
  have ht : (rest.take n).length = n := by rw [List.length_take]; omega
  rcases hs with hs | ⟨hs, hp⟩
  · cases f <;> simp only [Field.fixedSize, Option.some.injEq, reduceCtorEq] at hs <;> subst hs <;>
      simp only [fromWire, Field.fixedSize, ht, if_true, fixedValue]
    case mty =>
      split
      · exact .inl ⟨_, rfl⟩
      · rename_i hm
        refine .inr ⟨trivial, ?_, rfl⟩
        by_contra hstrict
        exact hm (by simp [messageTypeOk, hstrict])
    all_goals exact .inl ⟨_, rfl⟩
  · obtain ⟨v, hv, -⟩ := subFromWire_of_parse hp
    cases f <;> simp only [Field.fixedSize, reduceCtorEq] at hs
    · exact .inl ⟨.scs v, by simp only [fromWire, Field.fixedSize, fixedValue, hv]⟩
    · exact .inl ⟨.spm v, by simp only [fromWire, Field.fixedSize, fixedValue, hv]⟩

/-- Everything a field at the cursor can give when it reads: its value, which writes back to the octets read. -/
theorem fieldAt_ok {p : Config.Params} {f : Field} {rest : List Byte} {v : FieldValue} {n : Nat}
    (h : fieldAt p f rest = .ok (v, n)) :
    v.field = f ∧ toWire p v = .ok (rest.take n) ∧ v.quantised = v ∧ n = v.wireSize ∧ n ≤ rest.length ∧ 1 ≤ n ∧
    fieldSize p f rest = .ok n := by
  unfold fieldAt at h
  split at h
  · cases h
  · rename_i m hm
    split at h
    · cases h
    · rename_i w hw
      injection h with h
      injection h with h1 h2
      subst h1 h2
      obtain ⟨hf, ht, hq, hl⟩ := fromWire_ok hw
      obtain ⟨hle, h1, -⟩ := fieldSize_ok hm
      rw [List.length_take, Nat.min_eq_left hle] at hl
      exact ⟨hf, ht, hq, hl, hle, h1, hm⟩

theorem fieldSize_toWire {p : Config.Params} {v : FieldValue} {bs : List Byte} (h : toWire p v = .ok bs)
    (more : List Byte) : fieldSize p v.field (bs ++ more) = .ok bs.length := by
  obtain ⟨-, -, hs⟩ := fromWire_toWire h
  unfold fieldSize
  cases hf : v.field.fixedSize with
  | some n => simp [hs n hf]
  | none =>
    cases v <;> simp only [FieldValue.field, Field.fixedSize, reduceCtorEq] at hf <;>
      (simp only [toWire, Except.ok.injEq] at h; subst h; exact subParse_subToWire _ _ more)

/-- A field that was written reads back at the cursor, whatever follows it. -/
theorem fieldAt_toWire {p : Config.Params} {v : FieldValue} {bs : List Byte} (h : toWire p v = .ok bs)
    (more : List Byte) : fieldAt p v.field (bs ++ more) = .ok (v.quantised, bs.length) := by
  simp only [fieldAt, fieldSize_toWire h more]
  rw [List.take_left, (fromWire_toWire h).1]

/-- Why a field at the cursor can fail: SizeInvalid or ItemUnsupported (42_field_codecs.md R151, R143). -/
theorem subParse_error {sm : Config.SubMap} {bs : List Byte} {k : ErrorKind} (h : subParse sm bs = .error k) :
    k = .sizeInvalid ∨ k = .itemUnsupported := by
  cases bs with
  | nil => injection h with h; exact .inl h.symm
  | cons p more =>
    rw [subParse_cons] at h
    split at h
    · injection h with h; exact .inl h.symm
    · split at h
      · injection h with h; exact .inr h.symm
      · split at h
        · injection h with h; exact .inl h.symm
        · cases h

theorem fieldSize_error {p : Config.Params} {f : Field} {rest : List Byte} {k : ErrorKind}
    (h : fieldSize p f rest = .error k) : k = .sizeInvalid ∨ k = .itemUnsupported := by
  unfold fieldSize at h
  split at h
  · split at h
    · cases h
    · injection h with h; exact .inl h.symm
  · exact subParse_error h

theorem fieldAt_error {p : Config.Params} {f : Field} {rest : List Byte} {k : ErrorKind}
    (h : fieldAt p f rest = .error k) : k = .sizeInvalid ∨ k = .itemUnsupported := by
  unfold fieldAt at h
  split at h
  · injection h with h; subst h; exact fieldSize_error ‹_›
  · rename_i n hn
    rcases fromWire_of_size hn with ⟨v, hv⟩ | ⟨-, -, hv⟩
    · simp [hv] at h
    · simp only [hv, Except.error.injEq] at h; exact .inr h.symm

/-- Why FRW can fail, field by field (42_field_codecs.md R139, R143, R153; 60_exceptions.md R207). -/
theorem fromWire_error {p : Config.Params} {f : Field} {bs : List Byte} {k : ErrorKind}
    (h : fromWire p f bs = .error k) :
    k = .sizeInvalid ∨ (k = .itemUnsupported ∧ (f = .scs ∨ f = .spm ∨ (f = .mty ∧ p.mtStrict = true))) := by
  have sub : ∀ {k : ErrorKind}, subFromWire p.subMap bs = .error k → k = .sizeInvalid ∨ k = .itemUnsupported := by
    intro k hk
    unfold subFromWire at hk
    split at hk
    · injection hk with hk; subst hk; exact subParse_error ‹_›
    · split at hk
      · injection hk with hk; exact .inl hk.symm
      · split at hk
        · injection hk with hk; exact .inl hk.symm
        · cases hk
  cases f with
  | scs =>
    simp only [fromWire, Field.fixedSize, fixedValue] at h
    split at h
    · cases h
    · injection h with h; subst h
      rcases sub ‹_› with h | h <;> simp [h]
  | spm =>
    simp only [fromWire, Field.fixedSize, fixedValue] at h
    split at h
    · cases h
    · injection h with h; subst h
      rcases sub ‹_› with h | h <;> simp [h]
  | mty =>
    simp only [fromWire, Field.fixedSize] at h
    split at h
    · simp only [fixedValue] at h
      split at h
      · cases h
      · rename_i hm
        injection h with h
        refine .inr ⟨h.symm, .inr (.inr ⟨rfl, ?_⟩)⟩
        by_contra hstrict
        exact hm (by simp [messageTypeOk, hstrict])
    · injection h with h; exact .inl h.symm
  | _ =>
    simp only [fromWire, Field.fixedSize, fixedValue] at h
    split at h
    · cases h
    · injection h with h; exact .inl h.symm

end Sys2Proof.Machine
end

