-- ==== Sys2Proof/Laws/RecordEngine.lean ====
section
/-! SUPPORT. The record engine: what its loops do, in terms of the list of values they write or read
(43_record_engine.md R170, R172, R175). -/

namespace Sys2Proof.Machine

/-! ## Slots -/

theorem Record.get_put (rec : Record) (v : FieldValue) (f : Field) :
    (rec.put v).get f = if v.field = f then some v else rec.get f := by
  cases v <;> cases f <;> rfl

theorem Record.get_field {rec : Record} {f : Field} {v : FieldValue} (h : rec.get f = some v) : v.field = f := by
  cases f <;> simp only [Record.get, Option.map_eq_some_iff] at h <;> obtain ⟨x, -, rfl⟩ := h <;> rfl

theorem Record.get_empty (f : Field) : Record.empty.get f = none := by cases f <;> rfl

theorem Record.ext_get {a b : Record} (h : ∀ f, a.get f = b.get f) : a = b := by
  have inj : ∀ {α : Type} {g : α → FieldValue}, Function.Injective g → Function.Injective (Option.map g) :=
    fun hg => Option.map_injective hg
  have h1 := inj (fun _ _ e => by injection e) (h .dsi)
  have h2 := inj (fun _ _ e => by injection e) (h .mty)
  have h3 := inj (fun _ _ e => by injection e) (h .tod)
  have h4 := inj (fun _ _ e => by injection e) (h .sec)
  have h5 := inj (fun _ _ e => by injection e) (h .arp)
  have h6 := inj (fun _ _ e => by injection e) (h .scs)
  have h7 := inj (fun _ _ e => by injection e) (h .spm)
  have h8 := inj (fun _ _ e => by injection e) (h .gpw)
  have h9 := inj (fun _ _ e => by injection e) (h .pos)
  cases a; cases b; simp_all

theorem Field.ofFrn_injective {f g : Nat} {x : Field} (hf : Field.ofFrn f = some x) (hg : Field.ofFrn g = some x) :
    f = g := by
  have key : ∀ n, Field.ofFrn n = some x → n = x.frn := by
    intro n hn
    unfold Field.ofFrn at hn
    split at hn <;> cases hn <;> rfl
  rw [key f hf, key g hg]

theorem Field.ofFrn_frn (f : Field) : Field.ofFrn f.frn = some f := by cases f <;> rfl

theorem allFrns_fields : allFrns.filterMap Field.ofFrn = codecFields := by decide

theorem codecFields_nodup : codecFields.Nodup := by decide

theorem mem_codecFields (f : Field) : f ∈ codecFields := by cases f <;> decide

/-! ## Values one after another -/

/-- Values put into a record one after another. -/
def Record.putAll (rec : Record) (vs : List FieldValue) : Record := vs.foldl Record.put rec

theorem Record.get_putAll {vs : List FieldValue} (hn : (vs.map FieldValue.field).Nodup) (rec : Record) (f : Field) :
    (rec.putAll vs).get f = ((vs.find? fun v => v.field = f).or (rec.get f)) := by
  induction vs generalizing rec with
  | nil => simp [Record.putAll]
  | cons v vs ih =>
    simp only [List.map_cons, List.nodup_cons] at hn
    have e : rec.putAll (v :: vs) = (rec.put v).putAll vs := rfl
    rw [e, ih hn.2, Record.get_put, List.find?_cons]
    by_cases h : v.field = f
    · subst h
      have hnone : (vs.find? fun w => w.field = v.field) = none := by
        rw [List.find?_eq_none]
        intro w hw
        simp only [decide_eq_true_eq]
        exact fun e => hn.1 (e ▸ List.mem_map_of_mem hw)
      simp [hnone]
    · simp [h]

/-- What the loop over the fields reads, as a list of values (43_record_engine.md R172). -/
structure Reads (p : Config.Params) (o : List Byte) (fs : List Nat) (rest : List Byte) (vs : List FieldValue) :
    Prop where
  fields : (fs.filter (declared o)).map Field.ofFrn = vs.map fun v => some v.field
  octets : joinWire (vs.map (toWire p)) = .ok (rest.take (vs.map FieldValue.wireSize).sum)
  size : (vs.map FieldValue.wireSize).sum ≤ rest.length
  exact : ∀ v ∈ vs, v.quantised = v

theorem decodeFields_ok {p : Config.Params} {o : List Byte} {fs : List Nat} {rest : List Byte} {acc rec : Record}
    {n m : Nat} (h : decodeFields p o fs rest acc n = .ok (rec, m)) :
    ∃ vs, Reads p o fs rest vs ∧ rec = acc.putAll vs ∧ m = n + (vs.map FieldValue.wireSize).sum := by
  induction fs generalizing rest acc n with
  | nil =>
    simp only [decodeFields, Except.ok.injEq, Prod.mk.injEq] at h
    obtain ⟨rfl, rfl⟩ := h
    exact ⟨[], ⟨rfl, by simp [joinWire], by simp, by simp⟩, rfl, rfl⟩
  | cons f fs ih =>
    simp only [decodeFields] at h
    split at h
    · rename_i hd
      split at h
      · cases h
      · rename_i fld hfld
        split at h
        · cases h
        · rename_i v size hat
          obtain ⟨vs, hr, rfl, rfl⟩ := ih h
          obtain ⟨hf, ht, hq, hs, hl, -, -⟩ := fieldAt_ok hat
          subst hs
          refine ⟨v :: vs, ⟨?_, ?_, ?_, ?_⟩, rfl, ?_⟩
          · simp [hd, hfld, hf, hr.fields]
          · rw [List.map_cons, joinWire_cons_ok]
            refine ⟨_, _, ht, hr.octets, ?_⟩
            rw [List.map_cons, List.sum_cons, List.take_add]
          · have := hr.size
            rw [List.length_drop] at this
            simp only [List.map_cons, List.sum_cons]; omega
          · intro w hw
            rcases List.mem_cons.1 hw with rfl | hw
            · exact hq
            · exact hr.exact w hw
          · simp only [List.map_cons, List.sum_cons]; omega
    · rename_i hd
      obtain ⟨vs, hr, hrec, hm⟩ := ih h
      refine ⟨vs, ⟨?_, hr.octets, hr.size, hr.exact⟩, hrec, hm⟩
      simp [hd, hr.fields]

/-- The loop reads back values that were written in order, whatever follows them. -/
theorem decodeFields_toWire {p : Config.Params} {o : List Byte} {fs : List Nat} {vs : List FieldValue}
    {body : List Byte} (hf : (fs.filter (declared o)).map Field.ofFrn = vs.map fun v => some v.field)
    (hb : joinWire (vs.map (toWire p)) = .ok body) (more : List Byte) (acc : Record) (n : Nat) :
    decodeFields p o fs (body ++ more) acc n = .ok (acc.putAll (vs.map FieldValue.quantised), n + body.length) := by
  induction fs generalizing vs body acc n with
  | nil =>
    cases vs with
    | nil =>
      simp only [List.map_nil, joinWire_nil_ok] at hb
      subst hb
      rfl
    | cons v vs => simp at hf
  | cons f fs ih =>
    simp only [decodeFields]
    by_cases hd : declared o f = true
    · rw [if_pos hd]
      cases vs with
      | nil => simp [hd] at hf
      | cons v vs =>
        simp only [List.filter_cons, hd, if_true, List.map_cons, List.cons.injEq] at hf
        obtain ⟨hfv, hf⟩ := hf
        obtain ⟨a, b, ha, hb', rfl⟩ := joinWire_cons_ok.1 hb
        simp only [hfv, List.append_assoc, fieldAt_toWire ha]
        rw [List.drop_left, ih hf hb']
        simp only [List.map_cons, Record.putAll, List.foldl_cons, List.length_append, Nat.add_assoc]
    · rw [if_neg hd]
      refine ih ?_ hb acc n
      simpa [List.filter_cons, hd] using hf

theorem decodeFields_error {p : Config.Params} {o : List Byte} {fs : List Nat} {rest : List Byte} {acc : Record}
    {n : Nat} {k : ErrorKind} (h : decodeFields p o fs rest acc n = .error k) :
    k = .sizeInvalid ∨ k = .itemUnsupported := by
  induction fs generalizing rest acc n with
  | nil => simp [decodeFields] at h
  | cons f fs ih =>
    simp only [decodeFields] at h
    split at h
    · split at h
      · injection h with h; exact .inr h.symm
      · split at h
        · injection h with h; subst h; exact fieldAt_error ‹_›
        · exact ih h
    · exact ih h

/-- The loop over two runs of FRNs is the loop over the first and then, where that one ended, over the second. -/
theorem decodeFields_append (p : Config.Params) (o : List Byte) (fs gs : List Nat) (rest : List Byte) (acc : Record)
    (n : Nat) : decodeFields p o (fs ++ gs) rest acc n =
      match decodeFields p o fs rest acc n with
      | .error k => .error k
      | .ok (rec, m) => decodeFields p o gs (rest.drop (m - n)) rec m := by
  induction fs generalizing rest acc n with
  | nil => simp [decodeFields]
  | cons f fs ih =>
    simp only [List.cons_append, decodeFields]
    by_cases hd : declared o f = true
    · simp only [hd, if_true]
      cases Field.ofFrn f with
      | none => rfl
      | some fld =>
        simp only
        cases fieldAt p fld rest with
        | error k => rfl
        | ok d =>
          obtain ⟨v, size⟩ := d
          simp only [ih]
          cases hx : decodeFields p o fs (rest.drop size) (acc.put v) (n + size) with
          | error k => rfl
          | ok e =>
            obtain ⟨rec, m⟩ := e
            obtain ⟨vs, -, -, hm⟩ := decodeFields_ok hx
            simp only [List.drop_drop]
            rw [show size + (m - (n + size)) = m - n by omega]
    · simp only [hd]; exact ih _ _ _

/-- `OFS.Q` walks as the loop over the fields does without MT_STRICT: sizes only (43_record_engine.md R174, R176). -/
theorem offsetWalk_lenient (p : Config.Params) (o : List Byte) (gs : List Nat) (rest : List Byte) (acc : Record)
    (n : Nat) : offsetWalk p o gs rest n = (decodeFields (lenient p) o gs rest acc n).map Prod.snd := by
  induction gs generalizing rest acc n with
  | nil => rfl
  | cons g gs ih =>
    simp only [offsetWalk, decodeFields]
    by_cases hd : declared o g = true
    · simp only [hd, if_true]
      cases Field.ofFrn g with
      | none => rfl
      | some fld =>
        have hl : fieldSize (lenient p) fld rest = fieldSize p fld rest := rfl
        simp only
        cases hs : fieldSize p fld rest with
        | error k => simp only [fieldAt, hl, hs]; rfl
        | ok size =>
          rw [hs] at hl
          rcases fromWire_of_size hl with ⟨v, hv⟩ | ⟨-, h, -⟩
          · simp only [fieldAt, hl, hv]; exact ih _ _ _
          · cases h
    · simp only [hd]; exact ih _ _ _

/-- Which declared field fails, and how: no codec, or what reading it at the cursor raises (43_record_engine.md
R172). -/
theorem fieldFails_iff {p : Config.Params} {f : Nat} {more : List Byte} {k : ErrorKind} (h1 : 1 ≤ f) (h14 : f ≤ 14) :
    FieldFails p f more k ↔ (Field.ofFrn f = none ∧ k = .itemUnsupported) ∨
      ∃ fld, Field.ofFrn f = some fld ∧ fieldAt p fld more = .error k := by
  constructor
  · rintro (h | @⟨_, _, fld, n, h, size, short⟩ | ⟨h, failed⟩ | @⟨m, more, strict, outside⟩)
    · left
      simp only [List.mem_cons, List.not_mem_nil, or_false] at h
      rcases h with rfl | rfl | rfl | rfl | rfl <;> exact ⟨rfl, rfl⟩
    · exact .inr ⟨fld, h, by simp only [fieldAt, fieldSize, size, if_neg (show ¬ n ≤ more.length by omega)]⟩
    · right
      rcases h with rfl | rfl
      · exact ⟨.scs, rfl, by simp only [fieldAt, fieldSize, Field.fixedSize, failed]⟩
      · exact ⟨.spm, rfl, by simp only [fieldAt, fieldSize, Field.fixedSize, failed]⟩
    · have hm : messageTypeOk p m = false := by simp [messageTypeOk, strict]; omega
      exact .inr ⟨.mty, rfl, by simp [fieldAt, fieldSize, Field.fixedSize, fromWire, fixedValue, hm]⟩
  · rintro (⟨hn, rfl⟩ | ⟨fld, hf, h⟩)
    · refine .noCodec ?_
      revert hn
      interval_cases f <;> decide
    · unfold fieldAt at h
      cases hs : fieldSize p fld more with
      | error k' =>
        rw [hs] at h; injection h with h; subst h
        unfold fieldSize at hs
        cases hfs : fld.fixedSize with
        | some n =>
          rw [hfs] at hs; simp only at hs
          split at hs
          · cases hs
          · injection hs with hs; subst hs; exact .cutOff hf hfs (by omega)
        | none =>
          rw [hfs] at hs; simp only at hs
          refine .item ?_ hs
          unfold Field.ofFrn at hf
          split at hf <;> cases hf <;> first
            | exact .inl rfl
            | exact .inr rfl
            | cases hfs
      | ok n =>
        rw [hs] at h; simp only at h
        rcases fromWire_of_size hs with ⟨v, hv⟩ | ⟨rfl, strict, he⟩
        · rw [hv] at h; cases h
        · rw [he] at h; injection h with h; subst h
          obtain rfl : f = 2 := Field.ofFrn_injective hf rfl
          obtain ⟨hl, -, hh⟩ := fieldSize_ok hs
          obtain rfl : 1 = n := by simpa [Field.fixedSize] using hh
          cases more with
          | nil => simp at hl
          | cons m more =>
            refine .messageType strict ?_
            have : ¬ messageTypeOk p m = true := fun hm => by simp [fromWire, Field.fixedSize, fixedValue, hm] at he
            simp [messageTypeOk, strict] at this
            omega

/-! ## The values of a record -/

/-- The values of the present slots in ascending FRN order. -/
def Record.values (rec : Record) : List FieldValue := codecFields.filterMap rec.get

theorem Record.values_fields (rec : Record) : (rec.values.map FieldValue.field).Sublist codecFields := by
  unfold Record.values
  generalize codecFields = l
  induction l with
  | nil => simp
  | cons f l ih =>
    rw [List.filterMap_cons]
    split
    · exact ih.cons _
    · rename_i v hv
      rw [List.map_cons, Record.get_field hv]
      exact ih.cons_cons _

theorem Record.values_nodup (rec : Record) : (rec.values.map FieldValue.field).Nodup :=
  rec.values_fields.nodup codecFields_nodup

theorem presentFrns_fields (rec : Record) :
    (presentFrns rec).map Field.ofFrn = rec.values.map fun v => some v.field := by
  have key : ∀ l : List Nat, (l.filter (present rec)).map Field.ofFrn =
      ((l.filterMap Field.ofFrn).filterMap rec.get).map fun v => some v.field := by
    intro l
    induction l with
    | nil => rfl
    | cons f l ih =>
      rw [List.filter_cons, List.filterMap_cons]
      cases hf : Field.ofFrn f with
      | none => simp [present, hf, ih]
      | some x =>
        cases hx : rec.get x with
        | none => simp [present, hf, hx, ih]
        | some v => simp [present, hf, hx, ih, Record.get_field hx]
  rw [presentFrns, key, allFrns_fields, Record.values]

theorem Record.find_values (rec : Record) (f : Field) : (rec.values.find? fun v => v.field = f) = rec.get f := by
  have key : ∀ l : List Field, f ∈ l → ((l.filterMap rec.get).find? fun v => v.field = f) = rec.get f := by
    intro l hl
    induction l with
    | nil => simp at hl
    | cons x l ih =>
      rw [List.filterMap_cons]
      by_cases hx : x = f
      · subst hx
        cases hg : rec.get x with
        | some v => simp [Record.get_field hg]
        | none =>
          by_cases hm : x ∈ l
          · simpa [hg] using ih hm
          · simp only
            rw [List.find?_eq_none]
            intro w hw
            obtain ⟨y, hy, hyw⟩ := List.mem_filterMap.1 hw
            have := Record.get_field hyw
            simp only [decide_eq_true_eq]
            intro e
            exact hm (e ▸ this ▸ hy)
      · have hm : f ∈ l := by rcases List.mem_cons.1 hl with rfl | h <;> [exact absurd rfl hx; exact h]
        cases hg : rec.get x with
        | none => exact ih hm
        | some v =>
          rw [List.find?_cons, ih hm]
          simp [Record.get_field hg, hx]
  exact key codecFields (mem_codecFields f)

/-- The quantised values of a record rebuild its quantised form. -/
theorem Record.putAll_quantised (rec : Record) :
    Record.empty.putAll (rec.values.map FieldValue.quantised) = rec.quantised := by
  have hfield : ∀ v : FieldValue, v.quantised.field = v.field := fun v => by cases v <;> rfl
  refine Record.ext_get fun f => ?_
  rw [Record.get_putAll, Record.get_empty, Record.get_quantised, ← rec.find_values f, List.find?_map]
  · simp only [Function.comp_def, hfield, Option.or_none]
  · simpa [List.map_map, Function.comp_def, hfield] using rec.values_nodup

/-- Values in ascending order of their fields are the values of the record they build. -/
theorem Record.values_putAll {vs : List FieldValue} (h : (vs.map FieldValue.field).Sublist codecFields) :
    (Record.empty.putAll vs).values = vs := by
  have hn : (vs.map FieldValue.field).Nodup := h.nodup codecFields_nodup
  have e : (Record.empty.putAll vs).get = fun f => vs.find? fun v => v.field = f := by
    funext f; rw [Record.get_putAll hn, Record.get_empty, Option.or_none]
  rw [Record.values, e]
  clear e hn
  have hl := codecFields_nodup
  revert vs
  generalize codecFields = l at hl ⊢
  induction l with
  | nil => intro vs h; simpa using h
  | cons f l ih =>
    intro vs h
    rw [List.nodup_cons] at hl
    rw [List.filterMap_cons]
    by_cases hm : f ∈ vs.map FieldValue.field
    · cases vs with
      | nil => simp at hm
      | cons v vs =>
        have hvf : v.field = f := by
          rw [List.map_cons] at h
          rcases List.sublist_cons_iff.1 h with h' | ⟨r, hr, _⟩
          · exact absurd (h'.subset (by simpa using hm)) hl.1
          · injection hr
        have h' : (vs.map FieldValue.field).Sublist l := by
          rw [List.map_cons, hvf] at h
          exact List.cons_sublist_cons.1 h
        simp only [List.find?_cons, hvf, decide_true]
        congr 1
        rw [← ih hl.2 h']
        refine List.filterMap_congr fun g hg => ?_
        rw [ih hl.2 h']
        simp [show f ≠ g from fun e => hl.1 (e ▸ hg)]
    · have hnone : (vs.find? fun v => v.field = f) = none := by
        rw [List.find?_eq_none]
        intro w hw
        simp only [decide_eq_true_eq]
        exact fun e => hm (e ▸ List.mem_map_of_mem hw)
      rw [hnone]
      refine ih hl.2 ?_
      rcases List.sublist_cons_iff.1 h with h' | ⟨r, hr, _⟩
      · exact h'
      · exact absurd (by rw [hr]; simp) hm

/-! ## The engine whole -/

theorem recEnc_ok {p : Config.Params} {rec : Record} {bs : List Byte} :
    recEnc p rec = .ok bs ↔ ∃ body, joinWire (rec.values.map (toWire p)) = .ok body ∧
      bs = fspecBuild (presentFrns rec) ++ body := by
  unfold recEnc fieldsToWire
  change (match joinWire (rec.values.map (toWire p)) with | .ok body => _ | .error k => _) = _ ↔ _
  cases joinWire (rec.values.map (toWire p)) <;> simp [eq_comm]

theorem recEnc_error {p : Config.Params} {rec : Record} {k : ErrorKind} :
    recEnc p rec = .error k ↔ joinWire (rec.values.map (toWire p)) = .error k := by
  unfold recEnc fieldsToWire
  change (match joinWire (rec.values.map (toWire p)) with | .ok body => _ | .error k => _) = _ ↔ _
  cases joinWire (rec.values.map (toWire p)) <;> simp

/-- A record's octets followed by anything decode to the quantised record (43_record_engine.md R180). -/
theorem recDec_recEnc {p : Config.Params} {rec : Record} {bs : List Byte} (h : recEnc p rec = .ok bs)
    (more : List Byte) : recDec p (bs ++ more) = .ok (rec.quantised, bs.length) := by
  obtain ⟨body, hb, rfl⟩ := recEnc_ok.1 h
  have hf := presentFrns_fields rec
  have hc := chainFrns_fspecBuild (present rec)
  rw [recDec, List.append_assoc, show presentFrns rec = allFrns.filter (present rec) from rfl,
    fspecParse_fspecBuild]
  simp only [List.drop_left]
  rw [decodeFields_toWire (vs := rec.values) (by rw [← hf]; exact congrArg _ hc) hb, Record.putAll_quantised]
  simp

/-- What a successful `rec_dec` read (43_record_engine.md R172). -/
theorem recDec_ok {p : Config.Params} {bs : List Byte} {rec : Record} {n : Nat} (h : recDec p bs = .ok (rec, n)) :
    ∃ o more, fspecParse bs = .ok o ∧ bs = o ++ more ∧ Reads p o allFrns more rec.values ∧
      n = o.length + (rec.values.map FieldValue.wireSize).sum ∧ rec.quantised = rec ∧
      (rec.values.map FieldValue.field) = (chainFrns o).filterMap Field.ofFrn := by
  unfold recDec at h
  split at h
  · cases h
  · rename_i o ho
    obtain ⟨more, hbs, -⟩ := fspecParse_ok ho
    subst hbs
    rw [List.drop_left] at h
    obtain ⟨vs, hr, rfl, rfl⟩ := decodeFields_ok h
    have hfm : vs.map FieldValue.field = (chainFrns o).filterMap Field.ofFrn := by
      have := congrArg (List.filterMap id) hr.fields
      rw [List.filterMap_map, List.filterMap_map] at this
      simp only [Function.comp_def, id] at this
      rw [chainFrns, this, List.filterMap_eq_map']
    have hsub : (vs.map FieldValue.field).Sublist codecFields := by
      rw [hfm, ← allFrns_fields]
      exact (List.filter_sublist (p := declared o)).filterMap _
    have hv := Record.values_putAll hsub
    refine ⟨o, more, ho, rfl, ?_, ?_, ?_, ?_⟩
    · rw [hv]; exact hr
    · rw [hv]
    · rw [← Record.putAll_quantised, hv]
      congr 1
      exact (List.map_congr_left hr.exact).trans (List.map_id' vs)
    · rw [hv, hfm]

/-- Presence is what the chain declares (43_record_engine.md R181). -/
theorem present_of_recDec {p : Config.Params} {bs o : List Byte} {rec : Record} {n : Nat}
    (h : recDec p bs = .ok (rec, n)) (ho : fspecParse bs = .ok o) {f : Nat} (h1 : 1 ≤ f) (h14 : f ≤ 14) :
    present rec f = declared o f := by
  obtain ⟨o', more, ho', -, hr, -, -, hf⟩ := recDec_ok h
  rw [ho] at ho'; injection ho' with e; subst e
  have hmem : ∀ x : Field, (rec.get x).isSome ↔ x ∈ rec.values.map FieldValue.field := by
    intro x
    rw [← rec.find_values x, List.find?_isSome]
    simp
  rw [Bool.eq_iff_iff]
  constructor
  · intro hp
    unfold present at hp
    split at hp
    · rename_i x hx
      rw [hmem, hf] at hp
      obtain ⟨g, hg, hgx⟩ := List.mem_filterMap.1 hp
      rw [Field.ofFrn_injective hx hgx]
      exact (List.mem_filter.1 hg).2
    · cases hp
  · intro hd
    have hin : Field.ofFrn f ∈ (allFrns.filter (declared o)).map Field.ofFrn :=
      List.mem_map_of_mem (List.mem_filter.2 ⟨mem_allFrns.2 ⟨h1, h14⟩, hd⟩)
    rw [hr.fields] at hin
    obtain ⟨v, hv, hx⟩ := List.mem_map.1 hin
    unfold present
    rw [← hx]
    exact (hmem _).2 (List.mem_map_of_mem hv)

theorem presentFrns_of_recDec {p : Config.Params} {bs o : List Byte} {rec : Record} {n : Nat}
    (h : recDec p bs = .ok (rec, n)) (ho : fspecParse bs = .ok o) : presentFrns rec = chainFrns o :=
  List.filter_congr fun f hf => by
    rw [mem_allFrns] at hf; exact present_of_recDec h ho hf.1 hf.2

/-- Decode then encode gives a canonical record's octets back (43_record_engine.md R180). -/
theorem recEnc_recDec {p : Config.Params} {bs o : List Byte} {rec : Record} {n : Nat}
    (h : recDec p bs = .ok (rec, n)) (ho : fspecParse bs = .ok o) :
    recEnc p rec = .ok (fspecBuild (chainFrns o) ++ (bs.drop o.length).take (n - o.length)) ∧
      o.length ≤ n ∧ n ≤ bs.length := by
  have hp := presentFrns_of_recDec h ho
  obtain ⟨o', more, ho', rfl, hr, hn, -, -⟩ := recDec_ok h
  rw [ho] at ho'; injection ho' with e; subst e
  have hsz := hr.size
  refine ⟨recEnc_ok.2 ⟨_, hr.octets, ?_⟩, by omega, by rw [List.length_append]; omega⟩
  rw [hp, List.drop_left, hn, Nat.add_sub_cancel_left]

theorem recDec_error {p : Config.Params} {bs : List Byte} {k : ErrorKind} (h : recDec p bs = .error k) :
    k = .sizeInvalid ∨ k = .itemUnsupported := by
  unfold recDec at h
  split at h
  · injection h with h; subst h; exact .inl (fspecParse_error ‹_›)
  · exact decodeFields_error h

/-- Sizes of values (43_record_engine.md R174, R179). -/
theorem toWire_length {p : Config.Params} {v : FieldValue} {bs : List Byte} (h : toWire p v = .ok bs) :
    bs.length = v.wireSize := (fromWire_toWire h).2.1

theorem joinWire_length {p : Config.Params} {vs : List FieldValue} {body : List Byte}
    (h : joinWire (vs.map (toWire p)) = .ok body) : body.length = (vs.map FieldValue.wireSize).sum := by
  induction vs generalizing body with
  | nil => rw [joinWire_nil_ok.1 h]; rfl
  | cons v vs ih =>
    obtain ⟨a, b, ha, hb, rfl⟩ := joinWire_cons_ok.1 h
    rw [List.length_append, toWire_length ha, ih hb, List.map_cons, List.sum_cons]

end Sys2Proof.Machine
end

