-- ==== Sys2Proof/Laws/MessageEngine.lean ====
section
/-! SUPPORT. The header codec and the message walk (40_header.md R100, R101; 44_message_engine.md R190 to R195). -/

namespace Sys2Proof.Machine

/-! ## Header -/

theorem hdrEnc_eq (c : Byte) (l : Half) :
    hdrEnc c l = [c, BitVec.ofNat 8 (l.toNat / 256), BitVec.ofNat 8 (l.toNat % 256)] := by
  simp only [hdrEnc, beBytes_succ, beBytes_zero, pow_one, pow_zero, Nat.div_one]
  congr 3
  apply BitVec.eq_of_toNat_eq
  simp

theorem hdrDec_cons (a b c : Byte) (more : List Byte) :
    hdrDec (a :: b :: c :: more) = .ok (a, BitVec.ofNat 16 (b.toNat * 256 + c.toNat)) := by
  simp [hdrDec, Config.hdrLen, beNat_pair]

theorem hdrDec_short {bs : List Byte} (h : bs.length < 3) : hdrDec bs = .error .sizeInvalid := by
  simp [hdrDec, Config.hdrLen, h]

/-- `hdr_dec(hdr_enc(c, l)) = (c, l)`, whatever follows (40_header.md R101). -/
theorem hdrDec_hdrEnc (c : Byte) (l : Half) (more : List Byte) : hdrDec (hdrEnc c l ++ more) = .ok (c, l) := by
  rw [hdrEnc_eq]
  simp only [List.cons_append, List.nil_append, hdrDec_cons]
  have := l.isLt
  congr 2
  apply BitVec.eq_of_toNat_eq
  simp
  omega

/-- Every outcome of the header's tests, in order (44_message_engine.md R192). -/
theorem headerCheck_cases (c : Byte) (l : Half) (n : Nat) :
    (n < 3 ∧ headerCheck c l n = .error .sizeInvalid) ∨
    (3 ≤ n ∧ l.toNat ≠ n ∧ headerCheck c l n = .error .sizeInvalid) ∨
    (3 ≤ n ∧ l.toNat = n ∧ c ≠ 34#8 ∧ headerCheck c l n = .error .categoryInvalid) ∨
    (3 ≤ n ∧ l.toNat = n ∧ c = 34#8 ∧ headerCheck c l n = .ok ()) := by
  simp only [headerCheck, Config.hdrLen, Config.cat]
  rcases Nat.lt_or_ge n 3 with h | h
  · exact .inl ⟨h, by simp [h]⟩
  · have h' : ¬ n < 3 := by omega
    by_cases hl : l.toNat = n
    · by_cases hc : c = 34#8
      · exact .inr (.inr (.inr ⟨h, hl, hc, by simp [h', hl, hc]⟩))
      · exact .inr (.inr (.inl ⟨h, hl, hc, (if_neg h').trans ((if_neg (by simpa using hl)).trans (if_pos hc))⟩))
    · exact .inr (.inl ⟨h, hl, by simp [h', hl]⟩)

/-! ## The walk -/

/-- Done and Failed are terminal (44_message_engine.md R194). -/
def MsgWalk.ended (m : MsgWalk) : Prop := m.ph = .done ∨ ∃ k, m.ph = .failed k

theorem msgStep_ended {p : Config.Params} {buf : List Byte} {m : MsgWalk} (h : m.ended) : msgStep p buf m = m := by
  rcases h with h | ⟨k, h⟩ <;> simp [msgStep, h]

theorem msgRun_ended {p : Config.Params} {buf : List Byte} {m : MsgWalk} (h : m.ended) (n : Nat) :
    msgRun p buf n m = m := by
  induction n with
  | zero => rfl
  | succ n ih => rw [msgRun, msgStep_ended h, ih]

theorem recDec_consumes {p : Config.Params} {bs : List Byte} {rec : Record} {n : Nat}
    (h : recDec p bs = .ok (rec, n)) : 1 ≤ n ∧ n ≤ bs.length := by
  obtain ⟨o, more, ho, rfl, hr, hn, -, -⟩ := recDec_ok h
  have hsz := hr.size
  obtain ⟨m', -, h' | h'⟩ := fspecParse_ok ho
  · obtain ⟨a, rfl, -⟩ := h'; simp only [List.length_append, List.length_singleton] at hn ⊢; omega
  · obtain ⟨a, b, rfl, -⟩ := h'; simp only [List.length_append, List.length_cons, List.length_nil] at hn ⊢; omega

/-- From phase ReadRecord the walk ends, and in Done the cursor is the declared length (44_message_engine.md R194). -/
theorem msgRun_ends {p : Config.Params} {buf : List Byte} {m : MsgWalk} (hp : m.ph = .readRecord)
    (hl : m.len.toNat = buf.length) (hc : m.cur ≤ buf.length) {n : Nat} (hn : buf.length - m.cur + 1 ≤ n) :
    let r := msgRun p buf n m
    (∃ k, r.ph = .failed k) ∨
    (r.ph = .done ∧ r.cur = buf.length ∧ r.cat = m.cat ∧ r.len = m.len ∧
      r.recs.length + m.cur ≤ m.recs.length + buf.length) := by
  induction n generalizing m with
  | zero => omega
  | succ n ih =>
    simp only [msgRun]
    by_cases h : m.cur < m.len.toNat
    · cases hd : recDec p (buf.drop m.cur) with
      | error k =>
        have e : msgStep p buf m = { m with ph := .failed k } := by simp only [msgStep, hp, if_pos h, hd]
        rw [e, msgRun_ended (.inr ⟨k, rfl⟩)]
        exact .inl ⟨k, rfl⟩
      | ok d =>
        obtain ⟨rec, c⟩ := d
        have hb := recDec_consumes hd
        rw [List.length_drop] at hb
        have e : msgStep p buf m = { m with cur := m.cur + c, recs := m.recs ++ [rec] } := by
          simp only [msgStep, hp, if_pos h, hd]
        rw [e]
        have := ih (m := { m with cur := m.cur + c, recs := m.recs ++ [rec] }) hp hl (by simp only; omega)
          (by simp only; omega)
        rcases this with h' | ⟨h1, h2, h3, h4, h5⟩
        · exact .inl h'
        · refine .inr ⟨h1, h2, h3, h4, ?_⟩
          simp only [List.length_append, List.length_singleton] at h5
          omega
    · have e : msgStep p buf m = { m with ph := .done } := by simp only [msgStep, hp, if_neg h]
      rw [e, msgRun_ended (.inl rfl)]
      exact .inr ⟨rfl, by simp only; omega, rfl, rfl, by simp only; omega⟩

theorem recEnc_length_pos {p : Config.Params} {rec : Record} {bs : List Byte} (h : recEnc p rec = .ok bs) :
    1 ≤ bs.length := by
  obtain ⟨body, -, rfl⟩ := recEnc_ok.1 h
  rw [List.length_append, show presentFrns rec = allFrns.filter (present rec) from rfl, fspecBuild_length]
  split <;> omega

/-- The walk over the octets of encoded records reads them all (44_message_engine.md R195). -/
theorem msgRun_reads {p : Config.Params} {buf : List Byte} {recs : List Record} {m : MsgWalk} {body : List Byte}
    (hp : m.ph = .readRecord) (hl : m.len.toNat = buf.length) (hc : m.cur ≤ buf.length)
    (hb : joinWire (recs.map (recEnc p)) = .ok body) (hd : buf.drop m.cur = body) {n : Nat}
    (hn : recs.length + 1 ≤ n) :
    msgRun p buf n m =
      { m with ph := .done, cur := buf.length, recs := m.recs ++ recs.map Record.quantised } := by
  induction recs generalizing m body n with
  | nil =>
    rw [List.map_nil, joinWire_nil_ok] at hb
    subst hb
    have hlen := congrArg List.length hd
    rw [List.length_drop, List.length_nil] at hlen
    obtain ⟨n, rfl⟩ : ∃ k, n = k + 1 := ⟨n - 1, by omega⟩
    have e : msgStep p buf m = { m with ph := .done } := by
      simp only [msgStep, hp, if_neg (show ¬ m.cur < m.len.toNat by omega)]
    rw [msgRun, e, msgRun_ended (.inl rfl)]
    simp [show m.cur = buf.length by omega]
  | cons rec recs ih =>
    rw [List.map_cons] at hb
    obtain ⟨a, b, ha, hb', rfl⟩ := joinWire_cons_ok.1 hb
    have hlen := congrArg List.length hd
    rw [List.length_drop, List.length_append] at hlen
    have hpos := recEnc_length_pos ha
    obtain ⟨n, rfl⟩ : ∃ k, n = k + 1 := ⟨n - 1, by omega⟩
    have e : msgStep p buf m = { m with cur := m.cur + a.length, recs := m.recs ++ [rec.quantised] } := by
      simp only [msgStep, hp, if_pos (show m.cur < m.len.toNat by omega), hd, recDec_recEnc ha b]
    rw [msgRun, e]
    simp only [List.length_cons] at hn
    have hd' : buf.drop (m.cur + a.length) = b := by rw [← List.drop_drop, hd, List.drop_left]
    rw [ih (m := { m with cur := m.cur + a.length, recs := m.recs ++ [rec.quantised] }) (n := n) hp hl
      (by simp only; omega) hb' hd' (by omega)]
    simp

theorem joinWire_length_ge {p : Config.Params} {recs : List Record} {body : List Byte}
    (h : joinWire (recs.map (recEnc p)) = .ok body) : recs.length ≤ body.length := by
  induction recs generalizing body with
  | nil => simp
  | cons rec recs ih =>
    rw [List.map_cons] at h
    obtain ⟨a, b, ha, hb, rfl⟩ := joinWire_cons_ok.1 h
    have := recEnc_length_pos ha
    have := ih hb
    simp only [List.length_cons, List.length_append]; omega

/-- Records with canonical chains encode to the octets they were read from (44_message_engine.md R195). -/
theorem CanonicalRecords.encode {p : Config.Params} {bs : List Byte} (h : CanonicalRecords p bs) :
    ∃ recs : List Record, joinWire (recs.map (recEnc p)) = .ok bs ∧ recs.map Record.quantised = recs := by
  induction h with
  | ended => exact ⟨[], rfl, rfl⟩
  | @record bs o rec n ho hc hr _ ih =>
    obtain ⟨recs, h1, h2⟩ := ih
    obtain ⟨he, hle, -⟩ := recEnc_recDec hr ho
    obtain ⟨o', more, ho', hbs, -, -, hq, -⟩ := recDec_ok hr
    rw [ho] at ho'; cases ho'
    refine ⟨rec :: recs, ?_, by simp [h2, hq]⟩
    rw [List.map_cons, joinWire_cons_ok]
    refine ⟨_, _, he, h1, ?_⟩
    obtain ⟨k, rfl⟩ : ∃ k, n = o.length + k := ⟨n - o.length, by omega⟩
    rw [show fspecBuild (chainFrns o) = o from of_decide_eq_true hc, hbs, List.drop_left, List.append_assoc,
      Nat.add_sub_cancel_left, ← List.drop_drop, List.drop_left, List.take_append_drop]

/-- Every outcome of `msg_enc` (44_message_engine.md R190). -/
theorem msgEnc_cases (p : Config.Params) (c : Byte) (recs : List Record) :
    (c ≠ 34#8 ∧ msgEnc p c recs = .error .categoryInvalid) ∨
    (c = 34#8 ∧ ∃ k, joinWire (recs.map (recEnc p)) = .error k ∧ msgEnc p c recs = .error k) ∨
    (c = 34#8 ∧ ∃ body, joinWire (recs.map (recEnc p)) = .ok body ∧ 65535 < 3 + body.length ∧
      msgEnc p c recs = .error .sizeInvalid) ∨
    (c = 34#8 ∧ ∃ body, joinWire (recs.map (recEnc p)) = .ok body ∧ 3 + body.length ≤ 65535 ∧
      msgEnc p c recs = .ok (hdrEnc c (BitVec.ofNat 16 (3 + body.length)) ++ body)) := by
  simp only [msgEnc, Config.cat, Config.hdrLen, Config.maxMessage]
  by_cases hc : c = 34#8
  · subst hc
    cases hj : joinWire (recs.map (recEnc p)) with
    | error k => exact .inr (.inl ⟨rfl, k, rfl, by simp⟩)
    | ok body =>
      rcases Nat.lt_or_ge 65535 (3 + body.length) with h | h
      · exact .inr (.inr (.inl ⟨rfl, body, rfl, h, by simp [h]⟩))
      · exact .inr (.inr (.inr ⟨rfl, body, rfl, h, by simp [show ¬ 65535 < 3 + body.length by omega]⟩))
  · exact .inl ⟨hc, if_pos hc⟩

/-- The octets of an encoded message decode to its records, quantised (44_message_engine.md R195). -/
theorem msgDec_msgEnc {p : Config.Params} {c : Byte} {recs : List Record} {bs : List Byte}
    (h : msgEnc p c recs = .ok bs) :
    msgDec p bs = .ok (34#8, BitVec.ofNat 16 bs.length, recs.map Record.quantised) ∧ bs.length ≤ 65535 := by
  rcases msgEnc_cases p c recs with ⟨_, e⟩ | ⟨_, k, _, e⟩ | ⟨_, b, _, _, e⟩ | ⟨rfl, body, hb, hle, e⟩ <;>
    rw [e] at h <;> cases h
  set l := BitVec.ofNat 16 (3 + body.length) with hldef
  have hl : l.toNat = 3 + body.length := by simp [hldef]; omega
  have hlen : (hdrEnc 34#8 l ++ body).length = 3 + body.length := by rw [hdrEnc_eq]; simp; omega
  refine ⟨?_, by rw [hlen]; exact hle⟩
  set buf := hdrEnc 34#8 l ++ body with hbuf
  have hdr : hdrDec buf = .ok (34#8, l) := hdrDec_hdrEnc _ _ _
  have hstep : msgStep p buf msgStart = { ph := .readRecord, cur := 3, cat := 34#8, len := l, recs := [] } := by
    rcases headerCheck_cases 34#8 l buf.length with ⟨h, _⟩ | ⟨_, h, _⟩ | ⟨_, _, h, _⟩ | ⟨_, _, _, h⟩
    · omega
    · omega
    · exact absurd rfl h
    · simp only [msgStep, msgStart, hdr, h, Config.hdrLen]
  have hdrop : buf.drop 3 = body := by rw [hbuf, hdrEnc_eq]; rfl
  have hge := joinWire_length_ge hb
  unfold msgDec
  rw [show buf.length + 2 = (buf.length + 1) + 1 from rfl, msgRun, hstep,
    msgRun_reads (m := { ph := .readRecord, cur := 3, cat := 34#8, len := l, recs := [] }) rfl
      (by rw [hlen]; exact hl) (by simp only; omega) hb hdrop (by omega)]
  simp only [List.nil_append]
  rw [hlen]

/-- Every outcome of the whole walk: it ends, and in Done the header's tests were passed (44_message_engine.md R192,
R194). -/
theorem msgRun_start (p : Config.Params) (buf : List Byte) :
    let m := msgRun p buf (buf.length + 2) msgStart
    (∃ k, m.ph = .failed k) ∨
    (m.ph = .done ∧ m.cur = m.len.toNat ∧ m.len.toNat = buf.length ∧ m.cat = 34#8 ∧
      m.recs.length + 3 ≤ buf.length) := by
  rw [show msgRun p buf (buf.length + 2) msgStart = msgRun p buf (buf.length + 1) (msgStep p buf msgStart) from rfl]
  cases hd : hdrDec buf with
  | error k =>
    have e : msgStep p buf msgStart = { msgStart with ph := .failed k } := by simp only [msgStep, msgStart, hd]
    rw [e, msgRun_ended (.inr ⟨k, rfl⟩)]
    exact .inl ⟨k, rfl⟩
  | ok h =>
    obtain ⟨c, l⟩ := h
    rcases headerCheck_cases c l buf.length with ⟨_, hk⟩ | ⟨_, _, hk⟩ | ⟨_, _, _, hk⟩ | ⟨h3, hl, hc, hk⟩
    case inr.inr.inr =>
      have e : msgStep p buf msgStart = { ph := .readRecord, cur := 3, cat := c, len := l, recs := [] } := by
        simp only [msgStep, msgStart, hd, hk, Config.hdrLen]
      rw [e]
      have := msgRun_ends (p := p) (buf := buf) (m := { ph := .readRecord, cur := 3, cat := c, len := l, recs := [] })
        rfl hl h3 (n := buf.length + 1) (by simp only; omega)
      rcases this with h' | ⟨h1, h2, h4, h5, h6⟩
      · exact .inl h'
      · refine .inr ⟨h1, by rw [h2, h5]; exact hl.symm, by rw [h5]; exact hl, by rw [h4]; exact hc, ?_⟩
        simp only [List.length_nil] at h6
        omega
    all_goals
      have e : (msgStep p buf msgStart).ended := by
        simp only [msgStep, msgStart, hd, hk]; exact .inr ⟨_, rfl⟩
      rw [msgRun_ended e]
      simp only [msgStep, msgStart, hd, hk]
      exact .inl ⟨_, rfl⟩

/-- A message that decodes has fewer records than octets. -/
theorem msgDec_ok {p : Config.Params} {buf : List Byte} {d : Byte × Half × List Record} (h : msgDec p buf = .ok d) :
    d.1 = 34#8 ∧ d.2.1.toNat = buf.length ∧ d.2.2.length + 3 ≤ buf.length := by
  have hs := msgRun_start p buf
  unfold msgDec at h
  simp only at h hs
  rcases hs with ⟨k, hk⟩ | ⟨h1, -, h2, h3, h4⟩
  · simp [hk] at h
  · simp only [h1, Except.ok.injEq] at h
    subst h
    exact ⟨h3, h2, h4⟩

end Sys2Proof.Machine
end

