-- ==== Sys2Proof/Laws/State.lean ====
section
/-! SUPPORT. One lemma for each field of State under each update of Machine/Ops.lean, HostPort.lean and WireRows.lean:
what the update writes, and that it leaves every other field as it was. -/

namespace Sys2Proof.Machine

section
variable (s : State)

@[simp] theorem State.finish_r (c : BitVec 3) : (s.finish c).r = s.r := rfl
@[simp] theorem State.finish_cur (c : BitVec 3) : (s.finish c).cur = Config.freeCursor s.freeCount := rfl
@[simp] theorem State.finish_t (c : BitVec 3) : (s.finish c).t = s.t := rfl
@[simp] theorem State.finish_status (c : BitVec 3) : (s.finish c).status = c := rfl
@[simp] theorem State.finish_rlen (c : BitVec 3) : (s.finish c).rlen = s.rlen := rfl
@[simp] theorem State.finish_ofs (c : BitVec 3) : (s.finish c).ofs = s.ofs := rfl
@[simp] theorem State.finish_hcat (c : BitVec 3) : (s.finish c).hcat = s.hcat := rfl
@[simp] theorem State.finish_hlen (c : BitVec 3) : (s.finish c).hlen = s.hlen := rfl
@[simp] theorem State.finish_fsb (c : BitVec 3) : (s.finish c).fsb = s.fsb := rfl
@[simp] theorem State.finish_fsp0 (c : BitVec 3) : (s.finish c).fsp0 = s.fsp0 := rfl
@[simp] theorem State.finish_fsp1 (c : BitVec 3) : (s.finish c).fsp1 = s.fsp1 := rfl
@[simp] theorem State.finish_flen (c : BitVec 3) : (s.finish c).flen = s.flen := rfl
@[simp] theorem State.finish_w (c : BitVec 3) : (s.finish c).w = s.w := rfl
@[simp] theorem State.finish_wlen (c : BitVec 3) : (s.finish c).wlen = s.wlen := rfl
@[simp] theorem State.finish_rs (c : BitVec 3) : (s.finish c).rs = s.rs := rfl
@[simp] theorem State.finish_buf (c : BitVec 3) : (s.finish c).buf = s.buf := rfl
@[simp] theorem State.finish_blen (c : BitVec 3) : (s.finish c).blen = s.blen := rfl
@[simp] theorem State.finish_ph (c : BitVec 3) : (s.finish c).ph = none := rfl
@[simp] theorem State.finish_freeCount (c : BitVec 3) : (s.finish c).freeCount = s.freeCount + 1 := rfl
@[simp] theorem State.finish_params (c : BitVec 3) : (s.finish c).params = s.params := rfl
@[simp] theorem State.finish_pending (c : BitVec 3) : (s.finish c).pending = s.pending := rfl

@[simp] theorem State.storeBuf_r (bs : List Byte) : (s.storeBuf bs).r = s.r := rfl
@[simp] theorem State.storeBuf_cur (bs : List Byte) : (s.storeBuf bs).cur = s.cur := rfl
@[simp] theorem State.storeBuf_t (bs : List Byte) : (s.storeBuf bs).t = s.t := rfl
@[simp] theorem State.storeBuf_status (bs : List Byte) : (s.storeBuf bs).status = s.status := rfl
@[simp] theorem State.storeBuf_rlen (bs : List Byte) : (s.storeBuf bs).rlen = s.rlen := rfl
@[simp] theorem State.storeBuf_ofs (bs : List Byte) : (s.storeBuf bs).ofs = s.ofs := rfl
@[simp] theorem State.storeBuf_hcat (bs : List Byte) : (s.storeBuf bs).hcat = s.hcat := rfl
@[simp] theorem State.storeBuf_hlen (bs : List Byte) : (s.storeBuf bs).hlen = s.hlen := rfl
@[simp] theorem State.storeBuf_fsb (bs : List Byte) : (s.storeBuf bs).fsb = s.fsb := rfl
@[simp] theorem State.storeBuf_fsp0 (bs : List Byte) : (s.storeBuf bs).fsp0 = s.fsp0 := rfl
@[simp] theorem State.storeBuf_fsp1 (bs : List Byte) : (s.storeBuf bs).fsp1 = s.fsp1 := rfl
@[simp] theorem State.storeBuf_flen (bs : List Byte) : (s.storeBuf bs).flen = s.flen := rfl
@[simp] theorem State.storeBuf_w (bs : List Byte) : (s.storeBuf bs).w = s.w := rfl
@[simp] theorem State.storeBuf_wlen (bs : List Byte) : (s.storeBuf bs).wlen = s.wlen := rfl
@[simp] theorem State.storeBuf_rs (bs : List Byte) : (s.storeBuf bs).rs = s.rs := rfl
@[simp] theorem State.storeBuf_buf (bs : List Byte) : (s.storeBuf bs).buf = Memory.writeBytes s.buf 0 bs := rfl
@[simp] theorem State.storeBuf_blen (bs : List Byte) : (s.storeBuf bs).blen = BitVec.ofNat 16 bs.length := rfl
@[simp] theorem State.storeBuf_ph (bs : List Byte) : (s.storeBuf bs).ph = s.ph := rfl
@[simp] theorem State.storeBuf_freeCount (bs : List Byte) : (s.storeBuf bs).freeCount = s.freeCount := rfl
@[simp] theorem State.storeBuf_params (bs : List Byte) : (s.storeBuf bs).params = s.params := rfl
@[simp] theorem State.storeBuf_pending (bs : List Byte) : (s.storeBuf bs).pending = s.pending := rfl

@[simp] theorem State.stage_r (bs : List Byte) : (s.stage bs).r = s.r := rfl
@[simp] theorem State.stage_cur (bs : List Byte) : (s.stage bs).cur = s.cur := rfl
@[simp] theorem State.stage_t (bs : List Byte) : (s.stage bs).t = s.t := rfl
@[simp] theorem State.stage_status (bs : List Byte) : (s.stage bs).status = s.status := rfl
@[simp] theorem State.stage_rlen (bs : List Byte) : (s.stage bs).rlen = s.rlen := rfl
@[simp] theorem State.stage_ofs (bs : List Byte) : (s.stage bs).ofs = s.ofs := rfl
@[simp] theorem State.stage_hcat (bs : List Byte) : (s.stage bs).hcat = s.hcat := rfl
@[simp] theorem State.stage_hlen (bs : List Byte) : (s.stage bs).hlen = s.hlen := rfl
@[simp] theorem State.stage_fsb (bs : List Byte) : (s.stage bs).fsb = s.fsb := rfl
@[simp] theorem State.stage_fsp0 (bs : List Byte) : (s.stage bs).fsp0 = s.fsp0 := rfl
@[simp] theorem State.stage_fsp1 (bs : List Byte) : (s.stage bs).fsp1 = s.fsp1 := rfl
@[simp] theorem State.stage_flen (bs : List Byte) : (s.stage bs).flen = s.flen := rfl
@[simp] theorem State.stage_w (bs : List Byte) : (s.stage bs).w = stageBytes s.w bs := rfl
@[simp] theorem State.stage_wlen (bs : List Byte) : (s.stage bs).wlen = Fin.ofNat 9 bs.length := rfl
@[simp] theorem State.stage_rs (bs : List Byte) : (s.stage bs).rs = s.rs := rfl
@[simp] theorem State.stage_buf (bs : List Byte) : (s.stage bs).buf = s.buf := rfl
@[simp] theorem State.stage_blen (bs : List Byte) : (s.stage bs).blen = s.blen := rfl
@[simp] theorem State.stage_ph (bs : List Byte) : (s.stage bs).ph = s.ph := rfl
@[simp] theorem State.stage_freeCount (bs : List Byte) : (s.stage bs).freeCount = s.freeCount := rfl
@[simp] theorem State.stage_params (bs : List Byte) : (s.stage bs).params = s.params := rfl
@[simp] theorem State.stage_pending (bs : List Byte) : (s.stage bs).pending = s.pending := rfl

@[simp] theorem State.setChain_r (o : List Byte) : (s.setChain o).r = s.r := rfl
@[simp] theorem State.setChain_cur (o : List Byte) : (s.setChain o).cur = s.cur := rfl
@[simp] theorem State.setChain_t (o : List Byte) : (s.setChain o).t = s.t := rfl
@[simp] theorem State.setChain_status (o : List Byte) : (s.setChain o).status = s.status := rfl
@[simp] theorem State.setChain_rlen (o : List Byte) : (s.setChain o).rlen = s.rlen := rfl
@[simp] theorem State.setChain_ofs (o : List Byte) : (s.setChain o).ofs = s.ofs := rfl
@[simp] theorem State.setChain_hcat (o : List Byte) : (s.setChain o).hcat = s.hcat := rfl
@[simp] theorem State.setChain_hlen (o : List Byte) : (s.setChain o).hlen = s.hlen := rfl
@[simp] theorem State.setChain_fsb (o : List Byte) : (s.setChain o).fsb = s.fsb := rfl
@[simp] theorem State.setChain_fsp0 (o : List Byte) : (s.setChain o).fsp0 = o.getD 0 0 := rfl
@[simp] theorem State.setChain_fsp1 (o : List Byte) : (s.setChain o).fsp1 = o.getD 1 0 := rfl
@[simp] theorem State.setChain_flen (o : List Byte) : (s.setChain o).flen = Fin.ofNat 3 o.length := rfl
@[simp] theorem State.setChain_w (o : List Byte) : (s.setChain o).w = s.w := rfl
@[simp] theorem State.setChain_wlen (o : List Byte) : (s.setChain o).wlen = s.wlen := rfl
@[simp] theorem State.setChain_rs (o : List Byte) : (s.setChain o).rs = s.rs := rfl
@[simp] theorem State.setChain_buf (o : List Byte) : (s.setChain o).buf = s.buf := rfl
@[simp] theorem State.setChain_blen (o : List Byte) : (s.setChain o).blen = s.blen := rfl
@[simp] theorem State.setChain_ph (o : List Byte) : (s.setChain o).ph = s.ph := rfl
@[simp] theorem State.setChain_freeCount (o : List Byte) : (s.setChain o).freeCount = s.freeCount := rfl
@[simp] theorem State.setChain_params (o : List Byte) : (s.setChain o).params = s.params := rfl
@[simp] theorem State.setChain_pending (o : List Byte) : (s.setChain o).pending = s.pending := rfl

@[simp] theorem State.putSlot_r (v : FieldValue) : (s.putSlot v).r = s.r.put v := rfl
@[simp] theorem State.putSlot_cur (v : FieldValue) : (s.putSlot v).cur = s.cur := rfl
@[simp] theorem State.putSlot_t (v : FieldValue) : (s.putSlot v).t = s.t := rfl
@[simp] theorem State.putSlot_status (v : FieldValue) : (s.putSlot v).status = s.status := rfl
@[simp] theorem State.putSlot_rlen (v : FieldValue) : (s.putSlot v).rlen = s.rlen := rfl
@[simp] theorem State.putSlot_ofs (v : FieldValue) : (s.putSlot v).ofs = s.ofs := rfl
@[simp] theorem State.putSlot_hcat (v : FieldValue) : (s.putSlot v).hcat = s.hcat := rfl
@[simp] theorem State.putSlot_hlen (v : FieldValue) : (s.putSlot v).hlen = s.hlen := rfl
@[simp] theorem State.putSlot_fsb (v : FieldValue) : (s.putSlot v).fsb = s.fsb := rfl
@[simp] theorem State.putSlot_fsp0 (v : FieldValue) : (s.putSlot v).fsp0 = s.fsp0 := rfl
@[simp] theorem State.putSlot_fsp1 (v : FieldValue) : (s.putSlot v).fsp1 = s.fsp1 := rfl
@[simp] theorem State.putSlot_flen (v : FieldValue) : (s.putSlot v).flen = s.flen := rfl
@[simp] theorem State.putSlot_w (v : FieldValue) : (s.putSlot v).w = s.w := rfl
@[simp] theorem State.putSlot_wlen (v : FieldValue) : (s.putSlot v).wlen = s.wlen := rfl
@[simp] theorem State.putSlot_rs (v : FieldValue) : (s.putSlot v).rs = s.rs := rfl
@[simp] theorem State.putSlot_buf (v : FieldValue) : (s.putSlot v).buf = s.buf := rfl
@[simp] theorem State.putSlot_blen (v : FieldValue) : (s.putSlot v).blen = s.blen := rfl
@[simp] theorem State.putSlot_ph (v : FieldValue) : (s.putSlot v).ph = s.ph := rfl
@[simp] theorem State.putSlot_freeCount (v : FieldValue) : (s.putSlot v).freeCount = s.freeCount := rfl
@[simp] theorem State.putSlot_params (v : FieldValue) : (s.putSlot v).params = s.params := rfl
@[simp] theorem State.putSlot_pending (v : FieldValue) : (s.putSlot v).pending = s.pending := rfl

@[simp] theorem State.setRecord_r (rec : Record) : (s.setRecord rec).r = rec := rfl
@[simp] theorem State.setRecord_cur (rec : Record) : (s.setRecord rec).cur = s.cur := rfl
@[simp] theorem State.setRecord_t (rec : Record) : (s.setRecord rec).t = s.t := rfl
@[simp] theorem State.setRecord_status (rec : Record) : (s.setRecord rec).status = s.status := rfl
@[simp] theorem State.setRecord_rlen (rec : Record) : (s.setRecord rec).rlen = s.rlen := rfl
@[simp] theorem State.setRecord_ofs (rec : Record) : (s.setRecord rec).ofs = s.ofs := rfl
@[simp] theorem State.setRecord_hcat (rec : Record) : (s.setRecord rec).hcat = s.hcat := rfl
@[simp] theorem State.setRecord_hlen (rec : Record) : (s.setRecord rec).hlen = s.hlen := rfl
@[simp] theorem State.setRecord_fsb (rec : Record) : (s.setRecord rec).fsb = s.fsb := rfl
@[simp] theorem State.setRecord_fsp0 (rec : Record) : (s.setRecord rec).fsp0 = s.fsp0 := rfl
@[simp] theorem State.setRecord_fsp1 (rec : Record) : (s.setRecord rec).fsp1 = s.fsp1 := rfl
@[simp] theorem State.setRecord_flen (rec : Record) : (s.setRecord rec).flen = s.flen := rfl
@[simp] theorem State.setRecord_w (rec : Record) : (s.setRecord rec).w = s.w := rfl
@[simp] theorem State.setRecord_wlen (rec : Record) : (s.setRecord rec).wlen = s.wlen := rfl
@[simp] theorem State.setRecord_rs (rec : Record) : (s.setRecord rec).rs = s.rs := rfl
@[simp] theorem State.setRecord_buf (rec : Record) : (s.setRecord rec).buf = s.buf := rfl
@[simp] theorem State.setRecord_blen (rec : Record) : (s.setRecord rec).blen = s.blen := rfl
@[simp] theorem State.setRecord_ph (rec : Record) : (s.setRecord rec).ph = s.ph := rfl
@[simp] theorem State.setRecord_freeCount (rec : Record) : (s.setRecord rec).freeCount = s.freeCount := rfl
@[simp] theorem State.setRecord_params (rec : Record) : (s.setRecord rec).params = s.params := rfl
@[simp] theorem State.setRecord_pending (rec : Record) : (s.setRecord rec).pending = s.pending := rfl

@[simp] theorem State.setRlen_r (n : Nat) : (s.setRlen n).r = s.r := rfl
@[simp] theorem State.setRlen_cur (n : Nat) : (s.setRlen n).cur = s.cur := rfl
@[simp] theorem State.setRlen_t (n : Nat) : (s.setRlen n).t = s.t := rfl
@[simp] theorem State.setRlen_status (n : Nat) : (s.setRlen n).status = s.status := rfl
@[simp] theorem State.setRlen_rlen (n : Nat) : (s.setRlen n).rlen = BitVec.ofNat 16 n := rfl
@[simp] theorem State.setRlen_ofs (n : Nat) : (s.setRlen n).ofs = s.ofs := rfl
@[simp] theorem State.setRlen_hcat (n : Nat) : (s.setRlen n).hcat = s.hcat := rfl
@[simp] theorem State.setRlen_hlen (n : Nat) : (s.setRlen n).hlen = s.hlen := rfl
@[simp] theorem State.setRlen_fsb (n : Nat) : (s.setRlen n).fsb = s.fsb := rfl
@[simp] theorem State.setRlen_fsp0 (n : Nat) : (s.setRlen n).fsp0 = s.fsp0 := rfl
@[simp] theorem State.setRlen_fsp1 (n : Nat) : (s.setRlen n).fsp1 = s.fsp1 := rfl
@[simp] theorem State.setRlen_flen (n : Nat) : (s.setRlen n).flen = s.flen := rfl
@[simp] theorem State.setRlen_w (n : Nat) : (s.setRlen n).w = s.w := rfl
@[simp] theorem State.setRlen_wlen (n : Nat) : (s.setRlen n).wlen = s.wlen := rfl
@[simp] theorem State.setRlen_rs (n : Nat) : (s.setRlen n).rs = s.rs := rfl
@[simp] theorem State.setRlen_buf (n : Nat) : (s.setRlen n).buf = s.buf := rfl
@[simp] theorem State.setRlen_blen (n : Nat) : (s.setRlen n).blen = s.blen := rfl
@[simp] theorem State.setRlen_ph (n : Nat) : (s.setRlen n).ph = s.ph := rfl
@[simp] theorem State.setRlen_freeCount (n : Nat) : (s.setRlen n).freeCount = s.freeCount := rfl
@[simp] theorem State.setRlen_params (n : Nat) : (s.setRlen n).params = s.params := rfl
@[simp] theorem State.setRlen_pending (n : Nat) : (s.setRlen n).pending = s.pending := rfl

@[simp] theorem State.setOfs_r (n : Nat) : (s.setOfs n).r = s.r := rfl
@[simp] theorem State.setOfs_cur (n : Nat) : (s.setOfs n).cur = s.cur := rfl
@[simp] theorem State.setOfs_t (n : Nat) : (s.setOfs n).t = s.t := rfl
@[simp] theorem State.setOfs_status (n : Nat) : (s.setOfs n).status = s.status := rfl
@[simp] theorem State.setOfs_rlen (n : Nat) : (s.setOfs n).rlen = s.rlen := rfl
@[simp] theorem State.setOfs_ofs (n : Nat) : (s.setOfs n).ofs = BitVec.ofNat 16 n := rfl
@[simp] theorem State.setOfs_hcat (n : Nat) : (s.setOfs n).hcat = s.hcat := rfl
@[simp] theorem State.setOfs_hlen (n : Nat) : (s.setOfs n).hlen = s.hlen := rfl
@[simp] theorem State.setOfs_fsb (n : Nat) : (s.setOfs n).fsb = s.fsb := rfl
@[simp] theorem State.setOfs_fsp0 (n : Nat) : (s.setOfs n).fsp0 = s.fsp0 := rfl
@[simp] theorem State.setOfs_fsp1 (n : Nat) : (s.setOfs n).fsp1 = s.fsp1 := rfl
@[simp] theorem State.setOfs_flen (n : Nat) : (s.setOfs n).flen = s.flen := rfl
@[simp] theorem State.setOfs_w (n : Nat) : (s.setOfs n).w = s.w := rfl
@[simp] theorem State.setOfs_wlen (n : Nat) : (s.setOfs n).wlen = s.wlen := rfl
@[simp] theorem State.setOfs_rs (n : Nat) : (s.setOfs n).rs = s.rs := rfl
@[simp] theorem State.setOfs_buf (n : Nat) : (s.setOfs n).buf = s.buf := rfl
@[simp] theorem State.setOfs_blen (n : Nat) : (s.setOfs n).blen = s.blen := rfl
@[simp] theorem State.setOfs_ph (n : Nat) : (s.setOfs n).ph = s.ph := rfl
@[simp] theorem State.setOfs_freeCount (n : Nat) : (s.setOfs n).freeCount = s.freeCount := rfl
@[simp] theorem State.setOfs_params (n : Nat) : (s.setOfs n).params = s.params := rfl
@[simp] theorem State.setOfs_pending (n : Nat) : (s.setOfs n).pending = s.pending := rfl

@[simp] theorem State.setT_r (b : Bool) : (s.setT b).r = s.r := rfl
@[simp] theorem State.setT_cur (b : Bool) : (s.setT b).cur = s.cur := rfl
@[simp] theorem State.setT_t (b : Bool) : (s.setT b).t = b := rfl
@[simp] theorem State.setT_status (b : Bool) : (s.setT b).status = s.status := rfl
@[simp] theorem State.setT_rlen (b : Bool) : (s.setT b).rlen = s.rlen := rfl
@[simp] theorem State.setT_ofs (b : Bool) : (s.setT b).ofs = s.ofs := rfl
@[simp] theorem State.setT_hcat (b : Bool) : (s.setT b).hcat = s.hcat := rfl
@[simp] theorem State.setT_hlen (b : Bool) : (s.setT b).hlen = s.hlen := rfl
@[simp] theorem State.setT_fsb (b : Bool) : (s.setT b).fsb = s.fsb := rfl
@[simp] theorem State.setT_fsp0 (b : Bool) : (s.setT b).fsp0 = s.fsp0 := rfl
@[simp] theorem State.setT_fsp1 (b : Bool) : (s.setT b).fsp1 = s.fsp1 := rfl
@[simp] theorem State.setT_flen (b : Bool) : (s.setT b).flen = s.flen := rfl
@[simp] theorem State.setT_w (b : Bool) : (s.setT b).w = s.w := rfl
@[simp] theorem State.setT_wlen (b : Bool) : (s.setT b).wlen = s.wlen := rfl
@[simp] theorem State.setT_rs (b : Bool) : (s.setT b).rs = s.rs := rfl
@[simp] theorem State.setT_buf (b : Bool) : (s.setT b).buf = s.buf := rfl
@[simp] theorem State.setT_blen (b : Bool) : (s.setT b).blen = s.blen := rfl
@[simp] theorem State.setT_ph (b : Bool) : (s.setT b).ph = s.ph := rfl
@[simp] theorem State.setT_freeCount (b : Bool) : (s.setT b).freeCount = s.freeCount := rfl
@[simp] theorem State.setT_params (b : Bool) : (s.setT b).params = s.params := rfl
@[simp] theorem State.setT_pending (b : Bool) : (s.setT b).pending = s.pending := rfl

@[simp] theorem State.setFsb_r (b : Byte) : (s.setFsb b).r = s.r := rfl
@[simp] theorem State.setFsb_cur (b : Byte) : (s.setFsb b).cur = s.cur := rfl
@[simp] theorem State.setFsb_t (b : Byte) : (s.setFsb b).t = s.t := rfl
@[simp] theorem State.setFsb_status (b : Byte) : (s.setFsb b).status = s.status := rfl
@[simp] theorem State.setFsb_rlen (b : Byte) : (s.setFsb b).rlen = s.rlen := rfl
@[simp] theorem State.setFsb_ofs (b : Byte) : (s.setFsb b).ofs = s.ofs := rfl
@[simp] theorem State.setFsb_hcat (b : Byte) : (s.setFsb b).hcat = s.hcat := rfl
@[simp] theorem State.setFsb_hlen (b : Byte) : (s.setFsb b).hlen = s.hlen := rfl
@[simp] theorem State.setFsb_fsb (b : Byte) : (s.setFsb b).fsb = b := rfl
@[simp] theorem State.setFsb_fsp0 (b : Byte) : (s.setFsb b).fsp0 = s.fsp0 := rfl
@[simp] theorem State.setFsb_fsp1 (b : Byte) : (s.setFsb b).fsp1 = s.fsp1 := rfl
@[simp] theorem State.setFsb_flen (b : Byte) : (s.setFsb b).flen = s.flen := rfl
@[simp] theorem State.setFsb_w (b : Byte) : (s.setFsb b).w = s.w := rfl
@[simp] theorem State.setFsb_wlen (b : Byte) : (s.setFsb b).wlen = s.wlen := rfl
@[simp] theorem State.setFsb_rs (b : Byte) : (s.setFsb b).rs = s.rs := rfl
@[simp] theorem State.setFsb_buf (b : Byte) : (s.setFsb b).buf = s.buf := rfl
@[simp] theorem State.setFsb_blen (b : Byte) : (s.setFsb b).blen = s.blen := rfl
@[simp] theorem State.setFsb_ph (b : Byte) : (s.setFsb b).ph = s.ph := rfl
@[simp] theorem State.setFsb_freeCount (b : Byte) : (s.setFsb b).freeCount = s.freeCount := rfl
@[simp] theorem State.setFsb_params (b : Byte) : (s.setFsb b).params = s.params := rfl
@[simp] theorem State.setFsb_pending (b : Byte) : (s.setFsb b).pending = s.pending := rfl

@[simp] theorem State.setHeader_r (c : Byte) (l : Half) : (s.setHeader c l).r = s.r := rfl
@[simp] theorem State.setHeader_cur (c : Byte) (l : Half) : (s.setHeader c l).cur = s.cur := rfl
@[simp] theorem State.setHeader_t (c : Byte) (l : Half) : (s.setHeader c l).t = s.t := rfl
@[simp] theorem State.setHeader_status (c : Byte) (l : Half) : (s.setHeader c l).status = s.status := rfl
@[simp] theorem State.setHeader_rlen (c : Byte) (l : Half) : (s.setHeader c l).rlen = s.rlen := rfl
@[simp] theorem State.setHeader_ofs (c : Byte) (l : Half) : (s.setHeader c l).ofs = s.ofs := rfl
@[simp] theorem State.setHeader_hcat (c : Byte) (l : Half) : (s.setHeader c l).hcat = c := rfl
@[simp] theorem State.setHeader_hlen (c : Byte) (l : Half) : (s.setHeader c l).hlen = l := rfl
@[simp] theorem State.setHeader_fsb (c : Byte) (l : Half) : (s.setHeader c l).fsb = s.fsb := rfl
@[simp] theorem State.setHeader_fsp0 (c : Byte) (l : Half) : (s.setHeader c l).fsp0 = s.fsp0 := rfl
@[simp] theorem State.setHeader_fsp1 (c : Byte) (l : Half) : (s.setHeader c l).fsp1 = s.fsp1 := rfl
@[simp] theorem State.setHeader_flen (c : Byte) (l : Half) : (s.setHeader c l).flen = s.flen := rfl
@[simp] theorem State.setHeader_w (c : Byte) (l : Half) : (s.setHeader c l).w = s.w := rfl
@[simp] theorem State.setHeader_wlen (c : Byte) (l : Half) : (s.setHeader c l).wlen = s.wlen := rfl
@[simp] theorem State.setHeader_rs (c : Byte) (l : Half) : (s.setHeader c l).rs = s.rs := rfl
@[simp] theorem State.setHeader_buf (c : Byte) (l : Half) : (s.setHeader c l).buf = s.buf := rfl
@[simp] theorem State.setHeader_blen (c : Byte) (l : Half) : (s.setHeader c l).blen = s.blen := rfl
@[simp] theorem State.setHeader_ph (c : Byte) (l : Half) : (s.setHeader c l).ph = s.ph := rfl
@[simp] theorem State.setHeader_freeCount (c : Byte) (l : Half) : (s.setHeader c l).freeCount = s.freeCount := rfl
@[simp] theorem State.setHeader_params (c : Byte) (l : Half) : (s.setHeader c l).params = s.params := rfl
@[simp] theorem State.setHeader_pending (c : Byte) (l : Half) : (s.setHeader c l).pending = s.pending := rfl

@[simp] theorem State.setHlen_r (n : Nat) : (s.setHlen n).r = s.r := rfl
@[simp] theorem State.setHlen_cur (n : Nat) : (s.setHlen n).cur = s.cur := rfl
@[simp] theorem State.setHlen_t (n : Nat) : (s.setHlen n).t = s.t := rfl
@[simp] theorem State.setHlen_status (n : Nat) : (s.setHlen n).status = s.status := rfl
@[simp] theorem State.setHlen_rlen (n : Nat) : (s.setHlen n).rlen = s.rlen := rfl
@[simp] theorem State.setHlen_ofs (n : Nat) : (s.setHlen n).ofs = s.ofs := rfl
@[simp] theorem State.setHlen_hcat (n : Nat) : (s.setHlen n).hcat = s.hcat := rfl
@[simp] theorem State.setHlen_hlen (n : Nat) : (s.setHlen n).hlen = BitVec.ofNat 16 n := rfl
@[simp] theorem State.setHlen_fsb (n : Nat) : (s.setHlen n).fsb = s.fsb := rfl
@[simp] theorem State.setHlen_fsp0 (n : Nat) : (s.setHlen n).fsp0 = s.fsp0 := rfl
@[simp] theorem State.setHlen_fsp1 (n : Nat) : (s.setHlen n).fsp1 = s.fsp1 := rfl
@[simp] theorem State.setHlen_flen (n : Nat) : (s.setHlen n).flen = s.flen := rfl
@[simp] theorem State.setHlen_w (n : Nat) : (s.setHlen n).w = s.w := rfl
@[simp] theorem State.setHlen_wlen (n : Nat) : (s.setHlen n).wlen = s.wlen := rfl
@[simp] theorem State.setHlen_rs (n : Nat) : (s.setHlen n).rs = s.rs := rfl
@[simp] theorem State.setHlen_buf (n : Nat) : (s.setHlen n).buf = s.buf := rfl
@[simp] theorem State.setHlen_blen (n : Nat) : (s.setHlen n).blen = s.blen := rfl
@[simp] theorem State.setHlen_ph (n : Nat) : (s.setHlen n).ph = s.ph := rfl
@[simp] theorem State.setHlen_freeCount (n : Nat) : (s.setHlen n).freeCount = s.freeCount := rfl
@[simp] theorem State.setHlen_params (n : Nat) : (s.setHlen n).params = s.params := rfl
@[simp] theorem State.setHlen_pending (n : Nat) : (s.setHlen n).pending = s.pending := rfl

@[simp] theorem State.setRs_r (recs : List Record) : (s.setRs recs).r = s.r := rfl
@[simp] theorem State.setRs_cur (recs : List Record) : (s.setRs recs).cur = s.cur := rfl
@[simp] theorem State.setRs_t (recs : List Record) : (s.setRs recs).t = s.t := rfl
@[simp] theorem State.setRs_status (recs : List Record) : (s.setRs recs).status = s.status := rfl
@[simp] theorem State.setRs_rlen (recs : List Record) : (s.setRs recs).rlen = s.rlen := rfl
@[simp] theorem State.setRs_ofs (recs : List Record) : (s.setRs recs).ofs = s.ofs := rfl
@[simp] theorem State.setRs_hcat (recs : List Record) : (s.setRs recs).hcat = s.hcat := rfl
@[simp] theorem State.setRs_hlen (recs : List Record) : (s.setRs recs).hlen = s.hlen := rfl
@[simp] theorem State.setRs_fsb (recs : List Record) : (s.setRs recs).fsb = s.fsb := rfl
@[simp] theorem State.setRs_fsp0 (recs : List Record) : (s.setRs recs).fsp0 = s.fsp0 := rfl
@[simp] theorem State.setRs_fsp1 (recs : List Record) : (s.setRs recs).fsp1 = s.fsp1 := rfl
@[simp] theorem State.setRs_flen (recs : List Record) : (s.setRs recs).flen = s.flen := rfl
@[simp] theorem State.setRs_w (recs : List Record) : (s.setRs recs).w = s.w := rfl
@[simp] theorem State.setRs_wlen (recs : List Record) : (s.setRs recs).wlen = s.wlen := rfl
@[simp] theorem State.setRs_rs (recs : List Record) : (s.setRs recs).rs = recs := rfl
@[simp] theorem State.setRs_buf (recs : List Record) : (s.setRs recs).buf = s.buf := rfl
@[simp] theorem State.setRs_blen (recs : List Record) : (s.setRs recs).blen = s.blen := rfl
@[simp] theorem State.setRs_ph (recs : List Record) : (s.setRs recs).ph = s.ph := rfl
@[simp] theorem State.setRs_freeCount (recs : List Record) : (s.setRs recs).freeCount = s.freeCount := rfl
@[simp] theorem State.setRs_params (recs : List Record) : (s.setRs recs).params = s.params := rfl
@[simp] theorem State.setRs_pending (recs : List Record) : (s.setRs recs).pending = s.pending := rfl

@[simp] theorem State.setNrec_r (n : Nat) : (s.setNrec n).r = s.r := rfl
@[simp] theorem State.setNrec_cur (n : Nat) : (s.setNrec n).cur = s.cur := rfl
@[simp] theorem State.setNrec_t (n : Nat) : (s.setNrec n).t = s.t := rfl
@[simp] theorem State.setNrec_status (n : Nat) : (s.setNrec n).status = s.status := rfl
@[simp] theorem State.setNrec_rlen (n : Nat) : (s.setNrec n).rlen = s.rlen := rfl
@[simp] theorem State.setNrec_ofs (n : Nat) : (s.setNrec n).ofs = s.ofs := rfl
@[simp] theorem State.setNrec_hcat (n : Nat) : (s.setNrec n).hcat = s.hcat := rfl
@[simp] theorem State.setNrec_hlen (n : Nat) : (s.setNrec n).hlen = s.hlen := rfl
@[simp] theorem State.setNrec_fsb (n : Nat) : (s.setNrec n).fsb = s.fsb := rfl
@[simp] theorem State.setNrec_fsp0 (n : Nat) : (s.setNrec n).fsp0 = s.fsp0 := rfl
@[simp] theorem State.setNrec_fsp1 (n : Nat) : (s.setNrec n).fsp1 = s.fsp1 := rfl
@[simp] theorem State.setNrec_flen (n : Nat) : (s.setNrec n).flen = s.flen := rfl
@[simp] theorem State.setNrec_w (n : Nat) : (s.setNrec n).w = s.w := rfl
@[simp] theorem State.setNrec_wlen (n : Nat) : (s.setNrec n).wlen = s.wlen := rfl
@[simp] theorem State.setNrec_rs (n : Nat) : (s.setNrec n).rs = s.rs.take n ++ freeRecords s.freeCount (n - s.rs.length) := rfl
@[simp] theorem State.setNrec_buf (n : Nat) : (s.setNrec n).buf = s.buf := rfl
@[simp] theorem State.setNrec_blen (n : Nat) : (s.setNrec n).blen = s.blen := rfl
@[simp] theorem State.setNrec_ph (n : Nat) : (s.setNrec n).ph = s.ph := rfl
@[simp] theorem State.setNrec_freeCount (n : Nat) : (s.setNrec n).freeCount = s.freeCount + (n - s.rs.length) := rfl
@[simp] theorem State.setNrec_params (n : Nat) : (s.setNrec n).params = s.params := rfl
@[simp] theorem State.setNrec_pending (n : Nat) : (s.setNrec n).pending = s.pending := rfl

@[simp] theorem State.setCur_r (c : Half) : (s.setCur c).r = s.r := rfl
@[simp] theorem State.setCur_cur (c : Half) : (s.setCur c).cur = c := rfl
@[simp] theorem State.setCur_t (c : Half) : (s.setCur c).t = s.t := rfl
@[simp] theorem State.setCur_status (c : Half) : (s.setCur c).status = s.status := rfl
@[simp] theorem State.setCur_rlen (c : Half) : (s.setCur c).rlen = s.rlen := rfl
@[simp] theorem State.setCur_ofs (c : Half) : (s.setCur c).ofs = s.ofs := rfl
@[simp] theorem State.setCur_hcat (c : Half) : (s.setCur c).hcat = s.hcat := rfl
@[simp] theorem State.setCur_hlen (c : Half) : (s.setCur c).hlen = s.hlen := rfl
@[simp] theorem State.setCur_fsb (c : Half) : (s.setCur c).fsb = s.fsb := rfl
@[simp] theorem State.setCur_fsp0 (c : Half) : (s.setCur c).fsp0 = s.fsp0 := rfl
@[simp] theorem State.setCur_fsp1 (c : Half) : (s.setCur c).fsp1 = s.fsp1 := rfl
@[simp] theorem State.setCur_flen (c : Half) : (s.setCur c).flen = s.flen := rfl
@[simp] theorem State.setCur_w (c : Half) : (s.setCur c).w = s.w := rfl
@[simp] theorem State.setCur_wlen (c : Half) : (s.setCur c).wlen = s.wlen := rfl
@[simp] theorem State.setCur_rs (c : Half) : (s.setCur c).rs = s.rs := rfl
@[simp] theorem State.setCur_buf (c : Half) : (s.setCur c).buf = s.buf := rfl
@[simp] theorem State.setCur_blen (c : Half) : (s.setCur c).blen = s.blen := rfl
@[simp] theorem State.setCur_ph (c : Half) : (s.setCur c).ph = s.ph := rfl
@[simp] theorem State.setCur_freeCount (c : Half) : (s.setCur c).freeCount = s.freeCount := rfl
@[simp] theorem State.setCur_params (c : Half) : (s.setCur c).params = s.params := rfl
@[simp] theorem State.setCur_pending (c : Half) : (s.setCur c).pending = s.pending := rfl

@[simp] theorem State.setPh_r (p : Option Phase) : (s.setPh p).r = s.r := rfl
@[simp] theorem State.setPh_cur (p : Option Phase) : (s.setPh p).cur = s.cur := rfl
@[simp] theorem State.setPh_t (p : Option Phase) : (s.setPh p).t = s.t := rfl
@[simp] theorem State.setPh_status (p : Option Phase) : (s.setPh p).status = s.status := rfl
@[simp] theorem State.setPh_rlen (p : Option Phase) : (s.setPh p).rlen = s.rlen := rfl
@[simp] theorem State.setPh_ofs (p : Option Phase) : (s.setPh p).ofs = s.ofs := rfl
@[simp] theorem State.setPh_hcat (p : Option Phase) : (s.setPh p).hcat = s.hcat := rfl
@[simp] theorem State.setPh_hlen (p : Option Phase) : (s.setPh p).hlen = s.hlen := rfl
@[simp] theorem State.setPh_fsb (p : Option Phase) : (s.setPh p).fsb = s.fsb := rfl
@[simp] theorem State.setPh_fsp0 (p : Option Phase) : (s.setPh p).fsp0 = s.fsp0 := rfl
@[simp] theorem State.setPh_fsp1 (p : Option Phase) : (s.setPh p).fsp1 = s.fsp1 := rfl
@[simp] theorem State.setPh_flen (p : Option Phase) : (s.setPh p).flen = s.flen := rfl
@[simp] theorem State.setPh_w (p : Option Phase) : (s.setPh p).w = s.w := rfl
@[simp] theorem State.setPh_wlen (p : Option Phase) : (s.setPh p).wlen = s.wlen := rfl
@[simp] theorem State.setPh_rs (p : Option Phase) : (s.setPh p).rs = s.rs := rfl
@[simp] theorem State.setPh_buf (p : Option Phase) : (s.setPh p).buf = s.buf := rfl
@[simp] theorem State.setPh_blen (p : Option Phase) : (s.setPh p).blen = s.blen := rfl
@[simp] theorem State.setPh_ph (p : Option Phase) : (s.setPh p).ph = p := rfl
@[simp] theorem State.setPh_freeCount (p : Option Phase) : (s.setPh p).freeCount = s.freeCount := rfl
@[simp] theorem State.setPh_params (p : Option Phase) : (s.setPh p).params = s.params := rfl
@[simp] theorem State.setPh_pending (p : Option Phase) : (s.setPh p).pending = s.pending := rfl

@[simp] theorem State.setPending_r (q : List Request) : (s.setPending q).r = s.r := rfl
@[simp] theorem State.setPending_cur (q : List Request) : (s.setPending q).cur = s.cur := rfl
@[simp] theorem State.setPending_t (q : List Request) : (s.setPending q).t = s.t := rfl
@[simp] theorem State.setPending_status (q : List Request) : (s.setPending q).status = s.status := rfl
@[simp] theorem State.setPending_rlen (q : List Request) : (s.setPending q).rlen = s.rlen := rfl
@[simp] theorem State.setPending_ofs (q : List Request) : (s.setPending q).ofs = s.ofs := rfl
@[simp] theorem State.setPending_hcat (q : List Request) : (s.setPending q).hcat = s.hcat := rfl
@[simp] theorem State.setPending_hlen (q : List Request) : (s.setPending q).hlen = s.hlen := rfl
@[simp] theorem State.setPending_fsb (q : List Request) : (s.setPending q).fsb = s.fsb := rfl
@[simp] theorem State.setPending_fsp0 (q : List Request) : (s.setPending q).fsp0 = s.fsp0 := rfl
@[simp] theorem State.setPending_fsp1 (q : List Request) : (s.setPending q).fsp1 = s.fsp1 := rfl
@[simp] theorem State.setPending_flen (q : List Request) : (s.setPending q).flen = s.flen := rfl
@[simp] theorem State.setPending_w (q : List Request) : (s.setPending q).w = s.w := rfl
@[simp] theorem State.setPending_wlen (q : List Request) : (s.setPending q).wlen = s.wlen := rfl
@[simp] theorem State.setPending_rs (q : List Request) : (s.setPending q).rs = s.rs := rfl
@[simp] theorem State.setPending_buf (q : List Request) : (s.setPending q).buf = s.buf := rfl
@[simp] theorem State.setPending_blen (q : List Request) : (s.setPending q).blen = s.blen := rfl
@[simp] theorem State.setPending_ph (q : List Request) : (s.setPending q).ph = s.ph := rfl
@[simp] theorem State.setPending_freeCount (q : List Request) : (s.setPending q).freeCount = s.freeCount := rfl
@[simp] theorem State.setPending_params (q : List Request) : (s.setPending q).params = s.params := rfl
@[simp] theorem State.setPending_pending (q : List Request) : (s.setPending q).pending = q := rfl

@[simp] theorem State.advance_r (n : Nat) : (s.advance n).r = s.r := rfl
@[simp] theorem State.advance_cur (n : Nat) : (s.advance n).cur = s.cur + BitVec.ofNat 16 n := rfl
@[simp] theorem State.advance_t (n : Nat) : (s.advance n).t = s.t := rfl
@[simp] theorem State.advance_status (n : Nat) : (s.advance n).status = s.status := rfl
@[simp] theorem State.advance_rlen (n : Nat) : (s.advance n).rlen = s.rlen := rfl
@[simp] theorem State.advance_ofs (n : Nat) : (s.advance n).ofs = s.ofs := rfl
@[simp] theorem State.advance_hcat (n : Nat) : (s.advance n).hcat = s.hcat := rfl
@[simp] theorem State.advance_hlen (n : Nat) : (s.advance n).hlen = s.hlen := rfl
@[simp] theorem State.advance_fsb (n : Nat) : (s.advance n).fsb = s.fsb := rfl
@[simp] theorem State.advance_fsp0 (n : Nat) : (s.advance n).fsp0 = s.fsp0 := rfl
@[simp] theorem State.advance_fsp1 (n : Nat) : (s.advance n).fsp1 = s.fsp1 := rfl
@[simp] theorem State.advance_flen (n : Nat) : (s.advance n).flen = s.flen := rfl
@[simp] theorem State.advance_w (n : Nat) : (s.advance n).w = s.w := rfl
@[simp] theorem State.advance_wlen (n : Nat) : (s.advance n).wlen = s.wlen := rfl
@[simp] theorem State.advance_rs (n : Nat) : (s.advance n).rs = s.rs := rfl
@[simp] theorem State.advance_buf (n : Nat) : (s.advance n).buf = s.buf := rfl
@[simp] theorem State.advance_blen (n : Nat) : (s.advance n).blen = s.blen := rfl
@[simp] theorem State.advance_ph (n : Nat) : (s.advance n).ph = s.ph := rfl
@[simp] theorem State.advance_freeCount (n : Nat) : (s.advance n).freeCount = s.freeCount := rfl
@[simp] theorem State.advance_params (n : Nat) : (s.advance n).params = s.params := rfl
@[simp] theorem State.advance_pending (n : Nat) : (s.advance n).pending = s.pending := rfl

end

end Sys2Proof.Machine
end

