-- ==== Sys2Proof/Laws/Outcome.lean ====
section
/-! SUPPORT. Everything the shared endings of a command can answer, and the wrappers built on them. -/

namespace Sys2Proof.Machine

@[simp] theorem raise_eq (k : ErrorKind) (s : State) : raise k s = .next (s.finish k.code) := rfl

@[simp] theorem commit_eq (s : State) : commit s = .next (s.finish 0) := rfl

@[simp] theorem conclude_ok {α : Type} (s : State) (v : α) (write : α → State) :
    conclude s (.ok v) write = .next ((write v).finish 0) := rfl

@[simp] theorem conclude_error {α : Type} (s : State) (k : ErrorKind) (write : α → State) :
    conclude s (.error k) write = .next (s.finish k.code) := rfl

/-- A command either commits its result with STATUS 0 or raises and writes STATUS alone (60_exceptions.md R210). -/
theorem conclude_cases {α : Type} {s t : State} {result : Except ErrorKind α} {write : α → State}
    (h : conclude s result write = .next t) :
    (∃ v, result = .ok v ∧ t = (write v).finish 0) ∨ (∃ k, result = .error k ∧ t = s.finish k.code) := by
  cases result with
  | ok v => exact .inl ⟨v, rfl, by simpa using h.symm⟩
  | error k => exact .inr ⟨k, rfl, by simpa using h.symm⟩

theorem conclude_next {α : Type} (s : State) (result : Except ErrorKind α) (write : α → State) :
    ∃ t, conclude s result write = .next t := by
  cases result <;> exact ⟨_, rfl⟩

theorem ErrorKind.code_ne_zero (k : ErrorKind) : k.code ≠ 0 := by cases k <;> decide

theorem ErrorKind.code_le (k : ErrorKind) : k.code.toNat ≤ 5 := by cases k <;> decide

theorem ErrorKind.code_injective {k l : ErrorKind} (h : k.code = l.code) : k = l := by
  cases k <;> cases l <;> first | rfl | (exact absurd h (by decide))

/-- The two-way ending of a wire-level row of a field (43_record_engine.md R172). -/
theorem runField_cases {f : Field} {s t : State} (h : runField f s = .next t) :
    (∃ v n, fieldAt s.params f s.atCursor = .ok (v, n) ∧ t = (s.putSlot v).advance n) ∨
    (∃ k, fieldAt s.params f s.atCursor = .error k ∧ t = s.finish k.code) := by
  unfold runField at h
  split at h
  · exact .inr ⟨_, ‹_›, by simpa using h.symm⟩
  · exact .inl ⟨_, _, ‹_›, by simpa using h.symm⟩

/-- The two-way ending of a subfield row (42_field_codecs.md R151). -/
theorem runSubfield_cases {item : StatusItem} {set : Subfields → Byte → Subfields} {s t : State}
    (h : runSubfield item set s = .next t) :
    (∃ b more, s.atCursor = b :: more ∧ t = (s.putSlot (itemValue item (set (s.subItem item) b))).advance 1) ∨
    (s.atCursor = [] ∧ t = s.finish 1) := by
  unfold runSubfield at h
  split at h
  · exact .inr ⟨‹_›, by injection h with h; exact h.symm⟩
  · exact .inl ⟨_, _, ‹_›, by simpa using h.symm⟩

/-- The TOW wrapper (42_field_codecs.md R138). -/
theorem slotToWire_cases {f : Field} {s t : State} (h : slotToWire f s = .next t) :
    (∃ v bs, s.r.get f = some v ∧ toWire s.params v = .ok bs ∧ t = (s.stage bs).finish 0) ∨
    (∃ v k, s.r.get f = some v ∧ toWire s.params v = .error k ∧ t = s.finish k.code) ∨
    (s.r.get f = none ∧ t = s.finish 5) := by
  unfold slotToWire at h
  split at h
  · exact .inr (.inr ⟨‹_›, by injection h with h; exact h.symm⟩)
  · rcases conclude_cases h with ⟨bs, hb, ht⟩ | ⟨k, hk, ht⟩
    · exact .inl ⟨_, bs, ‹_›, hb, ht⟩
    · exact .inr (.inl ⟨_, k, ‹_›, hk, ht⟩)

/-- The FRW wrapper (42_field_codecs.md R139). -/
theorem slotFromWire_cases {f : Field} {s t : State} (h : slotFromWire f s = .next t) :
    (∃ v, fromWire s.params f s.staged = .ok v ∧ t = (s.putSlot v).finish 0) ∨
    (∃ k, fromWire s.params f s.staged = .error k ∧ t = s.finish k.code) := conclude_cases h

end Sys2Proof.Machine
end

