-- ==== Sys2Proof/Laws/Commands.lean ====
section
/-! SUPPORT. Everything a host command can do, said once: it raises and writes STATUS alone, or it commits the writes of
its own rule. The same for the wire-level rows. -/

namespace Sys2Proof.Machine

/-- The nine TOW commands with their fields (42_field_codecs.md R138). -/
def towInstr : Field → Instr
  | .dsi => .towDsi
  | .mty => .towMty
  | .tod => .towTod
  | .sec => .towSec
  | .arp => .towArp
  | .scs => .towScs
  | .spm => .towSpm
  | .gpw => .towGpw
  | .pos => .towPos

/-- The nine FRW commands with their fields (42_field_codecs.md R139). -/
def frwInstr : Field → Instr
  | .dsi => .frwDsi
  | .mty => .frwMty
  | .tod => .frwTod
  | .sec => .frwSec
  | .arp => .frwArp
  | .scs => .frwScs
  | .spm => .frwSpm
  | .gpw => .frwGpw
  | .pos => .frwPos

theorem exec_towInstr (f : Field) (s : State) : exec (towInstr f) s = slotToWire f s := by cases f <;> rfl

theorem exec_frwInstr (f : Field) (s : State) : exec (frwInstr f) s = slotFromWire f s := by cases f <;> rfl

/-- What a command that answers `t` has done. -/
inductive CommandOutcome (s t : State) : Instr → Prop
  | hdrEnc (e : t = (s.stage (hdrEnc s.hcat s.hlen)).finish 0) : CommandOutcome s t .hdrEnc
  | hdrDec (v : Byte × Half) (h : hdrDec s.staged = .ok v) (e : t = (s.setHeader v.1 v.2).finish 0) :
      CommandOutcome s t .hdrDec
  | hdrDecRaise (k : ErrorKind) (h : hdrDec s.staged = .error k) (e : t = s.finish k.code) :
      CommandOutcome s t .hdrDec
  | fsSet (n : Byte) (h : bitNumberOk n = true) (e : t = (s.setFsb (s.fsb ||| srcMask n.toNat)).finish 0) :
      CommandOutcome s t (.fsSet n)
  | fsSetRaise (n : Byte) (h : bitNumberOk n = false) (e : t = s.finish ErrorKind.commandInvalid.code) :
      CommandOutcome s t (.fsSet n)
  | fsGet (n : Byte) (h : bitNumberOk n = true) (e : t = (s.setT (srcBit s.fsb n.toNat)).finish 0) :
      CommandOutcome s t (.fsGet n)
  | fsGetRaise (n : Byte) (h : bitNumberOk n = false) (e : t = s.finish ErrorKind.commandInvalid.code) :
      CommandOutcome s t (.fsGet n)
  | fspecEnc (e : t = (s.setChain (fspecBuild (presentFrns s.r))).finish 0) : CommandOutcome s t .fspecEnc
  | fspecDec (o : List Byte) (h : fspecParse s.validBytes = .ok o) (e : t = (s.setChain o).finish 0) :
      CommandOutcome s t .fspecDec
  | fspecDecRaise (k : ErrorKind) (h : fspecParse s.validBytes = .error k) (e : t = s.finish k.code) :
      CommandOutcome s t .fspecDec
  | tow (f : Field) (v : FieldValue) (bs : List Byte) (hv : s.r.get f = some v) (h : toWire s.params v = .ok bs)
      (e : t = (s.stage bs).finish 0) : CommandOutcome s t (towInstr f)
  | towRaise (f : Field) (v : FieldValue) (k : ErrorKind) (hv : s.r.get f = some v)
      (h : toWire s.params v = .error k) (e : t = s.finish k.code) : CommandOutcome s t (towInstr f)
  | towEmpty (f : Field) (hv : s.r.get f = none) (e : t = s.finish ErrorKind.commandInvalid.code) :
      CommandOutcome s t (towInstr f)
  | frw (f : Field) (v : FieldValue) (h : fromWire s.params f s.staged = .ok v) (e : t = (s.putSlot v).finish 0) :
      CommandOutcome s t (frwInstr f)
  | frwRaise (f : Field) (k : ErrorKind) (h : fromWire s.params f s.staged = .error k) (e : t = s.finish k.code) :
      CommandOutcome s t (frwInstr f)
  | recEnc (bs : List Byte) (h : recEnc s.params s.r = .ok bs)
      (e : t = ((s.storeBuf bs).setRlen bs.length).finish 0) : CommandOutcome s t .recEnc
  | recEncRaise (k : ErrorKind) (h : recEnc s.params s.r = .error k) (e : t = s.finish k.code) :
      CommandOutcome s t .recEnc
  | recDec (d : Record × Nat) (h : recDec s.params s.validBytes = .ok d)
      (e : t = ((s.setRecord d.1).setRlen d.2).finish 0) : CommandOutcome s t .recDec
  | recDecRaise (k : ErrorKind) (h : recDec s.params s.validBytes = .error k) (e : t = s.finish k.code) :
      CommandOutcome s t .recDec
  | ofsQ (f : Byte) (d : Nat × Bool) (hf : frnOk f = true) (h : fieldOffset s.params s.validBytes f.toNat = .ok d)
      (e : t = ((s.setOfs d.1).setT d.2).finish 0) : CommandOutcome s t (.ofsQ f)
  | ofsQRaise (f : Byte) (k : ErrorKind) (hf : frnOk f = true)
      (h : fieldOffset s.params s.validBytes f.toNat = .error k) (e : t = s.finish k.code) :
      CommandOutcome s t (.ofsQ f)
  | ofsQBad (f : Byte) (hf : frnOk f = false) (e : t = s.finish ErrorKind.commandInvalid.code) :
      CommandOutcome s t (.ofsQ f)
  | msgEnc (bs : List Byte) (h : msgEnc s.params s.hcat s.rs = .ok bs)
      (e : t = ((s.storeBuf bs).setHlen bs.length).finish 0) : CommandOutcome s t .msgEnc
  | msgEncRaise (k : ErrorKind) (h : msgEnc s.params s.hcat s.rs = .error k) (e : t = s.finish k.code) :
      CommandOutcome s t .msgEnc
  | msgDec (d : Byte × Half × List Record) (h : msgDec s.params s.validBytes = .ok d)
      (e : t = ((s.setHeader d.1 d.2.1).setRs d.2.2).finish 0) : CommandOutcome s t .msgDec
  | msgDecRaise (k : ErrorKind) (h : msgDec s.params s.validBytes = .error k) (e : t = s.finish k.code) :
      CommandOutcome s t .msgDec

/-- The inversion lemma of the 29 commands. -/
theorem commandOutcome {i : Instr} {s t : State} (hc : i.isCommand = true) (h : exec i s = .next t) :
    CommandOutcome s t i := by
  have tow : ∀ f, slotToWire f s = .next t → CommandOutcome s t (towInstr f) := by
    intro f hf
    rcases slotToWire_cases hf with ⟨v, bs, hv, hb, e⟩ | ⟨v, k, hv, hk, e⟩ | ⟨hv, e⟩
    · exact .tow f v bs hv hb e
    · exact .towRaise f v k hv hk e
    · exact .towEmpty f hv e
  have frw : ∀ f, slotFromWire f s = .next t → CommandOutcome s t (frwInstr f) := by
    intro f hf
    rcases slotFromWire_cases hf with ⟨v, hv, e⟩ | ⟨k, hk, e⟩
    · exact .frw f v hv e
    · exact .frwRaise f k hk e
  cases i with
  | hdrEnc => cases h; exact .hdrEnc rfl
  | hdrDec =>
    rcases conclude_cases h with ⟨v, hv, e⟩ | ⟨k, hk, e⟩
    · exact .hdrDec v hv e
    · exact .hdrDecRaise k hk e
  | fsSet n =>
    simp only [exec, execFsSet] at h
    split at h <;> cases h
    · exact .fsSet n ‹_› rfl
    · exact .fsSetRaise n (Bool.eq_false_iff.2 ‹_›) rfl
  | fsGet n =>
    simp only [exec, execFsGet] at h
    split at h <;> cases h
    · exact .fsGet n ‹_› rfl
    · exact .fsGetRaise n (Bool.eq_false_iff.2 ‹_›) rfl
  | fspecEnc => cases h; exact .fspecEnc rfl
  | fspecDec =>
    rcases conclude_cases h with ⟨v, hv, e⟩ | ⟨k, hk, e⟩
    · exact .fspecDec v hv e
    · exact .fspecDecRaise k hk e
  | towDsi => exact tow .dsi h
  | towMty => exact tow .mty h
  | towTod => exact tow .tod h
  | towSec => exact tow .sec h
  | towArp => exact tow .arp h
  | towScs => exact tow .scs h
  | towSpm => exact tow .spm h
  | towGpw => exact tow .gpw h
  | towPos => exact tow .pos h
  | frwDsi => exact frw .dsi h
  | frwMty => exact frw .mty h
  | frwTod => exact frw .tod h
  | frwSec => exact frw .sec h
  | frwArp => exact frw .arp h
  | frwScs => exact frw .scs h
  | frwSpm => exact frw .spm h
  | frwGpw => exact frw .gpw h
  | frwPos => exact frw .pos h
  | recEnc =>
    rcases conclude_cases h with ⟨v, hv, e⟩ | ⟨k, hk, e⟩
    · exact .recEnc v hv e
    · exact .recEncRaise k hk e
  | recDec =>
    rcases conclude_cases h with ⟨v, hv, e⟩ | ⟨k, hk, e⟩
    · exact .recDec v hv e
    · exact .recDecRaise k hk e
  | ofsQ f =>
    simp only [exec, execOfsQ] at h
    split at h
    · rcases conclude_cases h with ⟨v, hv, e⟩ | ⟨k, hk, e⟩
      · exact .ofsQ f v ‹_› hv e
      · exact .ofsQRaise f k ‹_› hk e
    · cases h; exact .ofsQBad f (Bool.eq_false_iff.2 ‹_›) rfl
  | msgEnc =>
    rcases conclude_cases h with ⟨v, hv, e⟩ | ⟨k, hk, e⟩
    · exact .msgEnc v hv e
    · exact .msgEncRaise k hk e
  | msgDec =>
    rcases conclude_cases h with ⟨v, hv, e⟩ | ⟨k, hk, e⟩
    · exact .msgDec v hv e
    · exact .msgDecRaise k hk e
  | _ => cases hc

/-- What a wire-level row that answers `t` has done (30_encoding.md R70 to R82). -/
inductive RowOutcome (s t : State) : Instr → Prop
  | raised (i : Instr) (k : ErrorKind) (e : t = s.finish k.code) : RowOutcome s t i
  | field (f : Field) (v : FieldValue) (n : Nat) (h : fieldAt s.params f s.atCursor = .ok (v, n))
      (e : t = (s.putSlot v).advance n) : RowOutcome s t (frnInstr f.frn)
  | fx0 (o : Byte) (more : List Byte) (h : s.atCursor = o :: more)
      (e : t = { s with fsp1 := o, flen := 2 }.advance 1) : RowOutcome s t .fx0
  | tested (i : Instr) (e : t = s) : RowOutcome s t i
  | subfield (i : Instr) (item : StatusItem) (hi : i ∈ [.subCom item, .subPsr item, .subSsr item, .subMds item])
      (v : Subfields) (e : t = (s.putSlot (itemValue item v)).advance 1) : RowOutcome s t i
  | header (c : Byte) (l : Half) (h : headerCheck c l s.blen.toNat = .ok ())
      (e : t = ((s.setHeader c l).setPh (some .readRecord)).setCur 3) : RowOutcome s t (.header c l)

/-- The inversion lemma of the 23 wire-level rows. -/
theorem rowOutcome {i : Instr} {s t : State} (hc : i.isCommand = false) (h : exec i s = .next t) :
    RowOutcome s t i := by
  have row : ∀ f : Field, runField f s = .next t → RowOutcome s t (frnInstr f.frn) := by
    intro f hf
    rcases runField_cases hf with ⟨v, n, hv, e⟩ | ⟨k, hk, e⟩
    · exact .field f v n hv e
    · exact .raised _ k e
  have sub : ∀ (item : StatusItem) (set : Subfields → Byte → Subfields), runSubfield item set s = .next t →
      ∀ i ∈ [Instr.subCom item, .subPsr item, .subSsr item, .subMds item], RowOutcome s t i := by
    intro item set hs i hi
    rcases runSubfield_cases hs with ⟨b, more, -, e⟩ | ⟨-, e⟩
    · exact .subfield i item hi _ e
    · exact .raised i .sizeInvalid e
  cases i with
  | frn1Dsi => exact row .dsi h
  | frn2Mty => exact row .mty h
  | frn3Tod => exact row .tod h
  | frn4Sec => exact row .sec h
  | frn5Arp => exact row .arp h
  | frn6Scs => exact row .scs h
  | frn7Spm => exact row .spm h
  | frn9Gpw => exact row .gpw h
  | frn11Pos => exact row .pos h
  | frn8 => cases h; exact .raised _ .itemUnsupported rfl
  | frn10 => cases h; exact .raised _ .itemUnsupported rfl
  | frn12 => cases h; exact .raised _ .itemUnsupported rfl
  | frn13 => cases h; exact .raised _ .itemUnsupported rfl
  | frn14 => cases h; exact .raised _ .itemUnsupported rfl
  | fx0 =>
    simp only [exec, execFx0] at h
    split at h <;> cases h
    · exact .raised _ .sizeInvalid rfl
    · exact .fx0 _ _ ‹_› rfl
  | fx1 o =>
    simp only [exec, execFx1] at h
    split at h <;> cases h
    · exact .raised _ .sizeInvalid rfl
    · exact .tested _ rfl
  | subCom item =>
    exact sub item (fun v b => { v with com := some b }) h _ (by simp)
  | subPsr item =>
    exact sub item (fun v b => { v with psr := some b }) h _ (by simp)
  | subSsr item =>
    exact sub item (fun v b => { v with ssr := some b }) h _ (by simp)
  | subMds item =>
    exact sub item (fun v b => { v with mds := some b }) h _ (by simp)
  | subSpare p =>
    simp only [exec, execSubSpare] at h
    split at h <;> cases h
    · exact .raised _ .itemUnsupported rfl
    · exact .tested _ rfl
  | subFx p =>
    simp only [exec, execSubFx] at h
    split at h <;> cases h
    · exact .raised _ .sizeInvalid rfl
    · exact .tested _ rfl
  | header c l =>
    simp only [exec, execHeader] at h
    split at h <;> cases h
    · exact .raised _ _ rfl
    · exact .header c l ‹_› rfl
  | _ => cases hc

end Sys2Proof.Machine
end

