-- ==== Sys2Proof/Laws/PerInstr.lean ====
section
/-! SUPPORT. One statement per constructor of Instr: what the decoder reads is well-formed (30_encoding.md R87). -/

namespace Sys2Proof.Laws.DecodesWellFormed

open Sys2Proof

/-- An instruction that the decoder reads from some code, under some SUBMAP, is well-formed. -/
def Statement (i : Instr) : Prop := ∀ (sm : Config.SubMap) (c : Code), decode sm c = .ok i → i.WellFormed = true

theorem noArg_reads {op arg : Byte} {i j : Instr} (h : noArg op arg i = .ok j) : j = i := by
  unfold noArg at h
  split at h
  · cases h; rfl
  · cases h

theorem guarded_reads {i j : Instr} {e : Reject} (h : (if i.WellFormed then Except.ok i else .error e) = .ok j) :
    j.WellFormed = true := by
  split at h
  · rename_i hw; cases h; exact hw
  · cases h

theorem decodeTow_wellFormed {arg : Byte} {i : Instr} (h : decodeTow arg = .ok i) : i.WellFormed = true := by
  unfold decodeTow at h
  split at h <;> cases h <;> rfl

theorem decodeFrw_wellFormed {arg : Byte} {i : Instr} (h : decodeFrw arg = .ok i) : i.WellFormed = true := by
  unfold decodeFrw at h
  split at h <;> cases h <;> rfl

theorem decodeCommand_wellFormed {w : Half} {i : Instr} (h : decodeCommand w = .ok i) : i.WellFormed = true := by
  unfold decodeCommand decodeOpArg at h
  split at h
  all_goals first
    | exact guarded_reads h
    | exact decodeTow_wellFormed h
    | exact decodeFrw_wellFormed h
    | (have := noArg_reads h; subst this; rfl)
    | cases h

theorem decodeOctet_fsSet {sm : Config.SubMap} {r : Role} {o n : Byte} (h : decodeOctet sm r o = .ok (.fsSet n)) :
    False := by
  cases r <;> simp only [decodeOctet, decodeChain0, decodeChain1, decodePrimary] at h <;>
    first | cases h | (repeat' split at h) <;> cases h

theorem decodeOctet_fsGet {sm : Config.SubMap} {r : Role} {o n : Byte} (h : decodeOctet sm r o = .ok (.fsGet n)) :
    False := by
  cases r <;> simp only [decodeOctet, decodeChain0, decodeChain1, decodePrimary] at h <;>
    first | cases h | (repeat' split at h) <;> cases h

theorem decodeOctet_ofsQ {sm : Config.SubMap} {r : Role} {o f : Byte} (h : decodeOctet sm r o = .ok (.ofsQ f)) :
    False := by
  cases r <;> simp only [decodeOctet, decodeChain0, decodeChain1, decodePrimary] at h <;>
    first | cases h | (repeat' split at h) <;> cases h

theorem hdrEnc : Statement .hdrEnc := fun _ _ _ => rfl

theorem hdrDec : Statement .hdrDec := fun _ _ _ => rfl

theorem fsSet (n : Byte) : Statement (.fsSet n) := fun _ c h => by
  cases c with
  | command w => exact decodeCommand_wellFormed h
  | octet r o => exact (decodeOctet_fsSet h).elim
  | header x => cases h

theorem fsGet (n : Byte) : Statement (.fsGet n) := fun _ c h => by
  cases c with
  | command w => exact decodeCommand_wellFormed h
  | octet r o => exact (decodeOctet_fsGet h).elim
  | header x => cases h

theorem fspecEnc : Statement .fspecEnc := fun _ _ _ => rfl

theorem fspecDec : Statement .fspecDec := fun _ _ _ => rfl

theorem towDsi : Statement .towDsi := fun _ _ _ => rfl

theorem towMty : Statement .towMty := fun _ _ _ => rfl

theorem towTod : Statement .towTod := fun _ _ _ => rfl

theorem towSec : Statement .towSec := fun _ _ _ => rfl

theorem towArp : Statement .towArp := fun _ _ _ => rfl

theorem towScs : Statement .towScs := fun _ _ _ => rfl

theorem towSpm : Statement .towSpm := fun _ _ _ => rfl

theorem towGpw : Statement .towGpw := fun _ _ _ => rfl

theorem towPos : Statement .towPos := fun _ _ _ => rfl

theorem frwDsi : Statement .frwDsi := fun _ _ _ => rfl

theorem frwMty : Statement .frwMty := fun _ _ _ => rfl

theorem frwTod : Statement .frwTod := fun _ _ _ => rfl

theorem frwSec : Statement .frwSec := fun _ _ _ => rfl

theorem frwArp : Statement .frwArp := fun _ _ _ => rfl

theorem frwScs : Statement .frwScs := fun _ _ _ => rfl

theorem frwSpm : Statement .frwSpm := fun _ _ _ => rfl

theorem frwGpw : Statement .frwGpw := fun _ _ _ => rfl

theorem frwPos : Statement .frwPos := fun _ _ _ => rfl

theorem recEnc : Statement .recEnc := fun _ _ _ => rfl

theorem recDec : Statement .recDec := fun _ _ _ => rfl

theorem ofsQ (f : Byte) : Statement (.ofsQ f) := fun _ c h => by
  cases c with
  | command w => exact decodeCommand_wellFormed h
  | octet r o => exact (decodeOctet_ofsQ h).elim
  | header x => cases h

theorem msgEnc : Statement .msgEnc := fun _ _ _ => rfl

theorem msgDec : Statement .msgDec := fun _ _ _ => rfl

theorem frn1Dsi : Statement .frn1Dsi := fun _ _ _ => rfl

theorem frn2Mty : Statement .frn2Mty := fun _ _ _ => rfl

theorem frn3Tod : Statement .frn3Tod := fun _ _ _ => rfl

theorem frn4Sec : Statement .frn4Sec := fun _ _ _ => rfl

theorem frn5Arp : Statement .frn5Arp := fun _ _ _ => rfl

theorem frn6Scs : Statement .frn6Scs := fun _ _ _ => rfl

theorem frn7Spm : Statement .frn7Spm := fun _ _ _ => rfl

theorem frn8 : Statement .frn8 := fun _ _ _ => rfl

theorem frn9Gpw : Statement .frn9Gpw := fun _ _ _ => rfl

theorem frn10 : Statement .frn10 := fun _ _ _ => rfl

theorem frn11Pos : Statement .frn11Pos := fun _ _ _ => rfl

theorem frn12 : Statement .frn12 := fun _ _ _ => rfl

theorem frn13 : Statement .frn13 := fun _ _ _ => rfl

theorem frn14 : Statement .frn14 := fun _ _ _ => rfl

theorem fx0 : Statement .fx0 := fun _ _ _ => rfl

theorem fx1 (o : Byte) : Statement (.fx1 o) := fun _ _ _ => rfl

theorem subCom (item : StatusItem) : Statement (.subCom item) := fun _ _ _ => rfl

theorem subPsr (item : StatusItem) : Statement (.subPsr item) := fun _ _ _ => rfl

theorem subSsr (item : StatusItem) : Statement (.subSsr item) := fun _ _ _ => rfl

theorem subMds (item : StatusItem) : Statement (.subMds item) := fun _ _ _ => rfl

theorem subSpare (p : Byte) : Statement (.subSpare p) := fun _ _ _ => rfl

theorem subFx (p : Byte) : Statement (.subFx p) := fun _ _ _ => rfl

theorem header (c : Byte) (l : Half) : Statement (.header c l) := fun _ _ _ => rfl

end Sys2Proof.Laws.DecodesWellFormed
end

