-- ==== Sys2Proof/Tests/Slice0.lean ====
section
/-! SUPPORT. The model's own tests. The expected values come from the tables and worked examples of spec/ (each test
names its place), never from a run of the model. -/

namespace Sys2Proof.Tests

open Sys2Proof Sys2Proof.Machine

/- Each kernel evaluation below waits for the declarations before it: one at a time, or the waiting threads take more
memory than the check allows. -/
set_option Elab.async false

/-! ## Small states -/

/-- Reset with these octets in BUF[0 .. BLEN). -/
def buffered (bs : List Byte) : State := State.reset.storeBuf bs

/-- Reset with these octets in W[0 .. WLEN). -/
def staged (bs : List Byte) : State := State.reset.stage bs

/-- Reset with this record in R. -/
def holding (rec : Record) : State := State.reset.setRecord rec

/-- Reset with MT_STRICT true. -/
def strict (s : State) : State := { s with params := { mtStrict := true, subMap := Config.SubMap.default } }

/-- What a next state shows. -/
def shows {α : Type} (f : State → α) (o : Host.Outcome State Fault Refusal) : Option α :=
  match o with
  | .next t => some (f t)
  | .fault _ => none
  | .refused _ => none

/-- STATUS, W[0 .. WLEN). -/
def stagedResult (t : State) : Nat × List Byte := (t.status.toNat, t.staged)

/-- STATUS, the slots. -/
def recordResult (t : State) : Nat × Record := (t.status.toNat, t.r)

/-- STATUS, BUF[0 .. BLEN). -/
def bufferResult (t : State) : Nat × List Byte := (t.status.toNat, t.validBytes)

/-- The record of the end-to-end example (95_test_vectors.md 1.1). -/
def north : Record :=
  { Record.empty with
    dsi := some { o0 := 123, o1 := 42 }
    mty := some 1
    tod := some (5132667 / 128)
    arp := some 2
    scs := some { com := some 0, psr := none, ssr := none, mds := none }
    pos := some { height := 555, lat := 100251135 / 2097152, lon := 9728865 / 1048576 } }

/-- Its octets (95_test_vectors.md 1.1, offsets 3 to 22). -/
def northOctets : List Byte :=
  [0xED, 0x10, 0x7B, 0x2A, 0x01, 0x4E, 0x51, 0x7B, 0x01, 0x00, 0x80, 0x00, 0x02, 0x2B, 0x21, 0xFE, 0x5B, 0x06, 0x99,
   0x0A]

/-- The 23 octets of its message. -/
def northMessage : List Byte := [0x22, 0x00, 0x17] ++ northOctets

/-! ## WellFormed refuses an ill-formed term for each check (30_encoding.md R87) -/

theorem test_wf_fsSet_low : (Instr.fsSet 0).WellFormed = false := by decide
theorem test_wf_fsSet_high : (Instr.fsSet 9).WellFormed = false := by decide
theorem test_wf_fsGet_low : (Instr.fsGet 0).WellFormed = false := by decide
theorem test_wf_fsGet_high : (Instr.fsGet 9).WellFormed = false := by decide
theorem test_wf_ofsQ_low : (Instr.ofsQ 0).WellFormed = false := by decide
theorem test_wf_ofsQ_high : (Instr.ofsQ 15).WellFormed = false := by decide

/-! ## Decoding: every constructor from a code written out from the tables of the spec -/

/-- What the decoder reads, none where it refuses. -/
def reads (c : Code) : Option Instr :=
  match decode Config.SubMap.default c with
  | .ok i => some i
  | .error _ => none

/-- Command words of 30_encoding.md R86, op = CMD[15:8], arg = CMD[7:0]. -/
theorem test_decode_header_and_fieldspec :
    [0x1000, 0x1100, 0x2001, 0x2008, 0x2103, 0x2200, 0x2300].map (fun w => reads (.command w)) =
    [some .hdrEnc, some .hdrDec, some (.fsSet 1), some (.fsSet 8), some (.fsGet 3), some .fspecEnc,
      some .fspecDec] := by decide

/-- Operation 30, argument the FRN (R86). -/
theorem test_decode_tow :
    [0x3001, 0x3002, 0x3003, 0x3004, 0x3005, 0x3006, 0x3007, 0x3009, 0x300B].map (fun w => reads (.command w)) =
    [some .towDsi, some .towMty, some .towTod, some .towSec, some .towArp, some .towScs, some .towSpm, some .towGpw,
      some .towPos] := by decide

/-- Operation 31, argument the FRN (R86). -/
theorem test_decode_frw :
    [0x3101, 0x3102, 0x3103, 0x3104, 0x3105, 0x3106, 0x3107, 0x3109, 0x310B].map (fun w => reads (.command w)) =
    [some .frwDsi, some .frwMty, some .frwTod, some .frwSec, some .frwArp, some .frwScs, some .frwSpm, some .frwGpw,
      some .frwPos] := by decide

/-- Operations 40 to 51 (R86). -/
theorem test_decode_engines :
    [0x4000, 0x4100, 0x4201, 0x420E, 0x5000, 0x5100].map (fun w => reads (.command w)) =
    [some .recEnc, some .recDec, some (.ofsQ 1), some (.ofsQ 14), some .msgEnc, some .msgDec] := by decide

/-- Illegal words: 95_test_vectors.md 2.2 and 2.4, 30_encoding.md R87. -/
theorem test_decode_illegal :
    ([0x0000, 0x1001, 0x2000, 0x2009, 0x2100, 0x2109, 0x3000, 0x3008, 0x300A, 0x300C, 0x300D, 0x300E, 0x3108, 0x310A,
      0x3200, 0x4200, 0x420F, 0x5101, 0xFFFF].all fun w => reads (.command w) = none) = true := by decide

/-- Presence bits at chain index 0, bit 8 downwards is FRN 1 upwards, and FX (30_encoding.md R76, R71). -/
theorem test_decode_chain0 :
    [0x80, 0x40, 0x20, 0x10, 0x08, 0x04, 0x02, 0x01].map (fun o => reads (.octet .chain0 o)) =
    [some .frn1Dsi, some .frn2Mty, some .frn3Tod, some .frn4Sec, some .frn5Arp, some .frn6Scs, some .frn7Spm,
      some .fx0] := by decide

/-- Presence bits at chain index 1: FRN 8 to 14, and the FX test (30_encoding.md R76, R80). -/
theorem test_decode_chain1 :
    [0x80, 0x40, 0x20, 0x10, 0x08, 0x04, 0x02].map (fun o => reads (.octet .chain1 o)) =
    [some .frn8, some .frn9Gpw, some .frn10, some .frn11Pos, some .frn12, some .frn13, some .frn14] ∧
    reads (.octet .chain1Fx 0x10) = some (.fx1 0x10) := by decide

/-- Bits of a primary octet: COM 0x80, PSR 0x10, SSR 0x08, MDS 0x04 (30_encoding.md R78), and its two tests (R82). -/
theorem test_decode_primary :
    [0x80, 0x10, 0x08, 0x04].map (fun o => reads (.octet (.primary .spm) o)) =
    [some (.subCom .spm), some (.subPsr .spm), some (.subSsr .spm), some (.subMds .spm)] ∧
    reads (.octet .primarySpare 0xC0) = some (.subSpare 0xC0) ∧
    reads (.octet .primaryFx 0x81) = some (.subFx 0x81) := by decide

/-- The header of the end-to-end example: category 34, length 23 (30_encoding.md R70). -/
theorem test_decode_header : reads (.header 0x220017) = some (.header 34 23) := by decide

/-- SUB.SPARE's mask of spec/opcode_table.json is 0x62. -/
theorem test_spare_mask : spareMask Config.SubMap.default = 0x62 := by decide

/-- Words of spec/opcode_table.json: a command, a presence bit at each chain index, the FX rows and a header. -/
theorem test_table_words :
    [decodeTableWord 16 0x310B, decodeTableWord 8 0x40, decodeTableWord 16 0x40, decodeTableWord 8 0x01,
      decodeTableWord 8 0x00, decodeTableWord 24 0x220000] =
    [some .frwPos, some .frn2Mty, some .frn9Gpw, some .fx0, some (.fx1 0), some (.header 34 0)] := by decide

/-- The step after withFetchWord runs that instruction: FS.SET 8 makes FSB 0x80 (95_test_vectors.md 2.2). -/
theorem test_fetch_fsSet :
    shows (fun t => (t.status.toNat, t.fsb, t.pending)) (step (State.reset.withFetchWord 16 0x2008)) =
    some (0, 0x80, []) := by decide

/-- An illegal word ends with CommandInvalid (95_test_vectors.md 2.2: FS.SET 9). -/
theorem test_fetch_illegal :
    shows (fun t => (t.status.toNat, t.fsb)) (step (State.reset.withFetchWord 16 0x2009)) = some (5, 0) := by decide

/-! ## One step of each instruction -/

/-- 95_test_vectors.md 2.1: HCAT 255, HLEN 258. -/
theorem test_hdrEnc :
    shows stagedResult (exec .hdrEnc { State.reset with hcat := 255, hlen := 258 }) = some (0, [0xFF, 0x01, 0x02]) := by
  decide

/-- 95_test_vectors.md 2.1: the fourth octet is ignored. -/
theorem test_hdrDec :
    shows (fun t => (t.status.toNat, t.hcat, t.hlen)) (exec .hdrDec (staged [0x30, 0x00, 0x03, 0xAA])) =
    some (0, 48, 3) := by decide

/-- 95_test_vectors.md 2.2: FSB 0x80, FS.SET 2. -/
theorem test_fsSet : shows (·.fsb) (exec (.fsSet 2) { State.reset with fsb := 0x80 }) = some 0x82 := by decide

/-- 95_test_vectors.md 2.2: FSB 0xED: bit 5 is 0, bit 4 is 1. -/
theorem test_fsGet :
    shows (·.t) (exec (.fsGet 5) { State.reset with fsb := 0xED, t := true }) = some false ∧
    shows (·.t) (exec (.fsGet 4) { State.reset with fsb := 0xED }) = some true := by decide

/-- 41_fspec.md R113: the chain of the example. -/
theorem test_fspecEnc :
    shows (fun t => (t.fsp0, t.fsp1, t.flen.val)) (exec .fspecEnc (holding north)) = some (0xED, 0x10, 2) := by
  decide +kernel

/-- 95_test_vectors.md 2.3: a non-canonical chain is accepted; three octets are too long. -/
theorem test_fspecDec :
    shows (fun t => (t.status.toNat, t.fsp0, t.fsp1, t.flen.val)) (exec .fspecDec (buffered [0x01, 0x00])) =
      some (0, 0x01, 0x00, 2) ∧
    shows (·.status.toNat) (exec .fspecDec (buffered [0x01, 0x01, 0x00])) = some 1 := by decide +kernel

/-- 42_field_codecs.md R140 and R141: 7B 2A. -/
theorem test_dsi :
    shows stagedResult (exec .towDsi (holding north)) = some (0, [0x7B, 0x2A]) ∧
    shows recordResult (exec .frwDsi (staged [0x7B, 0x2A])) =
      some (0, { Record.empty with dsi := some { o0 := 123, o1 := 42 } }) := by decide +kernel

/-- 95_test_vectors.md 2.4: 200 is carried, and refused under MT_STRICT. -/
theorem test_mty :
    shows stagedResult (exec .towMty (holding { Record.empty with mty := some 200 })) = some (0, [0xC8]) ∧
    shows (·.status.toNat) (exec .towMty (strict (holding { Record.empty with mty := some 200 }))) = some 4 ∧
    shows recordResult (exec .frwMty (staged [0xC8])) = some (0, { Record.empty with mty := some 200 }) ∧
    shows (·.status.toNat) (exec .frwMty (strict (staged [0xC8]))) = some 4 := by decide +kernel

/-- 95_test_vectors.md 2.4: 10039/10000 s truncates, -1/128 s is refused. -/
theorem test_towTod :
    shows stagedResult (exec .towTod (holding { Record.empty with tod := some (10039 / 10000) })) =
      some (0, [0x00, 0x00, 0x80]) ∧
    shows (·.status.toNat) (exec .towTod (holding { Record.empty with tod := some (-1 / 128) })) = some 3 := by
  decide +kernel

/-- 42_field_codecs.md R145: 4E 51 7B. -/
theorem test_frwTod :
    shows recordResult (exec .frwTod (staged [0x4E, 0x51, 0x7B])) =
    some (0, { Record.empty with tod := some (5132667 / 128) }) := by decide +kernel

/-- 95_test_vectors.md 2.4: 91 deg gives 40; 360 deg is refused; 40 gives 90 deg. -/
theorem test_sec :
    shows stagedResult (exec .towSec (holding { Record.empty with sec := some 91 })) = some (0, [0x40]) ∧
    shows (·.status.toNat) (exec .towSec (holding { Record.empty with sec := some 360 })) = some 3 ∧
    shows recordResult (exec .frwSec (staged [0x40])) = some (0, { Record.empty with sec := some 90 }) := by
  decide +kernel

/-- 95_test_vectors.md 2.4: 4001/1000 s gives 02 00; 512 s is refused; FF FF gives 65535/128 s. -/
theorem test_arp :
    shows stagedResult (exec .towArp (holding { Record.empty with arp := some (4001 / 1000) })) =
      some (0, [0x02, 0x00]) ∧
    shows (·.status.toNat) (exec .towArp (holding { Record.empty with arp := some 512 })) = some 3 ∧
    shows recordResult (exec .frwArp (staged [0xFF, 0xFF])) =
      some (0, { Record.empty with arp := some (65535 / 128) }) := by decide +kernel

/-- 95_test_vectors.md 2.4: 14 A0 01 both ways, and FX before the spare bits. -/
theorem test_scs :
    shows stagedResult (exec .towScs (holding
      { Record.empty with scs := some { com := none, psr := some 0xA0, ssr := none, mds := some 0x01 } })) =
      some (0, [0x14, 0xA0, 0x01]) ∧
    shows recordResult (exec .frwScs (staged [0x14, 0xA0, 0x01])) =
      some (0, { Record.empty with scs := some { com := none, psr := some 0xA0, ssr := none, mds := some 0x01 } }) ∧
    shows (·.status.toNat) (exec .frwScs (staged [0x83, 0x00])) = some 1 := by decide +kernel

/-- 95_test_vectors.md 2.4: 9C 12 34 56 78 both ways, and a spare bit set. -/
theorem test_spm :
    shows stagedResult (exec .towSpm (holding
      { Record.empty with spm := some { com := some 0x12, psr := some 0x34, ssr := some 0x56, mds := some 0x78 } })) =
      some (0, [0x9C, 0x12, 0x34, 0x56, 0x78]) ∧
    shows recordResult (exec .frwSpm (staged [0x9C, 0x12, 0x34, 0x56, 0x78])) = some (0,
      { Record.empty with spm := some { com := some 0x12, psr := some 0x34, ssr := some 0x56, mds := some 0x78 } }) ∧
    shows (·.status.toNat) (exec .frwSpm (staged [0xC0, 0x00, 0x00])) = some 4 := by decide +kernel

/-- 42_field_codecs.md R156 and R157: 0A 80 64 00 20 00 40 00. -/
theorem test_gpw :
    shows stagedResult (exec .towGpw (holding
      { Record.empty with gpw := some { rhoStart := 21 / 2, rhoEnd := 100, thetaStart := 45, thetaEnd := 90 } })) =
      some (0, [0x0A, 0x80, 0x64, 0x00, 0x20, 0x00, 0x40, 0x00]) ∧
    shows recordResult (exec .frwGpw (staged [0x0A, 0x80, 0x64, 0x00, 0x20, 0x00, 0x40, 0x00])) = some (0,
      { Record.empty with gpw := some { rhoStart := 21 / 2, rhoEnd := 100, thetaStart := 45, thetaEnd := 90 } }) := by
  decide +kernel

/-- 42_field_codecs.md R158: negative values truncate toward zero; R159: 80 00 80 00 00 7F FF FF. -/
theorem test_pos :
    shows stagedResult (exec .towPos (holding
      { Record.empty with pos := some { height := -1, lat := -67 / 2, lon := -3531 / 50 } })) =
      some (0, [0xFF, 0xFF, 0xE8, 0x2D, 0x83, 0xCD, 0xC8, 0x06]) ∧
    shows recordResult (exec .frwPos (staged [0x80, 0x00, 0x80, 0x00, 0x00, 0x7F, 0xFF, 0xFF])) = some (0,
      { Record.empty with pos := some { height := -32768, lat := -180, lon := 377487315 / 2097152 } }) := by
  decide +kernel

/-- 95_test_vectors.md 1.1: the 20 octets of the example. -/
theorem test_recEnc : shows bufferResult (exec .recEnc (holding north)) = some (0, northOctets) := by decide +kernel

/-- 95_test_vectors.md 1.1: the record of the example. -/
theorem test_recDec :
    shows (fun t => (t.status.toNat, t.r, t.rlen)) (exec .recDec (buffered northOctets)) = some (0, north, 20) := by
  decide +kernel

/-- 95_test_vectors.md 2.5: TimeOfDay truncated before FRN 8, and FRN 8 declared. -/
theorem test_recDec_order :
    shows (·.status.toNat) (exec .recDec (buffered [0x21, 0x80, 0x00, 0x00])) = some 1 ∧
    shows (·.status.toNat) (exec .recDec (buffered [0x21, 0x80, 0x00, 0x00, 0x80])) = some 4 := by decide +kernel

/-- 95_test_vectors.md 2.5: OFS.Q 4 and OFS.Q 11 on the example. -/
theorem test_ofsQ :
    shows (fun t => (t.ofs, t.t)) (exec (.ofsQ 4) (buffered northOctets)) = some (8, false) ∧
    shows (fun t => (t.ofs, t.t)) (exec (.ofsQ 11) (buffered northOctets)) = some (12, true) := by decide +kernel

/-- 95_test_vectors.md 1.1: the 23 octets of the example. -/
theorem test_msgEnc :
    shows (fun t => (t.hlen, t.validBytes)) (exec .msgEnc { State.reset with hcat := 34, rs := [north] }) =
    some (23, northMessage) := by decide +kernel

/-- 95_test_vectors.md 1.1 and 1.3: the example, and a wrong category. -/
theorem test_msgDec :
    shows (fun t => (t.status.toNat, t.hcat, t.hlen, t.rs)) (exec .msgDec (buffered northMessage)) =
      some (0, 34, 23, [north]) ∧
    shows (·.status.toNat) (exec .msgDec (buffered [0x30, 0x00, 0x03])) = some 2 := by decide +kernel

/-! ### The wire-level rows on the octets of the example (95_test_vectors.md 1.1, column "decoded") -/

/-- The example's record octets with the cursor at `n`. -/
def northAt (n : Half) : State := (buffered northOctets).setCur n

theorem test_row_dsi :
    shows (fun t => (t.r.dsi, t.cur)) (exec .frn1Dsi (northAt 2)) = some (some { o0 := 123, o1 := 42 }, 4) := by
  decide +kernel
theorem test_row_mty : shows (fun t => (t.r.mty, t.cur)) (exec .frn2Mty (northAt 4)) = some (some 1, 5) := by
  decide +kernel
theorem test_row_tod :
    shows (fun t => (t.r.tod, t.cur)) (exec .frn3Tod (northAt 5)) = some (some (5132667 / 128), 8) := by decide +kernel
/-- The octet 40 is 90 deg (42_field_codecs.md R147). -/
theorem test_row_sec : shows (fun t => (t.r.sec, t.cur)) (exec .frn4Sec (buffered [0x40])) = some (some 90, 1) := by
  decide +kernel
theorem test_row_arp : shows (fun t => (t.r.arp, t.cur)) (exec .frn5Arp (northAt 8)) = some (some 2, 10) := by
  decide +kernel
theorem test_row_scs :
    shows (fun t => (t.r.scs, t.cur)) (exec .frn6Scs (northAt 10)) =
    some (some { com := some 0, psr := none, ssr := none, mds := none }, 12) := by decide +kernel
/-- 14 A0 01 (42_field_codecs.md R155). -/
theorem test_row_spm :
    shows (fun t => (t.r.spm, t.cur)) (exec .frn7Spm (buffered [0x14, 0xA0, 0x01, 0xFF])) =
    some (some { com := none, psr := some 0xA0, ssr := none, mds := some 0x01 }, 3) := by decide +kernel
/-- 0A 80 64 00 20 00 40 00 (42_field_codecs.md R157); 7 octets are too few. -/
theorem test_row_gpw :
    shows (fun t => (t.r.gpw, t.cur)) (exec .frn9Gpw (buffered [0x0A, 0x80, 0x64, 0x00, 0x20, 0x00, 0x40, 0x00])) =
      some (some { rhoStart := 21 / 2, rhoEnd := 100, thetaStart := 45, thetaEnd := 90 }, 8) ∧
    shows (·.status.toNat) (exec .frn9Gpw (buffered [0x0A, 0x80, 0x64, 0x00, 0x20, 0x00, 0x40])) = some 1 := by
  decide +kernel
theorem test_row_pos :
    shows (fun t => (t.r.pos, t.cur)) (exec .frn11Pos (northAt 12)) = some (north.pos, 20) := by decide +kernel
/-- The five FRNs without codec (30_encoding.md R79). -/
theorem test_row_no_codec :
    ([Instr.frn8, .frn10, .frn12, .frn13, .frn14].all fun i =>
      shows (·.status.toNat) (exec i State.reset) = some 4) = true := by decide
/-- FX of `ED`: the octet `10` follows at chain index 1. -/
theorem test_row_fx0 :
    shows (fun t => (t.fsp1, t.flen.val, t.cur)) (exec .fx0 (northAt 1)) = some (0x10, 2, 2) := by decide +kernel
/-- FX of `10` is 0; FX of `01` is 1 (30_encoding.md R80). -/
theorem test_row_fx1 :
    shows (·.status.toNat) (exec (.fx1 0x10) State.reset) = some 0 ∧
    shows (·.status.toNat) (exec (.fx1 0x01) State.reset) = some 1 := by decide
/-- The primary octet of 9C 12 34 56 78: its four subfields in order (30_encoding.md R78). -/
theorem test_row_subfields :
    shows (fun t => (t.r.spm.map (·.com), t.cur)) (exec (.subCom .spm) ((buffered [0x9C, 0x12, 0x34, 0x56, 0x78]).setCur 1)) =
      some (some (some 0x12), 2) ∧
    shows (fun t => (t.r.spm.map (·.psr), t.cur)) (exec (.subPsr .spm) ((buffered [0x9C, 0x12, 0x34, 0x56, 0x78]).setCur 2)) =
      some (some (some 0x34), 3) ∧
    shows (fun t => (t.r.scs.map (·.ssr), t.cur)) (exec (.subSsr .scs) ((buffered [0x9C, 0x12, 0x34, 0x56, 0x78]).setCur 3)) =
      some (some (some 0x56), 4) ∧
    shows (fun t => (t.r.scs.map (·.mds), t.cur)) (exec (.subMds .scs) ((buffered [0x9C, 0x12, 0x34, 0x56, 0x78]).setCur 4)) =
      some (some (some 0x78), 5) := by decide +kernel
/-- 95_test_vectors.md 2.4: C0 has a spare bit set, 80 has none. -/
theorem test_row_spare :
    shows (·.status.toNat) (exec (.subSpare 0xC0) State.reset) = some 4 ∧
    shows (·.status.toNat) (exec (.subSpare 0x80) State.reset) = some 0 := by decide
/-- 95_test_vectors.md 2.4: 81 has FX set, 80 has not. -/
theorem test_row_primary_fx :
    shows (·.status.toNat) (exec (.subFx 0x81) State.reset) = some 1 ∧
    shows (·.status.toNat) (exec (.subFx 0x80) State.reset) = some 0 := by decide
/-- 22 00 17 before 23 octets (95_test_vectors.md 1.1); a wrong category (1.3). -/
theorem test_row_header :
    shows (fun t => (t.hcat, t.hlen, t.cur, t.ph)) (exec (.header 34 23) (buffered northMessage)) =
      some (34, 23, 3, some .readRecord) ∧
    shows (·.status.toNat) (exec (.header 0x30 3) (buffered [0x30, 0x00, 0x03])) = some 2 := by decide +kernel

/-! ## Witnesses: states and operands that meet the hypotheses of the statements, at the ends of their ranges -/

theorem empty_accepted (p : Config.Params) : Record.empty.Accepted p := fun f v h => by cases f <;> cases h

theorem north_accepted (p : Config.Params) (hp : p.mtStrict = false) : north.Accepted p := by
  intro f v h
  cases f <;> cases h
  · trivial
  · exact Or.inl hp
  · constructor <;> norm_num
  · constructor <;> norm_num
  · trivial
  · refine ⟨?_, ?_, ?_⟩ <;> constructor <;> norm_num

theorem witness_DecodeOfEncodeIsTheInstruction :
    ([Instr.fsSet 1, .fsSet 8, .fsGet 1, .fsGet 8, .ofsQ 1, .ofsQ 14, .frn14, .header 255 0].all
      Instr.WellFormed) = true := by decide

theorem witness_CommandWordsHaveOneReading : decode Config.SubMap.default (.command 0x420E#16) = .ok (.ofsQ 14) := rfl

theorem witness_IllegalCommandWordsRaiseCommandInvalid :
    (∃ s : State, s.pending = .code (.command 0x2009#16) :: []) ∧ legalCommand 0x2009#16 = false ∧
    legalCommand 0x2008#16 = true :=
  ⟨⟨State.reset.withFetchWord 16 0x2009, rfl⟩, by decide, by decide⟩

theorem witness_StepRunsTheDecodedInstruction :
    (State.reset.withFetchWord 16 0x4100).pending = .code (.command 0x4100#16) :: [] ∧
    decode (State.reset.withFetchWord 16 0x4100).params.subMap (.command 0x4100#16) = .ok .recDec := ⟨rfl, rfl⟩

theorem witness_StepWaitsOrTakesTheHostWrite :
    State.reset.pending = [] ∧
    (State.reset.setPending [.write (.blen 3)]).pending = .write (.blen 3) :: [] := ⟨rfl, rfl⟩

/-- The last address that exists, the first record, the first index past the records, and n below and above NREC. -/
theorem witness_HostWritesWriteTheNamedRegister :
    (0xFFFE#16).toNat < 65535 ∧ (0#16).toNat < (State.reset.setRs [north]).rs.length ∧
    (State.reset.setRs [north]).rs[(0#16).toNat]? = some north ∧
    (State.reset.setRs [north]).rs.length ≤ (1#16).toNat ∧
    (∃ t, hostWrite (.nrec 2) (State.reset.setRs [north]) = .next t) :=
  ⟨by decide, by decide, rfl, by decide, ⟨_, rfl⟩⟩

theorem witness_EveryStepKeepsTheInvariant :
    State.reset.Inv ∧ ∃ t, step State.reset = .next t := ⟨⟨Memory.reset_wf, by decide, by decide, by decide⟩, ⟨_, rfl⟩⟩

theorem witness_StepKeepsParametersAndQueueOrder : ∃ t, step (State.reset.withFetchWord 16 0x1000) = .next t := ⟨_, rfl⟩

theorem witness_FailingCommandChangesOnlyStatus :
    ∃ t, exec .hdrDec State.reset = .next t ∧ t.status ≠ 0 := ⟨_, rfl, by decide⟩

/-- Every code of STATUS is met (60_exceptions.md R207). -/
theorem witness_OutcomeKindsOfEachCommand :
    (∃ t, exec .hdrEnc State.reset = .next t ∧ t.status = 0) ∧
    (∃ t, exec .hdrDec State.reset = .next t ∧ t.status = 1) ∧
    (∃ t, exec .msgEnc State.reset = .next t ∧ t.status = 2) ∧
    (∃ t, exec .towArp (holding { Record.empty with arp := some 512 }) = .next t ∧ t.status = 3) ∧
    (∃ t, exec .frwScs (staged [0x02]) = .next t ∧ t.status = 4) ∧
    (∃ t, exec .towDsi State.reset = .next t ∧ t.status = 5) := by
  refine ⟨⟨_, rfl, rfl⟩, ⟨_, rfl, rfl⟩, ⟨_, rfl, rfl⟩, ?_, ⟨_, rfl, rfl⟩, ⟨_, rfl, rfl⟩⟩
  have h : shows (·.status) (exec .towArp (holding { Record.empty with arp := some 512 })) = some 3 := by
    decide +kernel
  cases hx : exec .towArp (holding { Record.empty with arp := some 512 }) with
  | next t => rw [hx] at h; exact ⟨t, rfl, Option.some.inj h⟩
  | fault r => rw [hx] at h; cases h
  | refused r => rw [hx] at h; cases h

/-- The octet at BLEN differs, those below do not. -/
theorem witness_CommandsIgnoreOctetsBeyondBlen :
    (∀ a, a < (buffered [0x00]).blen.toNat →
      Memory.octet (Memory.write (buffered [0x00]).buf 1 0xFF) a = Memory.octet (buffered [0x00]).buf a) ∧
    ∃ t, exec .recDec (buffered [0x00]) = .next t := by
  refine ⟨fun a h => ?_, ⟨_, rfl⟩⟩
  have h1 : a < 1 := h
  rw [Memory.octet_write, if_neg (by omega)]

theorem witness_EncodingIgnoresTheChainRegisters :
    (∃ t, exec .recEnc State.reset = .next t) ∧ ∃ t, exec .msgEnc (State.reset.setHeader 34 0) = .next t :=
  ⟨⟨_, rfl⟩, ⟨_, rfl⟩⟩

theorem witness_CommandsWriteOnlyTheirRegisters :
    (∃ t, exec .recEnc State.reset = .next t ∧ t.status = 0) ∧
    (∃ t, exec .msgEnc (State.reset.setHeader 34 0) = .next t ∧ t.status = 0) ∧
    ∃ t, exec .fspecEnc State.reset = .next t := ⟨⟨_, rfl, rfl⟩, ⟨_, rfl, rfl⟩, ⟨_, rfl⟩⟩

theorem witness_HdrDecReadsTheHeaderOctets :
    3 ≤ (staged [0x22, 0x00, 0x17]).wlen.val ∧ (staged [0x22, 0x00]).wlen.val < 3 := by decide

/-- The bit numbers 1 and 8, and 0 and 9 (also for FS.GET). -/
theorem witness_FsSetSetsOneBit :
    (1 ≤ (1#8).toNat ∧ (1#8).toNat ≤ 8) ∧ (1 ≤ (8#8).toNat ∧ (8#8).toNat ≤ 8) ∧
    ((0#8).toNat = 0 ∨ 8 < (0#8).toNat) ∧ ((9#8).toNat = 0 ∨ 8 < (9#8).toNat) := by decide

theorem witness_FsGetTestsOneBit :
    (1 ≤ (1#8).toNat ∧ (1#8).toNat ≤ 8) ∧ (1 ≤ (8#8).toNat ∧ (8#8).toNat ≤ 8) ∧
    ((0#8).toNat = 0 ∨ 8 < (0#8).toNat) ∧ ((9#8).toNat = 0 ∨ 8 < (9#8).toNat) := by decide

/-- One state for each clause, in order (95_test_vectors.md 2.3). -/
theorem witness_FspecDecReadsTheChain :
    (buffered []).blen.toNat = 0 ∧
    (1 ≤ (buffered [0xFE]).blen.toNat ∧ (Memory.octet (buffered [0xFE]).buf 0).getLsbD 0 = false) ∧
    ((buffered [0x01]).blen.toNat = 1 ∧ (Memory.octet (buffered [0x01]).buf 0).getLsbD 0 = true) ∧
    (2 ≤ (buffered [0x01, 0x00]).blen.toNat ∧ (Memory.octet (buffered [0x01, 0x00]).buf 0).getLsbD 0 = true ∧
      (Memory.octet (buffered [0x01, 0x00]).buf 1).getLsbD 0 = false) ∧
    (2 ≤ (buffered [0x01, 0x01]).blen.toNat ∧ (Memory.octet (buffered [0x01, 0x01]).buf 0).getLsbD 0 = true ∧
      (Memory.octet (buffered [0x01, 0x01]).buf 1).getLsbD 0 = true) := by decide +kernel

theorem witness_ChainBuildAndParseAreInverse :
    fspecParse northOctets = .ok [0xED, 0x10] ∧ canonicalChain [0xED, 0x10] = true ∧
    fspecParse [0x01, 0x00] = .ok [0x01, 0x00] ∧ (0x00#8) &&& 0xFE#8 = 0 := by decide +kernel

theorem witness_ChainParseIsBounded :
    fspecParse [0xFE] = .ok [0xFE] ∧ fspecParse [0x01, 0x00] = .ok [0x01, 0x00] ∧
    ∀ b ∈ [0x01#8, 0x01#8, 0x01#8, 0x01#8], b.getLsbD 0 = true := by decide +kernel

theorem witness_TowOnAnEmptySlotIsCommandInvalid :
    State.reset.r.dsi = none ∧ State.reset.r.mty = none ∧ State.reset.r.tod = none ∧ State.reset.r.sec = none ∧
    State.reset.r.arp = none ∧ State.reset.r.scs = none ∧ State.reset.r.spm = none ∧ State.reset.r.gpw = none ∧
    State.reset.r.pos = none := by decide

theorem witness_DataSourceMovesAsItIs :
    (holding north).r.dsi = some { o0 := 123, o1 := 42 } ∧ State.reset.r.dsi = none ∧
    (staged [0x7B, 0x2A]).wlen = 2 ∧ (staged [0x7B]).wlen ≠ 2 := by decide +kernel

/-- MessageType 1, 7, 0 and 8, with MT_STRICT false and true. -/
theorem witness_MessageTypeMovesAsItIs :
    ((holding north).r.mty = some 1 ∧ (holding north).params.mtStrict = false) ∧
    ((strict (holding north)).params.mtStrict = true ∧ 1 ≤ (1#8).toNat ∧ (1#8).toNat ≤ 7) ∧
    (1 ≤ (7#8).toNat ∧ (7#8).toNat ≤ 7) ∧ ((0#8).toNat = 0 ∨ 7 < (0#8).toNat) ∧ ((8#8).toNat = 0 ∨ 7 < (8#8).toNat) ∧
    ((staged [0x07]).wlen = 1 ∧ 1 ≤ (staged [0x07]).w[0].toNat ∧ (staged [0x07]).w[0].toNat ≤ 7) ∧
    ((strict (staged [0x08])).wlen = 1 ∧ 7 < (strict (staged [0x08])).w[0].toNat) ∧ (staged []).wlen ≠ 1 := by
  decide +kernel

/-- For each field a value inside and one at each end outside (95_test_vectors.md 2.4). -/
theorem witness_TowScaledFieldsTruncateTowardZero :
    (∀ v : Rat, (holding { Record.empty with tod := some v }).r.tod = some v) ∧
    (∀ v : Rat, (holding { Record.empty with sec := some v }).r.sec = some v) ∧
    (∀ v : Rat, (holding { Record.empty with arp := some v }).r.arp = some v) ∧
    ((-1 / 128 : Rat) < -1 / 256 ∧ (-1 / 256 : Rat) < 131072) ∧ ((-1 / 128 : Rat) ≤ -1 / 128) ∧
    ((131072 : Rat) ≤ 131072) ∧ ((-45 / 32 : Rat) < -1 / 2 ∧ (3599 / 10 : Rat) < 360) ∧ ((360 : Rat) ≤ 360) ∧
    ((-1 / 128 : Rat) < 0 ∧ (65535 / 128 : Rat) < 512) ∧ ((512 : Rat) ≤ 512) := by
  refine ⟨fun _ => rfl, fun _ => rfl, fun _ => rfl, ?_⟩
  norm_num

theorem witness_TowPolarWindowStagesFourComponents :
    (FieldValue.gpw { rhoStart := 0, rhoEnd := 65535 / 256, thetaStart := 0, thetaEnd := 2949075 / 8192 }).Accepted
      Config.Params.default ∧
    ¬ (FieldValue.gpw { rhoStart := 0, rhoEnd := 0, thetaStart := 0, thetaEnd := 360 }).Accepted
      Config.Params.default ∧
    (∀ v, (holding { Record.empty with gpw := some v }).r.gpw = some v) := by
  refine ⟨?_, ?_, fun _ => rfl⟩
  · refine ⟨?_, ?_, ?_, ?_⟩ <;> constructor <;> norm_num
  · rintro ⟨-, -, -, -, h⟩; norm_num at h

theorem witness_TowPositionStagesTwosComplement :
    (FieldValue.pos { height := -32768, lat := -180, lon := 377487315 / 2097152 }).Accepted Config.Params.default ∧
    ¬ (FieldValue.pos { height := 0, lat := 180, lon := 0 }).Accepted Config.Params.default ∧
    (∀ v, (holding { Record.empty with pos := some v }).r.pos = some v) := by
  refine ⟨?_, ?_, fun _ => rfl⟩
  · refine ⟨?_, ?_, ?_⟩ <;> constructor <;> norm_num
  · rintro ⟨-, ⟨-, h⟩, -⟩; norm_num at h

theorem witness_TowSubfieldItemsStagePrimaryAndSubfields :
    (∀ v, (holding { Record.empty with scs := some v }).r.scs = some v) ∧
    ∀ v, (holding { Record.empty with spm := some v }).r.spm = some v := ⟨fun _ => rfl, fun _ => rfl⟩

theorem witness_FrwScaledFieldsReadTheirValue :
    (staged [0xFF, 0xFF, 0xFF]).wlen = 3 ∧ (staged [0xFF]).wlen = 1 ∧ (staged [0xFF, 0xFF]).wlen = 2 ∧
    (staged [0, 0]).wlen ≠ 3 ∧ (staged []).wlen ≠ 1 ∧ (staged [0, 0, 0]).wlen ≠ 2 := by decide

theorem witness_FrwLongFieldsReadTheirComponents :
    (staged [0, 0, 0, 0, 0, 0, 0, 0]).wlen = 8 ∧ (staged [0, 0, 0, 0, 0, 0, 0]).wlen ≠ 8 := by decide

/-- An empty slice, FX, a spare bit, a slice too short and one too long, and an item (95_test_vectors.md 2.4). -/
theorem witness_FrwSubfieldItemsEveryOutcome :
    State.staged (staged []) = [] ∧
    (State.staged (staged [0x81, 0x00]) = [0x81, 0x00] ∧ (0x81#8).getLsbD 0 = true) ∧
    (State.staged (staged [0x02]) = [0x02] ∧ (0x02#8).getLsbD 0 = false ∧ 2 ∉ [8, 5, 4, 3] ∧
      (0x02#8).getLsbD (2 - 1) = true) ∧
    (State.staged (staged [0x80]) = [0x80] ∧ (∀ n, 2 ≤ n → n ≤ 8 → n ∉ [8, 5, 4, 3] → (0x80#8).getLsbD (n - 1) = false) ∧
      ([] : List Byte).length ≠ ((0x80#8).getLsbD (8 - 1)).toNat) ∧
    (State.staged (staged [0x00, 0x00]) = [0x00, 0x00] ∧ ([0x00] : List Byte).length ≠ 0) ∧
    State.staged (staged [0x14, 0xA0, 0x01]) =
      subToWire Config.SubMap.default { com := none, psr := some 0xA0, ssr := none, mds := some 0x01 } := by
  refine ⟨by decide, by decide, by decide, ⟨by decide, ?_, by decide⟩, by decide, by decide⟩
  intro n h2 h8 _
  interval_cases n <;> first | rfl | contradiction

/-- The ends of a range, and values of both signs. -/
theorem witness_ScaleRoundTripLaws :
    scaleLatLon ∈ scaleTable ∧ scaleTod ∈ scaleTable ∧ scaleLatLon.fits (-8388608) = true ∧ scaleTod.fits 16777215 = true ∧
    scaleLatLon.fits (scaleLatLon.wire (-67 / 2)) = true ∧ scaleTod.fits (scaleTod.wire (10039 / 10000)) = true ∧
    (0 : Rat) ≤ 10039 / 10000 ∧ (-67 / 2 : Rat) ≤ 0 := by decide +kernel

theorem witness_FixedPointAgreesWithRationals :
    scaleSec ∈ scaleTable ∧ scaleHeight ∈ scaleTable ∧ scaleLatLon.fits (-8388608) = true ∧
    scaleLatLon.fits 8388607 = true ∧ scaleTod.fits 16777215 = true ∧ scaleSec.fits 0 = true := by decide

theorem witness_RecEncWritesTheRecord :
    (holding north).r.Accepted (holding north).params ∧
    (∃ m, (strict (holding { Record.empty with mty := some 8 })).r.mty = some m ∧
      ¬ (FieldValue.mty m).Accepted (strict (holding { Record.empty with mty := some 8 })).params) ∧
    (¬ (holding { Record.empty with tod := some 131072 }).r.Accepted Config.Params.default ∧
      ∀ m, (holding { Record.empty with tod := some 131072 }).r.mty = some m →
        (FieldValue.mty m).Accepted Config.Params.default) := by
  refine ⟨north_accepted _ rfl, ⟨8, rfl, ?_⟩, ?_, fun m h => by cases h⟩
  · rintro (h | ⟨-, h⟩)
    · cases h
    · exact absurd h (by decide)
  · intro h
    have := (h .tod (.tod 131072) rfl).2
    norm_num at this

theorem witness_RecordSizeBounds :
    recEnc Config.Params.default Record.empty = .ok [0x00] ∧ Record.empty.gpw = none ∧ Record.empty.pos = none :=
  ⟨rfl, rfl, rfl⟩

/-- With an octet after the record. -/
theorem witness_RecDecInvertsRecEnc :
    recEnc (buffered (northOctets ++ [0xFF])).params north = .ok northOctets ∧
    (buffered (northOctets ++ [0xFF])).validBytes = northOctets ++ [0xFF] := by decide +kernel

theorem witness_RecEncAfterRecDecReproducesTheOctets :
    fspecParse (buffered [0x00]).validBytes = .ok [0x00] ∧ canonicalChain [0x00] = true ∧
    ∃ t, exec .recDec (buffered [0x00]) = .next t ∧ t.status = 0 := ⟨by decide +kernel, by decide, ⟨_, rfl, rfl⟩⟩

theorem witness_PresenceMatchesTheChain :
    (∃ t, exec .recDec (buffered [0x00]) = .next t ∧ t.status = 0) ∧
    recEnc Config.Params.default north = .ok northOctets ∧ (1 ≤ 1 ∧ 14 ≤ 14) :=
  ⟨⟨_, rfl, rfl⟩, by decide +kernel, by decide⟩

/-- FRN 8 after a TimeOfDay that reads, FRN 8 behind an empty first octet, FRN 14 with nothing below it; FRN 3 cut off,
FRN 1 cut off behind the chain; items of FRN 6 with FX, with a spare bit, and missing; MessageType 0 and 8 under
MT_STRICT (95_test_vectors.md 2.5). -/
theorem witness_UnsupportedFrnEndsRecDec :
    (fspecParse (buffered [0x21, 0x80, 0, 0, 0x80]).validBytes = .ok [0x21, 0x80] ∧ declared [0x21, 0x80] 8 = true ∧
      ReadsBelow Config.Params.default [0x21, 0x80] (buffered [0x21, 0x80, 0, 0, 0x80]).validBytes 8 [] ∧
      FieldFails Config.Params.default 8 [] .itemUnsupported) ∧
    (fspecParse (buffered [0x01, 0xC0]).validBytes = .ok [0x01, 0xC0] ∧ declared [0x01, 0xC0] 8 = true ∧
      ReadsBelow Config.Params.default [0x01, 0xC0] (buffered [0x01, 0xC0]).validBytes 8 []) ∧
    (fspecParse (buffered [0x01, 0x02, 0xFF]).validBytes = .ok [0x01, 0x02] ∧ declared [0x01, 0x02] 14 = true ∧
      ReadsBelow Config.Params.default [0x01, 0x02] (buffered [0x01, 0x02, 0xFF]).validBytes 14 [0xFF] ∧
      FieldFails Config.Params.default 14 [0xFF] .itemUnsupported) ∧
    (fspecParse (buffered [0x21, 0x80, 0, 0]).validBytes = .ok [0x21, 0x80] ∧ declared [0x21, 0x80] 3 = true ∧
      ReadsBelow Config.Params.default [0x21, 0x80] (buffered [0x21, 0x80, 0, 0]).validBytes 3 [0, 0] ∧
      FieldFails Config.Params.default 3 [0, 0] .sizeInvalid) ∧
    (fspecParse (buffered [0x80]).validBytes = .ok [0x80] ∧ declared [0x80] 1 = true ∧
      ReadsBelow Config.Params.default [0x80] (buffered [0x80]).validBytes 1 [] ∧
      FieldFails Config.Params.default 1 [] .sizeInvalid) ∧
    (fspecParse (buffered [0x04, 0x81, 0]).validBytes = .ok [0x04] ∧ declared [0x04] 6 = true ∧
      ReadsBelow Config.Params.default [0x04] (buffered [0x04, 0x81, 0]).validBytes 6 [0x81, 0] ∧
      FieldFails Config.Params.default 6 [0x81, 0] .sizeInvalid) ∧
    (FieldFails Config.Params.default 7 [0x02] .itemUnsupported ∧ FieldFails Config.Params.default 7 [] .sizeInvalid) ∧
    (fspecParse (strict (buffered [0x40, 0])).validBytes = .ok [0x40] ∧ declared [0x40] 2 = true ∧
      ReadsBelow (strict .reset).params [0x40] (strict (buffered [0x40, 0])).validBytes 2 [0] ∧
      FieldFails (strict .reset).params 2 [0] .itemUnsupported ∧
      FieldFails (strict .reset).params 2 [8] .itemUnsupported) :=
  ⟨⟨by decide +kernel, by decide, ⟨[.tod 1], [0, 0, 0x80], by decide, by decide +kernel, by decide +kernel⟩,
      .noCodec (by decide)⟩,
    ⟨by decide +kernel, by decide, ⟨[], [], by decide, by decide, by decide +kernel⟩⟩,
    ⟨by decide +kernel, by decide, ⟨[], [], by decide, by decide, by decide +kernel⟩, .noCodec (by decide)⟩,
    ⟨by decide +kernel, by decide, ⟨[], [], by decide, by decide, by decide +kernel⟩,
      .cutOff (fld := .tod) (n := 3) rfl rfl (by decide)⟩,
    ⟨by decide +kernel, by decide, ⟨[], [], by decide, by decide, by decide +kernel⟩,
      .cutOff (fld := .dsi) (n := 2) rfl rfl (by decide)⟩,
    ⟨by decide +kernel, by decide, ⟨[], [], by decide, by decide, by decide +kernel⟩,
      .item (.inl rfl) (by decide +kernel)⟩,
    ⟨.item (.inr rfl) (by decide +kernel), .item (.inr rfl) (by decide +kernel)⟩,
    ⟨by decide +kernel, by decide, ⟨[], [], by decide, by decide, by decide +kernel⟩,
      .messageType rfl (.inl (by decide)), .messageType rfl (.inr (by decide))⟩⟩

theorem witness_OffsetQueryIsTheSumOfSizes :
    fspecParse (buffered northOctets).validBytes = .ok [0xED, 0x10] ∧
    recDec (buffered northOctets).params (buffered northOctets).validBytes = .ok (north, 20) ∧
    (1 ≤ (1#8).toNat ∧ (14#8).toNat ≤ 14) := by decide +kernel

/-- The item at FRN 6 is malformed; the fields below FRN 8 read and those below FRN 9 do not; under MT_STRICT a
MessageType 0 below FRN 3 is passed over and FRN 3 is cut off; no octet at all; FRNs 0 and 15 (95_test_vectors.md
2.5). -/
theorem witness_OffsetQueryExaminesOnlyFieldsBelow :
    (fspecParse (buffered [0x04, 0x81, 0x00]).validBytes = .ok [0x04] ∧
      ∀ g, 1 ≤ g → g < (6#8).toNat → declared [0x04] g = false) ∧
    (fspecParse (buffered [0x21, 0x80, 0, 0, 0x80]).validBytes = .ok [0x21, 0x80] ∧
      (runRows (((chainFrns [0x21, 0x80]).filter (fun g => g < 8)).map frnInstr)
        ((buffered [0x21, 0x80, 0, 0, 0x80]).setCur 2)).status = 0 ∧
      (runRows (((chainFrns [0x21, 0x80]).filter (fun g => g < 9)).map frnInstr)
        ((buffered [0x21, 0x80, 0, 0, 0x80]).setCur 2)).status ≠ 0) ∧
    (fspecParse (strict (buffered [0x60, 0, 9])).validBytes = .ok [0x60] ∧ declared [0x60] 3 = true ∧
      ReadsBelow (lenient (strict .reset).params) [0x60] (strict (buffered [0x60, 0, 9])).validBytes (3#8).toNat [9] ∧
      (1 ≤ 3 ∧ 3 < (14#8).toNat) ∧ FieldFails (lenient (strict .reset).params) 3 [9] .sizeInvalid) ∧
    fspecParse (buffered []).validBytes = .error .sizeInvalid ∧
    ((0#8).toNat = 0 ∨ 14 < (0#8).toNat) ∧ ((15#8).toNat = 0 ∨ 14 < (15#8).toNat) := by
  refine ⟨⟨by decide +kernel, ?_⟩, by decide +kernel, ⟨by decide +kernel, by decide,
    ⟨[.mty 0], [0], by decide, by decide +kernel, by decide +kernel⟩, by decide,
    .cutOff (fld := .tod) (n := 3) rfl rfl (by decide)⟩, by decide, by decide, by decide⟩
  intro g h1 h6
  have h6' : g < 6 := h6
  interval_cases g <;> decide

/-- `n` records without a field are `n` octets. -/
theorem join_empty_records (p : Config.Params) (n : Nat) :
    joinWire ((List.replicate n Record.empty).map (recEnc p)) = .ok (List.replicate n 0x00) := by
  induction n with
  | zero => rfl
  | succ n ih =>
    have h : recEnc p Record.empty = .ok [0x00] := rfl
    simp only [List.replicate_succ, List.map_cons, h, joinWire, ih, List.singleton_append]

/-- Another category; the largest message of 65535 octets, 65532 records; one record more; after an accepted record one
with a refused MessageType and a value out of range, and one with a value out of range alone. -/
theorem witness_MsgEncWritesTheMessage :
    State.reset.hcat ≠ 34 ∧
    ((∀ rec ∈ List.replicate 65533 Record.empty, rec.Accepted Config.Params.default) ∧
      3 + (List.replicate 65532 (0x00#8)).length ≤ 65535 ∧ 65535 < 3 + (List.replicate 65533 (0x00#8)).length) ∧
    ((∀ rec ∈ [Record.empty], rec.Accepted (strict .reset).params) ∧
      (∃ m, ({ Record.empty with mty := some 8, tod := some 131072 } : Record).mty = some m ∧
        ¬ (FieldValue.mty m).Accepted (strict .reset).params) ∧
      (¬ ({ Record.empty with tod := some 131072 } : Record).Accepted (strict .reset).params ∧
        ∀ m, ({ Record.empty with tod := some 131072 } : Record).mty = some m →
          (FieldValue.mty m).Accepted (strict .reset).params)) := by
  refine ⟨by decide, ⟨fun rec h => ?_, ?_, ?_⟩, fun rec h => ?_, ⟨8, rfl, ?_⟩, fun h => ?_, fun m h => by cases h⟩
  · rw [List.eq_of_mem_replicate h]; exact empty_accepted _
  · rw [List.length_replicate]
  · rw [List.length_replicate]; norm_num
  · rw [List.mem_singleton.1 h]; exact empty_accepted _
  · rintro (h | ⟨-, h⟩)
    · cases h
    · exact absurd h (by decide)
  · have := (h .tod (.tod 131072) rfl).2
    norm_num at this

theorem witness_MessageLengthInvariant :
    ∃ t, exec .msgEnc (State.reset.setHeader 34 0) = .next t ∧ t.status = 0 := ⟨_, rfl, rfl⟩

theorem witness_MsgDecInvertsMsgEnc :
    msgEnc (buffered northMessage).params 34 [north] = .ok northMessage ∧
    (buffered northMessage).validBytes = northMessage := by decide +kernel

/-- A message of one record without a field, encoded and decoded. -/
theorem witness_MsgDecAfterMsgEncKeepsTheMessage :
    (∃ t, exec .msgEnc { State.reset with hcat := 34, rs := [Record.empty] } = .next t ∧ t.status = 0) ∧
    (shows (·.status) (exec .msgDec (buffered [0x22, 0x00, 0x04, 0x00])) = some 0 ∧
      CanonicalRecords Config.Params.default ((buffered [0x22, 0x00, 0x04, 0x00]).validBytes.drop 3)) := by
  refine ⟨⟨_, rfl, rfl⟩, by decide +kernel, ?_⟩
  rw [show (buffered [0x22, 0x00, 0x04, 0x00]).validBytes.drop 3 = [0x00] by decide +kernel]
  exact .record (o := [0x00]) (rec := Record.empty) (n := 1) (by decide) (by decide) (by decide +kernel) .ended

/-- Two octets; a wrong length; a wrong category; messages without a record, with one and with one that fails
(95_test_vectors.md 1.3). -/
theorem witness_MsgDecEveryOutcome :
    (buffered [0x22, 0x00]).blen.toNat < 3 ∧
    (3 ≤ (buffered [0x30, 0x00, 0x04]).blen.toNat ∧
      (Memory.octet (buffered [0x30, 0x00, 0x04]).buf 1).toNat * 256 +
        (Memory.octet (buffered [0x30, 0x00, 0x04]).buf 2).toNat ≠ 3) ∧
    ((buffered [0x30, 0x00, 0x03]).blen.toNat = 3 ∧ Memory.octet (buffered [0x30, 0x00, 0x03]).buf 0 ≠ 34) ∧
    ((buffered [0x22, 0x00, 0x03]).blen.toNat = 3 ∧ Memory.octet (buffered [0x22, 0x00, 0x03]).buf 0 = 34 ∧
      (Memory.octet (buffered [0x22, 0x00, 0x03]).buf 1).toNat * 256 +
        (Memory.octet (buffered [0x22, 0x00, 0x03]).buf 2).toNat = 3) ∧
    RecordsRead Config.Params.default ((buffered [0x22, 0x00, 0x03]).validBytes.drop 3) [] ∧
    RecordsRead Config.Params.default ((buffered [0x22, 0x00, 0x04, 0x00]).validBytes.drop 3) [Record.empty] ∧
    RecordsFail Config.Params.default ((buffered [0x22, 0x00, 0x04, 0x01]).validBytes.drop 3) .sizeInvalid := by
  refine ⟨by decide +kernel, by decide +kernel, by decide +kernel, by decide +kernel, ?_, ?_, ?_⟩
  · rw [show (buffered [0x22, 0x00, 0x03]).validBytes.drop 3 = [] by decide +kernel]
    exact .ended
  · rw [show (buffered [0x22, 0x00, 0x04, 0x00]).validBytes.drop 3 = [0x00] by decide +kernel]
    exact .record (n := 1) (by simp) (by decide +kernel) .ended
  · rw [show (buffered [0x22, 0x00, 0x04, 0x01]).validBytes.drop 3 = [0x01] by decide +kernel]
    exact .here (by simp) (by decide +kernel)

/-- Eight octets at the cursor serve every field; none, one, two and seven are too few. -/
theorem witness_FixedFieldRowsReadAtTheCursor :
    (buffered [1, 2, 3, 4, 5, 6, 7, 8]).atCursor = [1, 2, 3, 4, 5, 6, 7, 8] ∧
    ((strict (buffered [7])).atCursor = [7] ∧ (1 ≤ (7#8).toNat ∧ (7#8).toNat ≤ 7)) ∧
    ((strict (buffered [8])).atCursor = [8] ∧ (strict (buffered [8])).params.mtStrict = true ∧ 7 < (8#8).toNat) ∧
    (buffered []).atCursor.length < 1 ∧ (buffered [1]).atCursor.length < 2 ∧ (buffered [1, 2]).atCursor.length < 3 ∧
    (buffered [1, 2, 3, 4, 5, 6, 7]).atCursor.length < 8 := by decide +kernel

theorem witness_SubfieldItemRowsReadAtTheCursor :
    (buffered [0x14, 0xA0, 0x01, 0xFF]).atCursor =
      subToWire (buffered [0x14, 0xA0, 0x01, 0xFF]).params.subMap
        { com := none, psr := some 0xA0, ssr := none, mds := some 0x01 } ++ [0xFF] ∧
    subParse (buffered [0x80]).params.subMap (buffered [0x80]).atCursor = .error .sizeInvalid ∧
    subParse (buffered [0x80, 0x00]).params.subMap (buffered [0x80, 0x00]).atCursor = .ok 2 := by decide +kernel

theorem witness_RowsWithoutCodecRaiseItemUnsupported : Instr.frn14 ∈ [Instr.frn8, .frn10, .frn12, .frn13, .frn14] := by
  decide

/-- An octet at the cursor and none; items in both slots; the header's three outcomes. -/
theorem witness_BitAndHeaderRowsByThemselves :
    (buffered [0x10]).atCursor = 0x10 :: [] ∧ State.reset.atCursor = [] ∧ (buffered [0x10]).r.scs = none ∧
    (buffered [0x10]).r.spm = none ∧
    ((buffered [0x10]).setRecord { north with spm := north.scs }).r.scs = north.scs ∧
    ((buffered [0x10]).setRecord { north with spm := north.scs }).r.spm = north.scs ∧
    ((buffered [0x10]).setRecord { north with spm := north.scs }).atCursor = 0x10 :: [] ∧
    (3 ≤ (buffered northMessage).blen.toNat ∧ 23#16 = (buffered northMessage).blen) ∧
    ((buffered [0x22, 0x00]).blen.toNat < 3 ∨ 3#16 ≠ (buffered [0x22, 0x00]).blen) ∧ 0x30#8 ≠ 34 := by decide +kernel

theorem witness_WireRowsWriteOnlyTheirRegisters :
    (∃ t, exec .frn8 State.reset = .next t) ∧ (∃ t, exec .frn1Dsi (buffered [1, 2]) = .next t) ∧
    Instr.frn1Dsi.isCommand = false := ⟨⟨_, rfl⟩, ⟨_, rfl⟩, rfl⟩

/-- A record whose rows all succeed, and one whose row FRN 8 raises. -/
theorem witness_RecDecRunsTheRowsOfItsChain :
    fspecParse (buffered northOctets).validBytes = .ok [0xED, 0x10] ∧
    (runRows (chainProgram [0xED, 0x10]) ((buffered northOctets).setCur 2)).status = 0 ∧
    fspecParse (buffered [0x01, 0x80]).validBytes = .ok [0x01, 0x80] ∧
    (runRows (chainProgram [0x01, 0x80]) ((buffered [0x01, 0x80]).setCur 2)).status ≠ 0 ∧
    fspecParse (buffered [0x01]).validBytes = .error .sizeInvalid := by decide +kernel

/-- A primary octet whose subfield is there, and one with FX set. -/
theorem witness_ScsRowRunsTheRowsOfItsPrimary :
    ((buffered [0x80, 0x00]).atCursor = 0x80 :: [0x00] ∧ (buffered [0x80, 0x00]).status = 0 ∧
      (runRows (primaryProgram Config.SubMap.default .scs 0x80) { buffered [0x80, 0x00] with
        cur := (buffered [0x80, 0x00]).cur + 1
        r := { Record.empty with scs := some { com := none, psr := none, ssr := none, mds := none } } }).status = 0) ∧
    ((buffered [0x81]).atCursor = 0x81 :: [] ∧
      (runRows (primaryProgram Config.SubMap.default .scs 0x81) { buffered [0x81] with
        cur := (buffered [0x81]).cur + 1
        r := { Record.empty with scs := some { com := none, psr := none, ssr := none, mds := none } } }).status ≠ 0) := by
  decide +kernel

end Sys2Proof.Tests
end

/-! ## What one step does, and what no step writes -/

namespace Sys2Proof.Machine

theorem step_of_pending_nil {s : State} (hq : s.pending = []) : step s = .next s := by
  simp [step, fetch, hq]

theorem step_of_pending_write {s : State} {w : HostWrite} {rest : List Request} (hq : s.pending = .write w :: rest) :
    step s = hostWrite w (s.setPending rest) := by
  simp [step, fetch, hq]

theorem step_of_pending_code {s : State} {c : Code} {i : Instr} {rest : List Request}
    (hq : s.pending = .code c :: rest) (hd : decode s.params.subMap c = .ok i) :
    step s = exec i (s.setPending rest) := by
  simp [step, fetch, hq, hd]

theorem step_of_pending_rejected {s : State} {c : Code} {e : Reject} {rest : List Request}
    (hq : s.pending = .code c :: rest) (hd : decode s.params.subMap c = .error e) :
    step s = rejectCode e (s.setPending rest) := by
  simp [step, fetch, hq, hd]

/-- What a step that answers `t` has done: it waited, or it took the head of the queue and performed it as a host
write, as the instruction it encodes, or as a code that is no instruction (70_reset_and_hazards.md R238). -/
inductive StepOutcome (s t : State) : Prop
  | waited (hq : s.pending = []) (e : t = s) : StepOutcome s t
  | wrote (w : HostWrite) (rest : List Request) (hq : s.pending = .write w :: rest)
      (h : hostWrite w (s.setPending rest) = .next t) : StepOutcome s t
  | executed (c : Code) (i : Instr) (rest : List Request) (hq : s.pending = .code c :: rest)
      (hd : decode s.params.subMap c = .ok i) (h : exec i (s.setPending rest) = .next t) : StepOutcome s t
  | rejected (c : Code) (e : Reject) (rest : List Request) (hq : s.pending = .code c :: rest)
      (hd : decode s.params.subMap c = .error e) (h : rejectCode e (s.setPending rest) = .next t) : StepOutcome s t

/-- The inversion lemma of a step. -/
theorem stepOutcome {s t : State} (h : step s = .next t) : StepOutcome s t := by
  cases hq : s.pending with
  | nil =>
    rw [step_of_pending_nil hq] at h
    cases h
    exact .waited hq rfl
  | cons q rest =>
    cases q with
    | write w => exact .wrote w rest hq (step_of_pending_write hq ▸ h)
    | code c =>
      cases hd : decode s.params.subMap c with
      | ok i => exact .executed c i rest hq hd (step_of_pending_code hq hd ▸ h)
      | error e => exact .rejected c e rest hq hd (step_of_pending_rejected hq hd ▸ h)

/-- The OPEN parameters and the queue are the same in both states. -/
structure SameParamsAndQueue (s t : State) : Prop where
  params : t.params = s.params
  pending : t.pending = s.pending

theorem writeRs_sameParamsAndQueue {i : Half} {change : Record → Record} {s t : State}
    (h : writeRs i change s = .next t) : SameParamsAndQueue s t := by
  unfold writeRs at h
  split at h <;> cases h
  exact ⟨rfl, rfl⟩

theorem hostWrite_sameParamsAndQueue {w : HostWrite} {s t : State} (h : hostWrite w s = .next t) :
    SameParamsAndQueue s t := by
  cases w with
  | buf a b =>
    simp only [hostWrite] at h
    split at h <;> cases h
    exact ⟨rfl, rfl⟩
  | rs i rec => exact writeRs_sameParamsAndQueue h
  | rsSlot i v => exact writeRs_sameParamsAndQueue h
  | rsClear i f => exact writeRs_sameParamsAndQueue h
  | _ => cases h; exact ⟨rfl, rfl⟩

/-- Every ending of a command is `finish` after writes of other fields. -/
theorem CommandOutcome.sameParamsAndQueue {i : Instr} {s t : State} (h : CommandOutcome s t i) :
    SameParamsAndQueue s t := by
  cases h <;> subst_vars <;> exact ⟨rfl, rfl⟩

/-- Every ending of a row is `finish`, `advance`, or writes of the slot file, the chain or the header. -/
theorem RowOutcome.sameParamsAndQueue {i : Instr} {s t : State} (h : RowOutcome s t i) :
    SameParamsAndQueue s t := by
  cases h <;> subst_vars <;> exact ⟨rfl, rfl⟩

theorem exec_sameParamsAndQueue {i : Instr} {s t : State} (h : exec i s = .next t) : SameParamsAndQueue s t := by
  cases hc : i.isCommand with
  | true => exact (commandOutcome hc h).sameParamsAndQueue
  | false => exact (rowOutcome hc h).sameParamsAndQueue

theorem rejectCode_sameParamsAndQueue {e : Reject} {s t : State} (h : rejectCode e s = .next t) :
    SameParamsAndQueue s t := by
  cases e <;> cases h <;> exact ⟨rfl, rfl⟩

/-- What holds of a request performed on the queue's tail holds of the step that took it. -/
theorem params_and_tail_of_setPending {s t : State} {q : Request} {rest : List Request} (hq : s.pending = q :: rest)
    (h : SameParamsAndQueue (s.setPending rest) t) : t.params = s.params ∧ t.pending = s.pending.tail :=
  ⟨h.params, by rw [h.pending, hq, State.setPending_pending, List.tail_cons]⟩

/-- Settles O12: a step either waits on an empty queue, or it takes the head off and performs it, and nothing that
can be performed writes the parameters or the queue. -/
theorem stepKeepsParametersAndQueueOrder : Obligations.StepKeepsParametersAndQueueOrder := by
  intro s t h
  cases stepOutcome h with
  | waited hq e => subst e; exact ⟨rfl, by rw [hq, List.tail_nil]⟩
  | wrote w rest hq hw => exact params_and_tail_of_setPending hq (hostWrite_sameParamsAndQueue hw)
  | executed c i rest hq hd hx => exact params_and_tail_of_setPending hq (exec_sameParamsAndQueue hx)
  | rejected c e rest hq hd hr => exact params_and_tail_of_setPending hq (rejectCode_sameParamsAndQueue hr)

end Sys2Proof.Machine

/-! ## STATUS, CUR and PH are no input of a command -/

namespace Sys2Proof.Machine

/-- The state with other contents of STATUS, CUR and PH, the fields that every command writes before it ends
(`State.finish`) and none reads (10_state.md R24, R26, R34). -/
def State.withStatusCursorPhase (s : State) (st : BitVec 3) (c : Half) (p : Option Phase) : State :=
  { s with status := st, cur := c, ph := p }

section
variable (s : State) (st : BitVec 3) (c : Half) (p : Option Phase)

theorem finish_withStatusCursorPhase (code : BitVec 3) :
    (s.withStatusCursorPhase st c p).finish code = s.finish code := rfl

theorem raise_withStatusCursorPhase (k : ErrorKind) : raise k (s.withStatusCursorPhase st c p) = raise k s := by
  rw [raise_eq, raise_eq, finish_withStatusCursorPhase]

/-- A command whose result is computed from the other fields ends the same, if its writes followed by `finish` do. -/
theorem conclude_withStatusCursorPhase {α : Type} (result : Except ErrorKind α) {write' write : α → State}
    (hw : ∀ v, (write' v).finish 0 = (write v).finish 0) :
    conclude (s.withStatusCursorPhase st c p) result write' = conclude s result write := by
  cases result with
  | ok v => rw [conclude_ok, conclude_ok, hw]
  | error k => rw [conclude_error, conclude_error, finish_withStatusCursorPhase]

theorem slotToWire_withStatusCursorPhase (f : Field) :
    slotToWire f (s.withStatusCursorPhase st c p) = slotToWire f s := by
  have hr : (s.withStatusCursorPhase st c p).r = s.r := rfl
  unfold slotToWire
  rw [hr]
  cases s.r.get f with
  | none => exact raise_withStatusCursorPhase s st c p _
  | some v => exact conclude_withStatusCursorPhase s st c p (toWire s.params v) fun _ => rfl

theorem slotFromWire_withStatusCursorPhase (f : Field) :
    slotFromWire f (s.withStatusCursorPhase st c p) = slotFromWire f s :=
  conclude_withStatusCursorPhase s st c p (fromWire s.params f s.staged) fun _ => rfl

theorem execOfsQ_withStatusCursorPhase (f : Byte) :
    execOfsQ f (s.withStatusCursorPhase st c p) = execOfsQ f s := by
  unfold execOfsQ
  split
  · exact conclude_withStatusCursorPhase s st c p (fieldOffset s.params s.validBytes f.toNat) fun _ => rfl
  · exact raise_withStatusCursorPhase s st c p _

end

/-- Settles O16: a command reads STATUS, CUR and PH neither for its result nor for its writes, and `finish` writes all
three. Commands without a computed result agree by definition; the others end in `conclude`. -/
theorem commandsIgnoreStatusCursorAndPhase : Obligations.CommandsIgnoreStatusCursorAndPhase := by
  intro i s st c p hc
  cases i with
  | hdrEnc | fspecEnc | fsSet | fsGet => rfl
  | hdrDec => exact conclude_withStatusCursorPhase s st c p (hdrDec s.staged) fun _ => rfl
  | fspecDec => exact conclude_withStatusCursorPhase s st c p (fspecParse s.validBytes) fun _ => rfl
  | towDsi | towMty | towTod | towSec | towArp | towScs | towSpm | towGpw | towPos =>
    exact slotToWire_withStatusCursorPhase s st c p _
  | frwDsi | frwMty | frwTod | frwSec | frwArp | frwScs | frwSpm | frwGpw | frwPos =>
    exact slotFromWire_withStatusCursorPhase s st c p _
  | recEnc => exact conclude_withStatusCursorPhase s st c p (recEnc s.params s.r) fun _ => rfl
  | recDec => exact conclude_withStatusCursorPhase s st c p (recDec s.params s.validBytes) fun _ => rfl
  | ofsQ f => exact execOfsQ_withStatusCursorPhase s st c p f
  | msgEnc => exact conclude_withStatusCursorPhase s st c p (msgEnc s.params s.hcat s.rs) fun _ => rfl
  | msgDec => exact conclude_withStatusCursorPhase s st c p (msgDec s.params s.validBytes) fun _ => rfl
  | _ => cases hc

end Sys2Proof.Machine

/-! ## The invariant every step keeps -/

namespace Sys2Proof.Machine

/-- No value takes more than eight octets (43_record_engine.md R174). -/
theorem FieldValue.wireSize_le (v : FieldValue) : v.wireSize ≤ 8 := by
  cases v with
  | scs v | spm v =>
    have hcom := v.com.isSome.toNat_le
    have hpsr := v.psr.isSome.toNat_le
    have hssr := v.ssr.isSome.toNat_le
    have hmds := v.mds.isSome.toNat_le
    simp only [FieldValue.wireSize, option_toList_length]
    omega
  | _ => simp only [FieldValue.wireSize]; decide

/-- A chain of at most two octets, then nine values of at most eight octets each. -/
theorem recEnc_length_le {p : Config.Params} {rec : Record} {bs : List Byte} (h : recEnc p rec = .ok bs) :
    bs.length ≤ 74 := by
  obtain ⟨body, hb, rfl⟩ := recEnc_ok.1 h
  have hchain : (fspecBuild (presentFrns rec)).length ≤ 2 := by
    rw [presentFrns, fspecBuild_length]
    split <;> decide
  have hcount : rec.values.length ≤ 9 := by simpa [codecFields] using rec.values_fields.length_le
  have hsum : (rec.values.map FieldValue.wireSize).sum ≤ rec.values.length * 8 := by
    simpa using List.sum_le_card_nsmul (rec.values.map FieldValue.wireSize) 8 (by simpa using fun v _ => v.wireSize_le)
  rw [List.length_append, joinWire_length hb]
  omega

/-- `NREC := n` leaves exactly n records (10_state.md R32; log entry 5). -/
theorem State.setNrec_rs_length (s : State) (n : Nat) : (s.setNrec n).rs.length = n := by
  simp [freeRecords]
  omega

/-- What the end of a command owes to the invariant: the memory and the record store it leaves, and its code; the
phase is gone (10_state.md R34). -/
theorem State.inv_finish {s : State} {code : BitVec 3} (hbuf : Memory.wf s.buf) (hrs : s.rs.length ≤ 65535)
    (hcode : code.toNat ≤ 5) : (s.finish code).Inv := ⟨hbuf, hrs, hcode, .inl rfl⟩

theorem Memory.writeBytes_zero_wf {m : Memory} {bs : List Byte} (hm : Memory.wf m) (h : bs.length ≤ 65535) :
    Memory.wf (Memory.writeBytes m 0 bs) := Memory.writeBytes_wf bs hm ((Nat.zero_add _).trans_le h)

/-- Only REC.ENC and MSG.ENC write BUF, and their octets fit it; only MSG.DEC writes RS, and its records are fewer
than the octets of BUF; every other ending is `finish` after writes that the invariant does not speak of. -/
theorem CommandOutcome.inv {i : Instr} {s t : State} (hs : s.Inv) (h : CommandOutcome s t i) : t.Inv := by
  obtain ⟨hbuf, hrs, -, -⟩ := hs
  cases h with
  | recEnc bs h e =>
    have hfit : bs.length ≤ 65535 := (recEnc_length_le h).trans (by decide)
    exact e ▸ State.inv_finish (Memory.writeBytes_zero_wf hbuf hfit) hrs (by decide)
  | msgEnc bs h e =>
    exact e ▸ State.inv_finish (Memory.writeBytes_zero_wf hbuf (msgDec_msgEnc h).2) hrs (by decide)
  | msgDec d h e =>
    have hcount : d.2.2.length ≤ 65535 := by
      obtain ⟨-, hlen, hle⟩ := msgDec_ok h
      have := d.2.1.isLt
      omega
    exact e ▸ State.inv_finish hbuf hcount (by decide)
  | hdrEnc e | hdrDec _ _ e | fsSet _ _ e | fsGet _ _ e | fspecEnc e | fspecDec _ _ e | tow _ _ _ _ _ e | frw _ _ _ e
  | recDec _ _ e | ofsQ _ _ _ _ e => exact e ▸ State.inv_finish hbuf hrs (by decide)
  | hdrDecRaise _ _ e | fsSetRaise _ _ e | fsGetRaise _ _ e | fspecDecRaise _ _ e | towRaise _ _ _ _ _ e
  | towEmpty _ _ e | frwRaise _ _ _ e | recEncRaise _ _ e | recDecRaise _ _ e | ofsQRaise _ _ _ _ e | ofsQBad _ _ e
  | msgEncRaise _ _ e | msgDecRaise _ _ e => exact e ▸ State.inv_finish hbuf hrs (ErrorKind.code_le _)

/-- A row leaves BUF, RS and STATUS unless it raises, and the one phase it can set is ReadRecord (log entry 8). -/
theorem RowOutcome.inv {i : Instr} {s t : State} (hs : s.Inv) (h : RowOutcome s t i) : t.Inv := by
  obtain ⟨hbuf, hrs, hcode, hph⟩ := hs
  cases h with
  | raised _ k e => exact e ▸ State.inv_finish hbuf hrs k.code_le
  | header c l h e => exact e ▸ ⟨hbuf, hrs, hcode, .inr rfl⟩
  | field _ _ _ _ e | fx0 _ _ _ e | tested _ e | subfield _ _ _ _ e => exact e ▸ ⟨hbuf, hrs, hcode, hph⟩

theorem exec_inv {i : Instr} {s t : State} (hs : s.Inv) (h : exec i s = .next t) : t.Inv := by
  cases hc : i.isCommand with
  | true => exact (commandOutcome hc h).inv hs
  | false => exact (rowOutcome hc h).inv hs

theorem writeRs_inv {i : Half} {change : Record → Record} {s t : State} (hs : s.Inv)
    (h : writeRs i change s = .next t) : t.Inv := by
  obtain ⟨hbuf, hrs, hcode, hph⟩ := hs
  unfold writeRs at h
  split at h <;> cases h
  exact ⟨hbuf, (List.length_modify ..).trans_le hrs, hcode, hph⟩

/-- A host write to BUF is bounded by BUFCAP, and NREC takes 16 bits (70_reset_and_hazards.md R238). -/
theorem hostWrite_inv {w : HostWrite} {s t : State} (hs : s.Inv) (h : hostWrite w s = .next t) : t.Inv := by
  have ⟨hbuf, hrs, hcode, hph⟩ := hs
  cases w with
  | buf a b =>
    simp only [hostWrite] at h
    split at h <;> cases h
    exact ⟨Memory.write_wf b hbuf ‹_›, hrs, hcode, hph⟩
  | nrec n =>
    cases h
    exact ⟨hbuf, (s.setNrec_rs_length n.toNat).trans_le (Nat.le_of_lt_succ n.isLt), hcode, hph⟩
  | rs i rec => exact writeRs_inv hs h
  | rsSlot i v => exact writeRs_inv hs h
  | rsClear i f => exact writeRs_inv hs h
  | _ => cases h; exact ⟨hbuf, hrs, hcode, hph⟩

theorem rejectCode_inv {e : Reject} {s t : State} (hs : s.Inv) (h : rejectCode e s = .next t) : t.Inv := by
  have ⟨hbuf, hrs, _, _⟩ := hs
  cases e with
  | illegalOp | illegalArg => cases h; exact State.inv_finish hbuf hrs (ErrorKind.code_le _)
  | nothingDeclared => cases h; exact hs

/-- The invariant does not speak of the queue. -/
theorem State.Inv.setPending {s : State} (hs : s.Inv) (q : List Request) : (s.setPending q).Inv := hs

/-- Settles O11: a step waits or performs the head of the queue, and whatever can be performed keeps the invariant. -/
theorem everyStepKeepsTheInvariant : Obligations.EveryStepKeepsTheInvariant := by
  intro s t hs h
  cases stepOutcome h with
  | waited hq e => exact e ▸ hs
  | wrote w rest hq hw => exact hostWrite_inv (hs.setPending rest) hw
  | executed c i rest hq hd hx => exact exec_inv (hs.setPending rest) hx
  | rejected c e rest hq hd hr => exact rejectCode_inv (hs.setPending rest) hr

end Sys2Proof.Machine

/-! ## Octets at or beyond BLEN are no input of a command -/

namespace Sys2Proof.Machine

/-- The state with another memory in BUF. -/
def State.withBuf (s : State) (m : Memory) : State := { s with buf := m }

section
variable {s t : State} {m : Memory}

/-- The valid octets are those below BLEN and no others (20_memory.md R51). -/
theorem State.withBuf_validBytes (hm : ∀ a, a < s.blen.toNat → Memory.octet m a = Memory.octet s.buf a) :
    (s.withBuf m).validBytes = s.validBytes :=
  List.map_congr_left fun a ha => hm a (List.mem_range.1 ha)

theorem raise_withBuf {k : ErrorKind} (h : raise k s = .next t) : raise k (s.withBuf m) = .next (t.withBuf m) := by
  cases h; rfl

theorem commit_withBuf {u : State} (h : commit u = .next t) : commit (u.withBuf m) = .next (t.withBuf m) := by
  cases h; rfl

/-- A command that computes the same result and writes the same but for BUF ends the same but for BUF. -/
theorem conclude_withBuf {α : Type} {result : Except ErrorKind α} {write' write : α → State}
    (hw : ∀ v, write' v = (write v).withBuf m) (h : conclude s result write = .next t) :
    conclude (s.withBuf m) result write' = .next (t.withBuf m) := by
  rcases conclude_cases h with ⟨v, rfl, rfl⟩ | ⟨k, rfl, rfl⟩
  · rw [conclude_ok, hw]; rfl
  · rfl

/-- The same for a result computed from the valid octets. -/
theorem conclude_validBytes_withBuf {α : Type} (result : List Byte → Except ErrorKind α) {write' write : α → State}
    (hm : ∀ a, a < s.blen.toNat → Memory.octet m a = Memory.octet s.buf a)
    (hw : ∀ v, write' v = (write v).withBuf m) (h : conclude s (result s.validBytes) write = .next t) :
    conclude (s.withBuf m) (result (s.withBuf m).validBytes) write' = .next (t.withBuf m) := by
  rw [State.withBuf_validBytes hm]
  exact conclude_withBuf hw h

/-- An operand test that raises does not read BUF. -/
theorem guarded_withBuf {ok : Bool} {k : ErrorKind} {run run' : Host.Outcome State Fault Refusal}
    (hrun : run = .next t → run' = .next (t.withBuf m)) (h : (if ok then run else raise k s) = .next t) :
    (if ok then run' else raise k (s.withBuf m)) = .next (t.withBuf m) := by
  cases ok with
  | true => exact hrun h
  | false => exact raise_withBuf h

theorem slotToWire_withBuf {f : Field} (h : slotToWire f s = .next t) :
    slotToWire f (s.withBuf m) = .next (t.withBuf m) := by
  have hr : (s.withBuf m).r = s.r := rfl
  unfold slotToWire at h ⊢
  rw [hr]
  cases hv : s.r.get f with
  | none => rw [hv] at h; exact raise_withBuf h
  | some v => rw [hv] at h; exact conclude_withBuf (fun _ => rfl) h

theorem slotFromWire_withBuf {f : Field} (h : slotFromWire f s = .next t) :
    slotFromWire f (s.withBuf m) = .next (t.withBuf m) := conclude_withBuf (fun _ => rfl) h

end

/-- Settles O17: the commands that read BUF read it through its valid octets, the others do not read it, and none but
REC.ENC and MSG.ENC writes it. -/
theorem commandsIgnoreOctetsBeyondBlen : Obligations.CommandsIgnoreOctetsBeyondBlen := by
  intro i s t m hc hrec hmsg hm h
  cases i with
  | hdrEnc | fspecEnc => exact commit_withBuf h
  | fsSet | fsGet => exact guarded_withBuf commit_withBuf h
  | hdrDec => exact conclude_withBuf (fun _ => rfl) h
  | towDsi | towMty | towTod | towSec | towArp | towScs | towSpm | towGpw | towPos => exact slotToWire_withBuf h
  | frwDsi | frwMty | frwTod | frwSec | frwArp | frwScs | frwSpm | frwGpw | frwPos => exact slotFromWire_withBuf h
  | fspecDec => exact conclude_validBytes_withBuf fspecParse hm (fun _ => rfl) h
  | recDec => exact conclude_validBytes_withBuf (recDec s.params) hm (fun _ => rfl) h
  | ofsQ f =>
    exact guarded_withBuf (conclude_validBytes_withBuf (fieldOffset s.params · f.toNat) hm fun _ => rfl) h
  | msgDec => exact conclude_validBytes_withBuf (msgDec s.params) hm (fun _ => rfl) h
  | recEnc => exact absurd rfl hrec
  | msgEnc => exact absurd rfl hmsg
  | _ => cases hc

end Sys2Proof.Machine

/-! ## Codes: what encodes reads back, and what a command word can be read as -/

namespace Sys2Proof.Machine

@[simp] theorem commandOp_append (op arg : Byte) : commandOp (op ++ arg) = op := BitVec.extractLsb'_append_eq_left

@[simp] theorem commandArg_append (op arg : Byte) : commandArg (op ++ arg) = arg := BitVec.extractLsb'_append_eq_right

/-- A command word is its operation code and its argument (30_encoding.md R86). -/
theorem commandOp_append_commandArg (w : Half) : commandOp w ++ commandArg w = w :=
  BitVec.extractLsb'_append_extractLsb'

theorem toNat_append_byte {m : Nat} (x : BitVec m) (b : Byte) : (x ++ b).toNat = x.toNat * 256 + b.toNat := by
  rw [BitVec.toNat_append, ← Nat.shiftLeft_add_eq_or_of_lt b.isLt, Nat.shiftLeft_eq]

theorem decode_commandWord (sm : Config.SubMap) (op arg : Byte) :
    decode sm (commandWord op arg) = decodeOpArg op arg := by
  simp [decode, commandWord, decodeCommand]

theorem decode_header_append (sm : Config.SubMap) (c : Byte) (l : Half) :
    decode sm (.header (c ++ l)) = .ok (.header c l) := by
  simp only [decode, decodeHeader, BitVec.extractLsb'_append_eq_left, BitVec.extractLsb'_append_eq_right]

/-- A primary octet with one subfield bit announces that subfield: SUBMAP's four bits are distinct (30_encoding.md
R78). -/
theorem decodePrimary_srcMask (sm : Config.SubMap) (item : StatusItem) :
    decodePrimary sm item (srcMask sm.com) = .ok (.subCom item) ∧
    decodePrimary sm item (srcMask sm.psr) = .ok (.subPsr item) ∧
    decodePrimary sm item (srcMask sm.ssr) = .ok (.subSsr item) ∧
    decodePrimary sm item (srcMask sm.mds) = .ok (.subMds item) := by
  obtain ⟨hcom, hpsr, hssr, hmds, hlow⟩ := sm.ordered
  have own : ∀ {n : Nat}, 2 ≤ n → n ≤ 8 → srcBit (srcMask n) n = true :=
    fun hn hn8 => by rw [srcBit_srcMask (by omega) hn8 (by omega), decide_eq_true rfl]
  have other : ∀ {n k : Nat}, 2 ≤ n → n < k → k ≤ 8 → srcBit (srcMask n) k = false :=
    fun hn hk hk8 => by rw [srcBit_srcMask (by omega) (by omega) (by omega), decide_eq_false hk.ne]
  refine ⟨?_, ?_, ?_, ?_⟩ <;> simp (disch := omega) [decodePrimary, own, other]

/-- Settles O1: a command word splits into operation code and argument again, a header into category and length; the
presence and FX bits are fixed octets, a subfield bit is the one bit SUBMAP gives it, and a test reads any octet. -/
theorem decodeOfEncodeIsTheInstruction : Obligations.DecodeOfEncodeIsTheInstruction := by
  intro sm i hw
  cases i with
  | fsSet n | fsGet n | ofsQ f => exact (decode_commandWord sm _ _).trans (if_pos hw)
  | subCom item => obtain ⟨h, -, -, -⟩ := decodePrimary_srcMask sm item; exact h
  | subPsr item => obtain ⟨-, h, -, -⟩ := decodePrimary_srcMask sm item; exact h
  | subSsr item => obtain ⟨-, -, h, -⟩ := decodePrimary_srcMask sm item; exact h
  | subMds item => obtain ⟨-, -, -, h⟩ := decodePrimary_srcMask sm item; exact h
  | header c l => exact decode_header_append sm c l
  | _ => rfl

/-- What a command word is read as: the command whose code it is, where 30_encoding.md R87 lists it as legal, and
otherwise a rejection of the operation or of its argument. -/
inductive CommandReading (w : Half) : Except Reject Instr → Prop
  | read (i : Instr) (legal : legalCommand w = true) (command : i.isCommand = true)
      (code : ∀ sm, encode sm i = .command w) : CommandReading w (.ok i)
  | refused (e : Reject) (illegal : legalCommand w = false) (named : e ≠ .nothingDeclared) :
      CommandReading w (.error e)

/-- R87's list on operation code and argument. -/
theorem legalCommand_append (op arg : Byte) : legalCommand (op ++ arg) =
    ((op.toNat ∈ [0x10, 0x11, 0x22, 0x23, 0x40, 0x41, 0x50, 0x51] && arg.toNat = 0) ||
    (op.toNat ∈ [0x20, 0x21] && 1 ≤ arg.toNat && arg.toNat ≤ 8) ||
    (op.toNat ∈ [0x30, 0x31] && arg.toNat ∈ [1, 2, 3, 4, 5, 6, 7, 9, 11]) ||
    (op.toNat = 0x42 && 1 ≤ arg.toNat && arg.toNat ≤ 14) : Bool) := by
  have hop : (op ++ arg).toNat / 256 = op.toNat := by rw [toNat_append_byte]; omega
  have harg : (op ++ arg).toNat % 256 = arg.toNat := by rw [toNat_append_byte]; omega
  simp only [legalCommand, hop, harg]

theorem noArg_reading {op arg : Byte} {i : Instr} (hlegal : legalCommand (op ++ arg) = decide (arg.toNat = 0))
    (hi : i.isCommand = true) (hcode : ∀ sm, encode sm i = commandWord op 0) :
    CommandReading (op ++ arg) (noArg op arg i) := by
  unfold noArg
  split
  · next h => subst h; exact .read i hlegal hi hcode
  · next h => exact .refused _ (by rw [hlegal]; simpa using mt BitVec.eq_of_toNat_eq h) nofun

theorem bounded_reading {op arg : Byte} {i : Instr} (hlegal : legalCommand (op ++ arg) = i.WellFormed)
    (hi : i.isCommand = true) (hcode : ∀ sm, encode sm i = commandWord op arg) :
    CommandReading (op ++ arg) (if i.WellFormed then .ok i else .error (.illegalArg op arg)) := by
  split
  · next h => exact .read i (hlegal.trans h) hi hcode
  · next h => exact .refused _ (hlegal.trans (Bool.eq_false_iff.2 h)) nofun

theorem decodeTow_reading (arg : Byte) : CommandReading (0x30#8 ++ arg) (decodeTow arg) := by
  unfold decodeTow
  split
  case h_10 => exact .refused _ (by simp_all [legalCommand_append, BitVec.toNat_eq]) nofun
  all_goals exact .read _ rfl rfl fun _ => rfl

theorem decodeFrw_reading (arg : Byte) : CommandReading (0x31#8 ++ arg) (decodeFrw arg) := by
  unfold decodeFrw
  split
  case h_10 => exact .refused _ (by simp_all [legalCommand_append, BitVec.toNat_eq]) nofun
  all_goals exact .read _ rfl rfl fun _ => rfl

/-- The inversion lemma of the command table. -/
theorem decodeOpArg_reading (op arg : Byte) : CommandReading (op ++ arg) (decodeOpArg op arg) := by
  unfold decodeOpArg
  split
  case h_3 | h_4 | h_11 => exact bounded_reading (by simp [legalCommand_append, Instr.WellFormed]) rfl fun _ => rfl
  case h_7 => exact decodeTow_reading arg
  case h_8 => exact decodeFrw_reading arg
  case h_14 => exact .refused _ (by simp_all [legalCommand_append, BitVec.toNat_eq]) nofun
  all_goals exact noArg_reading (by simp [legalCommand_append]) rfl fun _ => rfl

theorem decode_command_reading (sm : Config.SubMap) (w : Half) : CommandReading w (decode sm (.command w)) := by
  have h := decodeOpArg_reading (commandOp w) (commandArg w)
  rwa [commandOp_append_commandArg] at h

/-- Settles O2: a command word is its operation code and its argument, and the table reads them as the command whose
code they are. -/
theorem commandWordsHaveOneReading : Obligations.CommandWordsHaveOneReading := by
  intro sm w i h
  have reading := decode_command_reading sm w
  rw [h] at reading
  cases reading with
  | read _ legal command code => exact ⟨code sm, Laws.DecodesWellFormed.decodeCommand_wellFormed h, command⟩

/-- A code rejected for its operation or its argument is an illegal command word (30_encoding.md R87). -/
theorem rejectCode_of_ne {e : Reject} (h : e ≠ .nothingDeclared) (s : State) :
    rejectCode e s = .next (s.finish 5) := by
  cases e with
  | illegalOp | illegalArg => rfl
  | nothingDeclared => exact absurd rfl h

/-- Settles O3: the command table reads a word as a command exactly where R87 lists it, and every rejection it can
give raises CommandInvalid. -/
theorem illegalCommandWordsRaiseCommandInvalid : Obligations.IllegalCommandWordsRaiseCommandInvalid := by
  intro s w rest hq
  have reading := decode_command_reading s.params.subMap w
  cases hd : decode s.params.subMap (.command w) with
  | ok i =>
    rw [hd] at reading
    cases reading with
    | read _ legal command code =>
      exact ⟨fun illegal => absurd (legal.symm.trans illegal) (by decide),
        fun _ => ⟨i, command, rfl, step_of_pending_code hq hd⟩⟩
  | error e =>
    rw [hd] at reading
    cases reading with
    | refused _ illegal named =>
      exact ⟨fun _ => (step_of_pending_rejected hq hd).trans (rejectCode_of_ne named _),
        fun legal => absurd (illegal.symm.trans legal) (by decide)⟩

/-- Settles O4, each code by running the decoder on it. -/
theorem writtenOutCodesDecode : Obligations.WrittenOutCodesDecode :=
  ⟨rfl, rfl, rfl, rfl, rfl, rfl, rfl, rfl, rfl, rfl⟩

/-- Settles O5: `step_of_pending_code`, the law of a step over a code that decodes. -/
theorem stepRunsTheDecodedInstruction : Obligations.StepRunsTheDecodedInstruction :=
  fun _ _ _ _ hq hd => step_of_pending_code hq hd

end Sys2Proof.Machine

/-! ## The first declared FRN that fails ends REC.DEC -/

namespace Sys2Proof.Machine

/-- The octets `rest` begin with those of one value for each FRN of `fs` that the chain declares, in order; `more` is
what follows them (43_record_engine.md R172). -/
def ReadsFrns (p : Config.Params) (o : List Byte) (fs : List Nat) (rest more : List Byte) : Prop :=
  ∃ (vs : List FieldValue) (body : List Byte),
    (fs.filter (declared o)).map Field.ofFrn = vs.map (fun v => some v.field) ∧
    joinWire (vs.map (toWire p)) = .ok body ∧ rest = body ++ more

theorem readsFrns_nil (p : Config.Params) (o rest : List Byte) : ReadsFrns p o [] rest rest :=
  ⟨[], [], rfl, rfl, rfl⟩

theorem readsFrns_cons_undeclared {p : Config.Params} {o rest more : List Byte} {f : Nat} {fs : List Nat}
    (hd : declared o f = false) (h : ReadsFrns p o fs rest more) : ReadsFrns p o (f :: fs) rest more := by
  simpa [ReadsFrns, hd] using h

theorem readsFrns_cons_declared {p : Config.Params} {o rest more : List Byte} {f n : Nat} {fs : List Nat} {fld : Field}
    {v : FieldValue} (hd : declared o f = true) (hfld : Field.ofFrn f = some fld)
    (hat : fieldAt p fld rest = .ok (v, n)) (h : ReadsFrns p o fs (rest.drop n) more) :
    ReadsFrns p o (f :: fs) rest more := by
  obtain ⟨vs, body, hfields, hbody, hrest⟩ := h
  obtain ⟨hfield, hwire, -⟩ := fieldAt_ok hat
  refine ⟨v :: vs, rest.take n ++ body, by simp [hd, hfld, hfield, hfields],
    joinWire_cons_ok.2 ⟨_, _, hwire, hbody, rfl⟩, ?_⟩
  rw [List.append_assoc, ← hrest, List.take_append_drop]

theorem allFrns_split {f : Nat} (h1 : 1 ≤ f) (h14 : f ≤ 14) :
    allFrns = allFrns.filter (· < f) ++ f :: allFrns.filter (f < ·) := by
  interval_cases f <;> rfl

/-- Where a record's octets begin with their chain, the declared fields below f read iff those of the FRNs below f
read from what follows the chain. -/
theorem readsBelow_iff {p : Config.Params} {o rest more : List Byte} {f : Nat} :
    ReadsBelow p o (o ++ rest) f more ↔ ReadsFrns p o (allFrns.filter (· < f)) rest more := by
  simp only [ReadsBelow, ReadsFrns, chainFrns, List.filter_comm, List.append_assoc, List.append_cancel_left_eq]

/-- The loop ends at an FRN whose field fails at the cursor. -/
theorem decodeFields_of_fails {p : Config.Params} {o more : List Byte} {f : Nat} {k : ErrorKind} (h1 : 1 ≤ f)
    (h14 : f ≤ 14) (hd : declared o f = true) (h : FieldFails p f more k) (gs : List Nat) (acc : Record) (n : Nat) :
    decodeFields p o (f :: gs) more acc n = .error k := by
  rw [decodeFields, if_pos hd]
  rcases (fieldFails_iff h1 h14).1 h with ⟨hnone, rfl⟩ | ⟨fld, hfld, herr⟩
  · rw [hnone]
  · rw [hfld]
    simp only [herr]

/-- The loop over FRNs that read, then over one that fails, ends with its error. -/
theorem decodeFields_of_readsFrns {p : Config.Params} {o rest more : List Byte} {fs gs : List Nat} {f : Nat}
    {k : ErrorKind} (hr : ReadsFrns p o fs rest more) (h1 : 1 ≤ f) (h14 : f ≤ 14) (hd : declared o f = true)
    (h : FieldFails p f more k) (acc : Record) (n : Nat) :
    decodeFields p o (fs ++ f :: gs) rest acc n = .error k := by
  obtain ⟨vs, body, hfields, hbody, rfl⟩ := hr
  rw [decodeFields_append, decodeFields_toWire hfields hbody]
  simp only [Nat.add_sub_cancel_left, List.drop_left, decodeFields_of_fails h1 h14 hd h]

/-- A loop over FRNs that fails has a first FRN that fails, and the ones before it read. -/
theorem decodeFields_error_split {p : Config.Params} {o : List Byte} {fs : List Nat} {rest : List Byte} {acc : Record}
    {n : Nat} {k : ErrorKind} (hfs : ∀ f ∈ fs, 1 ≤ f ∧ f ≤ 14) (h : decodeFields p o fs rest acc n = .error k) :
    ∃ pre f post more, fs = pre ++ f :: post ∧ declared o f = true ∧ ReadsFrns p o pre rest more ∧
      FieldFails p f more k := by
  induction fs generalizing rest acc n with
  | nil => cases h
  | cons f fs ih =>
    obtain ⟨⟨h1, h14⟩, hfs⟩ := List.forall_mem_cons.1 hfs
    rw [decodeFields] at h
    cases hd : declared o f with
    | false =>
      rw [hd, if_neg Bool.false_ne_true] at h
      obtain ⟨pre, g, post, more, rfl, hg, hr, hfail⟩ := ih hfs h
      exact ⟨f :: pre, g, post, more, rfl, hg, readsFrns_cons_undeclared hd hr, hfail⟩
    | true =>
      rw [hd, if_pos rfl] at h
      cases hfld : Field.ofFrn f with
      | none =>
        rw [hfld] at h
        cases h
        exact ⟨[], f, fs, rest, rfl, hd, readsFrns_nil p o rest, (fieldFails_iff h1 h14).2 (.inl ⟨hfld, rfl⟩)⟩
      | some fld =>
        simp only [hfld] at h
        cases hat : fieldAt p fld rest with
        | error e =>
          rw [hat] at h
          cases h
          exact ⟨[], f, fs, rest, rfl, hd, readsFrns_nil p o rest, (fieldFails_iff h1 h14).2 (.inr ⟨fld, hfld, hat⟩)⟩
        | ok d =>
          obtain ⟨v, size⟩ := d
          rw [hat] at h
          obtain ⟨pre, g, post, more, rfl, hg, hr, hfail⟩ := ih hfs h
          exact ⟨f :: pre, g, post, more, rfl, hg, readsFrns_cons_declared hd hfld hat hr, hfail⟩

/-- The FRNs before f in ascending order are those below f. -/
theorem filter_lt_of_allFrns_eq {pre post : List Nat} {f : Nat} (h : allFrns = pre ++ f :: post) :
    allFrns.filter (· < f) = pre := by
  have hsorted : (pre ++ f :: post).Pairwise (· < ·) := h ▸ by decide
  obtain ⟨-, hpost, hpre⟩ := List.pairwise_append.1 hsorted
  rw [h, List.filter_append, List.filter_eq_self.2, List.filter_eq_nil_iff.2, List.append_nil]
  · intro g hg
    rcases List.mem_cons.1 hg with rfl | hg
    · simp
    · simpa using ((List.pairwise_cons.1 hpost).1 g hg).le
  · exact fun g hg => decide_eq_true (hpre g hg f (List.mem_cons_self ..))

theorem exec_recDec (s : State) : exec .recDec s =
    conclude s (recDec s.params s.validBytes) fun d => (s.setRecord d.1).setRlen d.2 := rfl

theorem recDec_of_fieldFails {p : Config.Params} {o bs more : List Byte} {f : Nat} {k : ErrorKind}
    (ho : fspecParse bs = .ok o) (h1 : 1 ≤ f) (h14 : f ≤ 14) (hd : declared o f = true)
    (hr : ReadsBelow p o bs f more) (h : FieldFails p f more k) : recDec p bs = .error k := by
  obtain ⟨rest, rfl, -⟩ := fspecParse_ok ho
  simp only [recDec, ho, List.drop_left]
  rw [allFrns_split h1 h14]
  exact decodeFields_of_readsFrns (readsBelow_iff.1 hr) h1 h14 hd h _ _

theorem recDec_error_fieldFails {p : Config.Params} {o bs : List Byte} {k : ErrorKind} (ho : fspecParse bs = .ok o)
    (h : recDec p bs = .error k) :
    ∃ f more, 1 ≤ f ∧ f ≤ 14 ∧ declared o f = true ∧ ReadsBelow p o bs f more ∧ FieldFails p f more k := by
  obtain ⟨rest, rfl, -⟩ := fspecParse_ok ho
  simp only [recDec, ho, List.drop_left] at h
  obtain ⟨pre, f, post, more, hsplit, hd, hr, hfail⟩ := decodeFields_error_split (fun _ => mem_allFrns.1) h
  obtain ⟨h1, h14⟩ : 1 ≤ f ∧ f ≤ 14 := mem_allFrns.1 (by simp [hsplit])
  exact ⟨f, more, h1, h14, hd, readsBelow_iff.2 (filter_lt_of_allFrns_eq hsplit ▸ hr), hfail⟩

/-- Settles O45: the loop over the fields is the loop over the FRNs below f, which reads back the values before f, and
then f's own test; and a loop that fails has a first FRN that fails. -/
theorem unsupportedFrnEndsRecDec : Obligations.UnsupportedFrnEndsRecDec := by
  intro s o ho
  have raises : ∀ (f : Nat) (more : List Byte) (k : ErrorKind), 1 ≤ f → f ≤ 14 → declared o f = true →
      ReadsBelow s.params o s.validBytes f more → FieldFails s.params f more k →
      exec .recDec s = .next (s.finish k.code) := by
    intro f more k h1 h14 hd hr h
    rw [exec_recDec, recDec_of_fieldFails ho h1 h14 hd hr h, conclude_error]
  refine ⟨raises, fun f more hf hd hr => ?_, ?_⟩
  · have hrange : 1 ≤ f ∧ f ≤ 14 := by
      simp only [List.mem_cons, List.not_mem_nil, or_false] at hf
      omega
    exact raises f more .itemUnsupported hrange.1 hrange.2 hd hr (.noCodec hf)
  · cases hdec : recDec s.params s.validBytes with
    | ok d =>
      have he := exec_recDec s
      rw [hdec, conclude_ok] at he
      exact .inl ⟨_, he, rfl⟩
    | error k =>
      obtain ⟨f, more, h⟩ := recDec_error_fieldFails ho hdec
      exact .inr ⟨f, more, k, h⟩

end Sys2Proof.Machine

/-! ## The wire-level rows by themselves -/

namespace Sys2Proof.Machine

/-- Settles O56: these five rows do nothing but raise. -/
theorem rowsWithoutCodecRaiseItemUnsupported : Obligations.RowsWithoutCodecRaiseItemUnsupported := by
  intro s i hi
  simp only [List.mem_cons, List.not_mem_nil, or_false] at hi
  rcases hi with rfl | rfl | rfl | rfl | rfl <;> rfl

/-- The rows that write the slot of a field: its presence bit and, for an item with a primary octet, its subfield bits
(30_encoding.md R76, R78). -/
def slotRows : Field → List Instr
  | .dsi => [.frn1Dsi]
  | .mty => [.frn2Mty]
  | .tod => [.frn3Tod]
  | .sec => [.frn4Sec]
  | .arp => [.frn5Arp]
  | .scs => [.frn6Scs, .subCom .scs, .subPsr .scs, .subSsr .scs, .subMds .scs]
  | .spm => [.frn7Spm, .subCom .spm, .subPsr .spm, .subSsr .spm, .subMds .spm]
  | .gpw => [.frn9Gpw]
  | .pos => [.frn11Pos]

theorem frnInstr_mem_slotRows (f : Field) : frnInstr f.frn ∈ slotRows f := by cases f <;> exact List.mem_cons_self ..

theorem subfield_mem_slotRows {i : Instr} {item : StatusItem} (v : Subfields)
    (hi : i ∈ [.subCom item, .subPsr item, .subSsr item, .subMds item]) : i ∈ slotRows (itemValue item v).field := by
  cases item <;> exact List.mem_cons_of_mem _ hi

/-- What a row that does not raise leaves as it was (log entry 8). -/
structure RowFrame (i : Instr) (s t : State) : Prop where
  state : t = { s with r := t.r, cur := t.cur, fsp1 := t.fsp1, flen := t.flen, hcat := t.hcat, hlen := t.hlen,
                       ph := t.ph }
  chain : i ≠ .fx0 → t.fsp1 = s.fsp1 ∧ t.flen = s.flen
  header : (∀ c l, i ≠ .header c l) → t.hcat = s.hcat ∧ t.hlen = s.hlen ∧ t.ph = s.ph
  slots : ∀ f, i ∉ slotRows f → t.r.get f = s.r.get f

theorem rowFrame_putSlot {i : Instr} {v : FieldValue} (hi : i ∈ slotRows v.field) (s : State) (n : Nat) :
    RowFrame i s ((s.putSlot v).advance n) where
  state := rfl
  chain _ := ⟨rfl, rfl⟩
  header _ := ⟨rfl, rfl, rfl⟩
  slots f hf := by
    have hne : v.field ≠ f := fun e => hf (e ▸ hi)
    exact (Record.get_put s.r v f).trans (if_neg hne)

theorem RowOutcome.frame {i : Instr} {s t : State} (h : RowOutcome s t i) :
    (∃ k : ErrorKind, t = s.finish k.code) ∨ RowFrame i s t := by
  cases h with
  | raised _ k e => exact .inl ⟨k, e⟩
  | field f v n hat e =>
    obtain ⟨rfl, -⟩ := fieldAt_ok hat
    exact .inr (e ▸ rowFrame_putSlot (frnInstr_mem_slotRows v.field) s n)
  | subfield _ item hi v e => exact .inr (e ▸ rowFrame_putSlot (subfield_mem_slotRows v hi) s 1)
  | fx0 _ _ _ e => exact .inr (e ▸ ⟨rfl, fun h => absurd rfl h, fun _ => ⟨rfl, rfl, rfl⟩, fun _ _ => rfl⟩)
  | tested _ e => exact .inr (e ▸ ⟨rfl, fun _ => ⟨rfl, rfl⟩, fun _ => ⟨rfl, rfl, rfl⟩, fun _ _ => rfl⟩)
  | header c l _ e => exact .inr (e ▸ ⟨rfl, fun _ => ⟨rfl, rfl⟩, fun h => absurd rfl (h c l), fun _ _ => rfl⟩)

/-- Settles O58: `RowOutcome.frame`, with the slots written out one by one. -/
theorem wireRowsWriteOnlyTheirRegisters : Obligations.WireRowsWriteOnlyTheirRegisters := by
  intro i s t hc h
  refine (rowOutcome hc h).frame.imp_right fun ⟨state, chain, header, slots⟩ => ?_
  have inj : ∀ {α : Type} {g : α → FieldValue} {a b : Option α}, (∀ x y, g x = g y → x = y) →
      a.map g = b.map g → a = b := fun hg => (Option.map_injective fun x y => hg x y).eq_iff.1
  have single : ∀ {f : Field} {j : Instr}, slotRows f = [j] → i ≠ j → t.r.get f = s.r.get f :=
    fun hj hi => slots _ (hj ▸ fun hmem => hi (List.mem_singleton.1 hmem))
  exact ⟨state, chain, header,
    fun hi => inj (fun _ _ => FieldValue.dsi.inj) (single (f := .dsi) rfl hi),
    fun hi => inj (fun _ _ => FieldValue.mty.inj) (single (f := .mty) rfl hi),
    fun hi => inj (fun _ _ => FieldValue.tod.inj) (single (f := .tod) rfl hi),
    fun hi => inj (fun _ _ => FieldValue.sec.inj) (single (f := .sec) rfl hi),
    fun hi => inj (fun _ _ => FieldValue.arp.inj) (single (f := .arp) rfl hi),
    fun hi => inj (fun _ _ => FieldValue.scs.inj) (slots .scs hi),
    fun hi => inj (fun _ _ => FieldValue.spm.inj) (slots .spm hi),
    fun hi => inj (fun _ _ => FieldValue.gpw.inj) (single (f := .gpw) rfl hi),
    fun hi => inj (fun _ _ => FieldValue.pos.inj) (single (f := .pos) rfl hi)⟩

end Sys2Proof.Machine

/-! ### What the row of a fixed-size field reads -/

namespace Sys2Proof.Machine

section
variable {s : State} {f : Field} {n : Nat}

theorem runField_of_fieldAt {v : FieldValue} (h : fieldAt s.params f s.atCursor = .ok (v, n)) :
    runField f s = .next ((s.putSlot v).advance n) := by simp only [runField, h]

theorem runField_of_fieldAt_error {k : ErrorKind} (h : fieldAt s.params f s.atCursor = .error k) :
    runField f s = .next (s.finish k.code) := by simp only [runField, h, raise_eq]

/-- A field of fixed size whose octets are there reads these octets and no others (43_record_engine.md R172). -/
theorem fieldAt_of_octets {p : Config.Params} {rest bs more : List Byte} (h : rest = bs ++ more)
    (hf : f.fixedSize = some bs.length) : fieldAt p f rest = (fixedValue p f bs).map (·, bs.length) := by
  have hl : bs.length ≤ (bs ++ more).length := by simp
  simp only [h, fieldAt, fieldSize, fromWire, hf, if_pos hl, List.take_left, if_true]
  cases fixedValue p f bs <;> rfl

theorem runField_of_octets {bs more : List Byte} {v : FieldValue} (h : s.atCursor = bs ++ more)
    (hf : f.fixedSize = some bs.length) (hv : fixedValue s.params f bs = .ok v) :
    runField f s = .next ((s.putSlot v).advance bs.length) :=
  runField_of_fieldAt (by rw [fieldAt_of_octets h hf, hv]; rfl)

theorem runField_of_octets_error {bs more : List Byte} {k : ErrorKind} (h : s.atCursor = bs ++ more)
    (hf : f.fixedSize = some bs.length) (hv : fixedValue s.params f bs = .error k) :
    runField f s = .next (s.finish k.code) :=
  runField_of_fieldAt_error (by rw [fieldAt_of_octets h hf, hv]; rfl)

theorem runField_short (hf : f.fixedSize = some n) (hl : s.atCursor.length < n) :
    runField f s = .next (s.finish 1) :=
  runField_of_fieldAt_error (k := .sizeInvalid) (by simp only [fieldAt, fieldSize, hf, if_neg hl.not_ge])

end

/-- `sext_N` of the bits of a word is its two's complement value (00_scope.md R11). -/
theorem sext_toNat {w : Nat} (hw : 1 ≤ w) (x : BitVec w) : sext w x.toNat = x.toInt := by
  obtain ⟨k, rfl⟩ : ∃ k, w = k + 1 := ⟨w - 1, by omega⟩
  have hhalf : x.toNat < 2 ^ k ↔ 2 * x.toNat < 2 ^ (k + 1) := by rw [pow_succ]; omega
  simp only [sext, BitVec.toInt_eq_toNat_cond, Nat.add_sub_cancel, hhalf]
  push_cast
  rfl

theorem Scale.fromWire_unsigned {sc : Scale} (h : sc.signed = false) (bs : List Byte) :
    sc.fromWire bs = (beNat bs : Rat) * sc.m / ((2 ^ sc.k : Nat) : Rat) := by
  simp [Scale.fromWire, Scale.value, Scale.integer, h]

theorem Scale.fromWire_signed {sc : Scale} (h : sc.signed = true) {w : Nat} (hw : 8 * sc.w = w) (hpos : 1 ≤ w)
    {bs : List Byte} {x : BitVec w} (hx : x.toNat = beNat bs) :
    sc.fromWire bs = (x.toInt : Rat) * sc.m / ((2 ^ sc.k : Nat) : Rat) := by
  simp only [Scale.fromWire, Scale.value, Scale.integer, h, if_true, hw, ← hx, sext_toNat hpos x]

theorem scaleTod_fromWire (a b c : Byte) :
    scaleTod.fromWire [a, b, c] = ((a.toNat * 65536 + b.toNat * 256 + c.toNat : Nat) : Rat) / 128 := by
  rw [Scale.fromWire_unsigned rfl, beNat_triple]
  norm_num [scaleTod]

theorem scaleSec_fromWire (a : Byte) : scaleSec.fromWire [a] = (a.toNat : Rat) * 45 / 32 := by
  rw [Scale.fromWire_unsigned rfl, beNat_singleton]
  norm_num [scaleSec]

theorem scaleArp_fromWire (a b : Byte) :
    scaleArp.fromWire [a, b] = ((a.toNat * 256 + b.toNat : Nat) : Rat) / 128 := by
  rw [Scale.fromWire_unsigned rfl, beNat_pair]
  norm_num [scaleArp]

theorem scaleRho_fromWire (a b : Byte) :
    scaleRho.fromWire [a, b] = ((a.toNat * 256 + b.toNat : Nat) : Rat) / 256 := by
  rw [Scale.fromWire_unsigned rfl, beNat_pair]
  norm_num [scaleRho]

theorem scaleTheta_fromWire (a b : Byte) :
    scaleTheta.fromWire [a, b] = ((a.toNat * 256 + b.toNat : Nat) : Rat) * 45 / 8192 := by
  rw [Scale.fromWire_unsigned rfl, beNat_pair]
  norm_num [scaleTheta]

theorem scaleHeight_fromWire (a b : Byte) : scaleHeight.fromWire [a, b] = ((a ++ b).toInt : Rat) := by
  rw [Scale.fromWire_signed (sc := scaleHeight) (w := 8 + 8) (x := a ++ b) rfl rfl (by decide)
    (by rw [toNat_append_byte, beNat_pair])]
  norm_num [scaleHeight]

theorem scaleLatLon_fromWire (a b c : Byte) :
    scaleLatLon.fromWire [a, b, c] = ((a ++ b ++ c).toInt : Rat) * 45 / 2097152 := by
  rw [Scale.fromWire_signed (sc := scaleLatLon) (w := 8 + 8 + 8) (x := a ++ b ++ c) rfl rfl (by decide)
    (by rw [toNat_append_byte, toNat_append_byte, beNat_triple]; ring)]
  norm_num [scaleLatLon]

/-- Settles O54: each of these rows is `runField`, and the octets at the cursor are the field's own. -/
theorem fixedFieldRowsReadAtTheCursor : Obligations.FixedFieldRowsReadAtTheCursor := by
  intro s
  refine ⟨fun a b more h => ?dsi, fun a more h ok => ?mty, fun a b c more h => ?tod, fun a more h => ?sec,
    fun a b more h => ?arp, fun a b c d e f g i more h => ⟨?gpw, ?pos⟩, fun a more h strict outside => ?refused,
    fun h => ⟨runField_short (f := .dsi) rfl h, runField_short (f := .arp) rfl h⟩,
    fun h => ⟨runField_short (f := .mty) rfl h, runField_short (f := .sec) rfl h⟩,
    fun h => runField_short (f := .tod) rfl h,
    fun h => ⟨runField_short (f := .gpw) rfl h, runField_short (f := .pos) rfl h⟩⟩
  case dsi => exact runField_of_octets (f := .dsi) (bs := [a, b]) h rfl rfl
  case mty =>
    have hm : messageTypeOk s.params a = true := by simpa [messageTypeOk] using ok
    exact runField_of_octets (f := .mty) (bs := [a]) h rfl (if_pos hm)
  case tod =>
    rw [← scaleTod_fromWire]
    exact runField_of_octets (f := .tod) (bs := [a, b, c]) h rfl rfl
  case sec =>
    rw [← scaleSec_fromWire]
    exact runField_of_octets (f := .sec) (bs := [a]) h rfl rfl
  case arp =>
    rw [← scaleArp_fromWire]
    exact runField_of_octets (f := .arp) (bs := [a, b]) h rfl rfl
  case gpw =>
    rw [← scaleRho_fromWire, ← scaleRho_fromWire, ← scaleTheta_fromWire, ← scaleTheta_fromWire]
    exact runField_of_octets (f := .gpw) (bs := [a, b, c, d, e, f, g, i]) h rfl rfl
  case pos =>
    rw [← scaleHeight_fromWire, ← scaleLatLon_fromWire, ← scaleLatLon_fromWire]
    exact runField_of_octets (f := .pos) (bs := [a, b, c, d, e, f, g, i]) h rfl rfl
  case refused =>
    have hm : ¬ messageTypeOk s.params a = true := by simp [messageTypeOk, strict]; omega
    exact runField_of_octets_error (f := .mty) (bs := [a]) h rfl (if_neg hm)

/-! ### What the bit rows and the header do -/

section
variable {s : State}

theorem exec_fx0_cons {o : Byte} {more : List Byte} (h : s.atCursor = o :: more) :
    exec .fx0 s = .next { s with fsp1 := o, flen := 2, cur := s.cur + 1 } := by
  simp only [exec, execFx0, h]
  rfl

theorem exec_fx0_nil (h : s.atCursor = []) : exec .fx0 s = .next (s.finish 1) := by
  simp only [exec, execFx0, h]
  rfl

/-- A test of an octet raises or leaves the state (30_encoding.md R80, R82; log entry 22). -/
theorem raise_if_eq (failed : Bool) (k : ErrorKind) (s : State) :
    (if failed then raise k s else .next s) = .next (if failed then s.finish k.code else s) := by
  cases failed <;> rfl

theorem exec_subSpare (p : Byte) (s : State) :
    exec (.subSpare p) s = .next (if p &&& spareMask s.params.subMap = 0 then s else s.finish 4) := by
  refine (raise_if_eq (p &&& spareMask s.params.subMap != 0) .itemUnsupported s).trans ?_
  by_cases h : p &&& spareMask s.params.subMap = 0
  · rw [h]; rfl
  · rw [if_neg h, if_pos (bne_iff_ne.2 h)]; rfl

theorem runSubfield_cons {item : StatusItem} {set : Subfields → Byte → Subfields} {b : Byte} {more : List Byte}
    {v : Subfields} (h : s.atCursor = b :: more) (hv : s.subItem item = v) :
    runSubfield item set s = .next ((s.putSlot (itemValue item (set v b))).advance 1) := by
  simp only [runSubfield, h, hv]

theorem runSubfield_nil {item : StatusItem} {set : Subfields → Byte → Subfields} (h : s.atCursor = []) :
    runSubfield item set s = .next (s.finish 1) := by
  simp only [runSubfield, h]
  rfl

/-- The four subfield rows with an octet at the cursor put it into the item and move past it (30_encoding.md R78). -/
theorem exec_subfieldRows_cons {item : StatusItem} {b : Byte} {more : List Byte} {v : Subfields}
    (h : s.atCursor = b :: more) (hv : s.subItem item = v) :
    exec (.subCom item) s = .next ((s.putSlot (itemValue item { v with com := some b })).advance 1) ∧
    exec (.subPsr item) s = .next ((s.putSlot (itemValue item { v with psr := some b })).advance 1) ∧
    exec (.subSsr item) s = .next ((s.putSlot (itemValue item { v with ssr := some b })).advance 1) ∧
    exec (.subMds item) s = .next ((s.putSlot (itemValue item { v with mds := some b })).advance 1) :=
  ⟨runSubfield_cons (set := fun v b => { v with com := some b }) h hv,
    runSubfield_cons (set := fun v b => { v with psr := some b }) h hv,
    runSubfield_cons (set := fun v b => { v with ssr := some b }) h hv,
    runSubfield_cons (set := fun v b => { v with mds := some b }) h hv⟩

/-- The four subfield rows with no octet at the cursor raise (42_field_codecs.md R151). -/
theorem exec_subfieldRows_nil {item : StatusItem} (h : s.atCursor = []) :
    exec (.subCom item) s = .next (s.finish 1) ∧ exec (.subPsr item) s = .next (s.finish 1) ∧
    exec (.subSsr item) s = .next (s.finish 1) ∧ exec (.subMds item) s = .next (s.finish 1) :=
  ⟨runSubfield_nil (set := fun v b => { v with com := some b }) h,
    runSubfield_nil (set := fun v b => { v with psr := some b }) h,
    runSubfield_nil (set := fun v b => { v with ssr := some b }) h,
    runSubfield_nil (set := fun v b => { v with mds := some b }) h⟩

/-- An item whose slot is None counts as one with no subfields (42_field_codecs.md R150). -/
theorem getD_eq_of_slot {o : Option Subfields} {e v : Subfields} (h : o = some v ∨ (o = none ∧ v = e)) :
    o.getD e = v := by
  rcases h with rfl | ⟨rfl, rfl⟩ <;> rfl

/-- The length is tested before the category (60_exceptions.md R208 b). -/
theorem headerCheck_of_badLength {c : Byte} {l : Half} {n : Nat} (h : n < 3 ∨ l.toNat ≠ n) :
    headerCheck c l n = .error .sizeInvalid := by
  rcases headerCheck_cases c l n with ⟨-, e⟩ | ⟨-, -, e⟩ | ⟨hn, hl, -⟩ | ⟨hn, hl, -⟩
  · exact e
  · exact e
  all_goals omega

theorem headerCheck_of_length {c : Byte} {l : Half} {n : Nat} (hn : 3 ≤ n) (hl : l.toNat = n) :
    headerCheck c l n = if c = 34#8 then .ok () else .error .categoryInvalid := by
  rcases headerCheck_cases c l n with ⟨h, -⟩ | ⟨-, h, -⟩ | ⟨-, -, h, e⟩ | ⟨-, -, h, e⟩
  · omega
  · exact absurd hl h
  · rw [e, if_neg h]
  · rw [e, if_pos h]

theorem exec_header_of_error {c : Byte} {l : Half} {k : ErrorKind} (h : headerCheck c l s.blen.toNat = .error k) :
    exec (.header c l) s = .next (s.finish k.code) := by
  simp only [exec, execHeader, h, raise_eq]

theorem exec_header_of_ok {c : Byte} {l : Half} (h : headerCheck c l s.blen.toNat = .ok ()) :
    exec (.header c l) s = .next (((s.setHeader c l).setPh (some .readRecord)).setCur 3) := by
  simp only [exec, execHeader, h]
  rfl

end

/-- Settles O57, clause by clause from the law of each row. -/
theorem bitAndHeaderRowsByThemselves : Obligations.BitAndHeaderRowsByThemselves := by
  intro s
  refine ⟨fun _ _ => exec_fx0_cons, exec_fx0_nil, fun o => raise_if_eq (fx o) .sizeInvalid s,
    fun p => raise_if_eq (fx p) .sizeInvalid s, fun p => exec_subSpare p s,
    fun b more v h hv => exec_subfieldRows_cons (item := .scs) h (getD_eq_of_slot hv),
    fun b more v h hv => exec_subfieldRows_cons (item := .spm) h (getD_eq_of_slot hv),
    fun item => exec_subfieldRows_nil, fun c l h3 hl hc => ?accepted, fun c l h => ?badLength,
    fun c l h3 hl hc => ?badCategory⟩
  case accepted =>
    subst hl hc
    exact exec_header_of_ok ((headerCheck_of_length h3 rfl).trans (if_pos rfl))
  case badLength =>
    have hbad : s.blen.toNat < 3 ∨ l.toNat ≠ s.blen.toNat := h.imp_right (mt BitVec.eq_of_toNat_eq)
    exact exec_header_of_error (headerCheck_of_badLength hbad)
  case badCategory =>
    subst hl
    exact exec_header_of_error ((headerCheck_of_length h3 rfl).trans (if_neg hc))

end Sys2Proof.Machine

/-! ## The header commands -/

namespace Sys2Proof.Machine

theorem exec_hdrEnc (s : State) : exec .hdrEnc s = .next ((s.stage (hdrEnc s.hcat s.hlen)).finish 0) := rfl

theorem exec_hdrDec (s : State) :
    exec .hdrDec s = conclude s (hdrDec s.staged) fun h => s.setHeader h.1 h.2 := rfl

@[simp] theorem length_hdrEnc (c : Byte) (l : Half) : (hdrEnc c l).length = 3 := by rw [hdrEnc_eq]; rfl

theorem State.length_staged (s : State) : s.staged.length = s.wlen.val := by
  have := s.wlen.isLt
  rw [State.staged, List.length_take, Vector.length_toList]
  omega

/-- Three staged octets or more begin with W[0..3) (10_state.md R31). -/
theorem State.staged_of_three_le {s : State} (h : 3 ≤ s.wlen.val) :
    ∃ more, s.staged = s.w[0] :: s.w[1] :: s.w[2] :: more := by
  have hlen : 3 ≤ s.staged.length := by rwa [s.length_staged]
  refine ⟨s.staged.drop 3, ?_⟩
  rw [← List.drop_zero (l := s.staged), List.drop_eq_getElem_cons (by omega), List.drop_eq_getElem_cons (by omega),
    List.drop_eq_getElem_cons (by omega)]
  simp [State.staged]

/-- Settles O20: HDR.ENC stages the three octets of `hdrEnc`, and staging replaces as many octets as it is given. -/
theorem hdrEncWritesTheHeaderOctets : Obligations.HdrEncWritesTheHeaderOctets := by
  refine ⟨fun sm => decodeOfEncodeIsTheInstruction sm .hdrEnc rfl, fun s => ⟨_, exec_hdrEnc s, ?frame, ?octets⟩⟩
  case frame => simp only [State.stage, State.finish, length_hdrEnc]; rfl
  case octets =>
    have hw : (s.stage (hdrEnc s.hcat s.hlen)).w.toList = _ := stageBytes_toList s.w (by simp)
    rw [length_hdrEnc] at hw
    rw [← hdrEnc_eq]
    exact hw

/-- Settles O21: the staged octets are at least three, which `hdrDec_cons` reads, or fewer, which `hdrDec_short`
refuses. -/
theorem hdrDecReadsTheHeaderOctets : Obligations.HdrDecReadsTheHeaderOctets := by
  refine ⟨fun sm => decodeOfEncodeIsTheInstruction sm .hdrDec rfl, fun s => ⟨fun h => ?read, fun h => ?short⟩⟩
  case read =>
    obtain ⟨more, hstaged⟩ := State.staged_of_three_le h
    rw [exec_hdrDec, hstaged, hdrDec_cons, conclude_ok]
    rfl
  case short =>
    rw [exec_hdrDec, hdrDec_short (s.length_staged.trans_lt h), conclude_error]
    rfl

end Sys2Proof.Machine

/-! ## The FSPEC chain: its parser, its builder and the commands on it -/

namespace Sys2Proof.Machine

/-! ### The parser -/

theorem chainWalk_cons_of_fx_false {a : Byte} (ha : fx a = false) (n : Nat) (more : List Byte) :
    chainWalk (n + 1) (a :: more) = .ok [a] := by
  rw [chainWalk, ha]; rfl

theorem chainWalk_cons_of_fx {a : Byte} (ha : fx a = true) (n : Nat) (more : List Byte) :
    chainWalk (n + 1) (a :: more) = (chainWalk n more).map (a :: ·) := by
  rw [chainWalk, if_pos ha]
  cases chainWalk n more <;> rfl

/-- The walk reads no more octets than it may take (41_fspec.md R116). -/
theorem chainWalk_take (n : Nat) (bs : List Byte) : chainWalk n (bs.take n) = chainWalk n bs := by
  induction n generalizing bs with
  | zero => rfl
  | succ n ih =>
    cases bs with
    | nil => rfl
    | cons a more =>
      rw [List.take_succ_cons]
      cases ha : fx a with
      | false => rw [chainWalk_cons_of_fx_false ha, chainWalk_cons_of_fx_false ha]
      | true => rw [chainWalk_cons_of_fx ha, chainWalk_cons_of_fx ha, ih]

/-- Where FX never clears, the walk runs out of octets or of what it may take (41_fspec.md R114). -/
theorem chainWalk_of_forall_fx {bs : List Byte} (h : ∀ b ∈ bs, fx b = true) (n : Nat) :
    chainWalk n bs = .error .sizeInvalid := by
  induction n generalizing bs with
  | zero => rfl
  | succ n ih =>
    cases bs with
    | nil => rfl
    | cons a more =>
      obtain ⟨ha, hmore⟩ := List.forall_mem_cons.1 h
      rw [chainWalk_cons_of_fx ha, ih hmore]
      rfl

theorem fspecParse_cons_of_fx_false {a : Byte} (ha : fx a = false) (more : List Byte) :
    fspecParse (a :: more) = .ok [a] := chainWalk_cons_of_fx_false ha _ more

theorem fspecParse_pair_of_fx_false {a b : Byte} (ha : fx a = true) (hb : fx b = false) (more : List Byte) :
    fspecParse (a :: b :: more) = .ok [a, b] := by
  rw [fspecParse, Config.maxChain, chainWalk_cons_of_fx ha, chainWalk_cons_of_fx_false hb]
  rfl

theorem fspecParse_of_take_fx {bs : List Byte} (h : ∀ b ∈ bs.take 2, fx b = true) :
    fspecParse bs = .error .sizeInvalid :=
  (chainWalk_take 2 bs).symm.trans (chainWalk_of_forall_fx h 2)

/-- Settles O27: the walk takes at most two octets, by induction on how many it may still take, and what it answers
stands at the head of the octets it was given. -/
theorem chainParseIsBounded : Obligations.ChainParseIsBounded := by
  refine fun bs => ⟨(chainWalk_take 2 bs).symm, fun o ho => ?shape, fun h => chainWalk_of_forall_fx h _⟩
  case shape =>
    obtain ⟨more, rfl, hshape⟩ := fspecParse_ok ho
    refine ⟨?_, List.take_left.symm⟩
    obtain ⟨a, rfl, -⟩ | ⟨a, b, rfl, -, -⟩ := hshape
    · exact .inl rfl
    · exact .inr rfl

/-! ### Canonical chains -/

theorem canonicalChain_iff {o : List Byte} : canonicalChain o = true ↔ fspecBuild (chainFrns o) = o :=
  decide_eq_true_iff

/-- A parsed chain is canonical unless its second octet declares nothing (41_fspec.md R118). -/
theorem canonicalChain_iff_of_parsed {bs o : List Byte} (ho : fspecParse bs = .ok o) :
    canonicalChain o = true ↔ ¬ ∃ a b, o = [a, b] ∧ b &&& 0xFE#8 = 0 := by
  rw [canonicalChain_iff]
  obtain ⟨-, -, ⟨a, rfl, ha⟩ | ⟨a, b, rfl, ha, hb⟩⟩ := fspecParse_ok ho
  · simp [fspecBuild_chainFrns_one ha]
  · rw [fspecBuild_chainFrns_two ha hb]
    by_cases h0 : b &&& 0xFE#8 = 0 <;> simp [h0]

/-- A chain of two octets that parses has FX on the first and not on the second (41_fspec.md R114). -/
theorem fx_of_parsed_pair {bs : List Byte} {a b : Byte} (h : fspecParse bs = .ok [a, b]) :
    fx a = true ∧ fx b = false := by
  obtain ⟨-, -, ⟨_, e, -⟩ | ⟨_, _, e, ha, hb⟩⟩ := fspecParse_ok h <;> cases e
  exact ⟨ha, hb⟩

/-- Settles O26: the chain laws `fspecParse_fspecBuild` and `chainFrns_fspecBuild` for what was built, and
`fspecBuild_chainFrns_two` for the one shape of parsed chain that building does not give back. -/
theorem chainBuildAndParseAreInverse : Obligations.ChainBuildAndParseAreInverse := by
  refine ⟨fun P more => ⟨fspecParse_fspecBuild P more, chainFrns_fspecBuild P⟩, fun bs o ho =>
    ⟨canonicalChain_iff_of_parsed ho, canonicalChain_iff.1, ?_⟩⟩
  rintro a b rfl h0
  obtain ⟨ha, hb⟩ := fx_of_parsed_pair ho
  rw [fspecBuild_chainFrns_two ha hb, if_pos h0]

/-! ### The builder's two octets -/

/-- The presence of every FRN of a chain, read off the nine slots (10_state.md R21). -/
theorem present_slots (rec : Record) :
    (present rec 1 = rec.dsi.isSome ∧ present rec 2 = rec.mty.isSome ∧ present rec 3 = rec.tod.isSome ∧
      present rec 4 = rec.sec.isSome ∧ present rec 5 = rec.arp.isSome ∧ present rec 6 = rec.scs.isSome ∧
      present rec 7 = rec.spm.isSome) ∧
    present rec 8 = false ∧ present rec 9 = rec.gpw.isSome ∧ present rec 10 = false ∧
      present rec 11 = rec.pos.isSome ∧ present rec 12 = false ∧ present rec 13 = false ∧ present rec 14 = false := by
  simp [present, Field.ofFrn, Record.get]

theorem needsTwo_present (rec : Record) : needsTwo (present rec) = (rec.gpw.isSome || rec.pos.isSome) := by
  obtain ⟨-, p8, p9, p10, p11, p12, p13, p14⟩ := present_slots rec
  simp [needsTwo, p8, p9, p10, p11, p12, p13, p14]

/-- The builder's first octet, bit by bit: FX is set where another octet follows (41_fspec.md R112). -/
theorem fspecBuild_first (P : Nat → Bool) :
    let o := (fspecBuild (allFrns.filter P)).getD 0 0
    srcBit o 1 = needsTwo P ∧ srcBit o 2 = P 7 ∧ srcBit o 3 = P 6 ∧ srcBit o 4 = P 5 ∧ srcBit o 5 = P 4 ∧
    srcBit o 6 = P 3 ∧ srcBit o 7 = P 2 ∧ srcBit o 8 = P 1 := by
  cases hn : needsTwo P with
  | false => rw [fspecBuild_one hn]; exact chainOctet_zero P
  | true =>
    obtain ⟨-, bits⟩ := chainOctet_zero P
    rw [fspecBuild_two hn]
    refine ⟨fx_or_one _, ?_⟩
    simp (disch := omega) only [List.getD_cons_zero, srcBit_or_one]
    exact bits

theorem chainOctet_one_of_not_needsTwo {P : Nat → Bool} (h : needsTwo P = false) :
    chainOctet (allFrns.filter P) 1 = 0 := by
  obtain ⟨o1, o14, o13, o12, o11, o10, o9, o8⟩ := chainOctet_one P
  simp only [needsTwo, Bool.or_eq_false_iff] at h
  refine byte_ext fun k h1 h8 => ?_
  rw [show srcBit (0 : Byte) k = false from srcBit_zero k]
  interval_cases k <;> simp only [*]

/-- FSP[1] holds the octet at chain index 1, which is 0 where the builder leaves it out (41_fspec.md R113). -/
theorem fspecBuild_second (P : Nat → Bool) :
    (fspecBuild (allFrns.filter P)).getD 1 0 = chainOctet (allFrns.filter P) 1 := by
  cases hn : needsTwo P with
  | false => rw [fspecBuild_one hn, chainOctet_one_of_not_needsTwo hn]; rfl
  | true => rw [fspecBuild_two hn]; rfl

theorem srcBit_ite_zero (c : Bool) (m : Byte) (k : Nat) :
    srcBit (if c then m else 0) k = (c && srcBit m k) := by
  cases c with
  | false => exact srcBit_zero k
  | true => rfl

/-- Of FRN 8 to 14 only 9 and 11 have slots (30_encoding.md R76). -/
theorem chainOctet_one_present (rec : Record) :
    chainOctet (presentFrns rec) 1 =
      (if rec.gpw.isSome then 0x40#8 else 0) ||| (if rec.pos.isSome then 0x10#8 else 0) := by
  obtain ⟨-, p8, p9, p10, p11, p12, p13, p14⟩ := present_slots rec
  obtain ⟨o1, o14, o13, o12, o11, o10, o9, o8⟩ := chainOctet_one (present rec)
  refine byte_ext fun k h1 h8 => ?_
  rw [show 0x40#8 = srcMask 7 from rfl, show 0x10#8 = srcMask 5 from rfl, srcBit_or, srcBit_ite_zero, srcBit_ite_zero,
    srcBit_srcMask (by omega) (by omega) h1, srcBit_srcMask (by omega) (by omega) h1, presentFrns]
  interval_cases k <;> simp [*]

/-! ### FSPEC.ENC and FSPEC.DEC -/

theorem exec_fspecEnc (s : State) :
    exec .fspecEnc s = .next ((s.setChain (fspecBuild (presentFrns s.r))).finish 0) := rfl

theorem exec_fspecDec (s : State) : exec .fspecDec s = conclude s (fspecParse s.validBytes) s.setChain := rfl

/-- Settles O24: FSP and FLEN hold what `fspecBuild` gives for the presence set, whose octets are known bit by bit. -/
theorem fspecEncBuildsTheChainFromPresence : Obligations.FspecEncBuildsTheChainFromPresence := by
  refine ⟨fun sm => decodeOfEncodeIsTheInstruction sm .fspecEnc rfl, fun s =>
    ⟨_, exec_fspecEnc s, rfl, ?first, ?second, ?length⟩⟩
  case first =>
    obtain ⟨⟨p1, p2, p3, p4, p5, p6, p7⟩, -⟩ := present_slots s.r
    obtain ⟨b1, b2, b3, b4, b5, b6, b7, b8⟩ := fspecBuild_first (present s.r)
    exact ⟨b8.trans p1, b7.trans p2, b6.trans p3, b5.trans p4, b4.trans p5, b3.trans p6, b2.trans p7,
      b1.trans (needsTwo_present s.r)⟩
  case second => exact (fspecBuild_second (present s.r)).trans (chainOctet_one_present s.r)
  case length =>
    rw [State.finish_flen, State.setChain_flen, presentFrns, fspecBuild_length, needsTwo_present]
    cases s.r.gpw.isSome || s.r.pos.isSome <;> rfl

/-- The valid octets in front of the others (20_memory.md R51). -/
theorem State.validBytes_of_blen_eq_succ {s : State} {n : Nat} (h : s.blen.toNat = n + 1) :
    s.validBytes = Memory.octet s.buf 0 :: (List.range n).map fun i => Memory.octet s.buf (i + 1) := by
  rw [State.validBytes, h, List.range_succ_eq_map, List.map_cons, List.map_map]
  rfl

theorem State.validBytes_of_one_le {s : State} (h : 1 ≤ s.blen.toNat) :
    ∃ more, s.validBytes = Memory.octet s.buf 0 :: more :=
  ⟨_, State.validBytes_of_blen_eq_succ (n := s.blen.toNat - 1) (by omega)⟩

theorem State.validBytes_of_two_le {s : State} (h : 2 ≤ s.blen.toNat) :
    ∃ more, s.validBytes = Memory.octet s.buf 0 :: Memory.octet s.buf 1 :: more := by
  have hv := State.validBytes_of_blen_eq_succ (s := s) (n := s.blen.toNat - 2 + 1) (by omega)
  rw [List.range_succ_eq_map, List.map_cons] at hv
  exact ⟨_, hv⟩

theorem exec_fspecDec_of_ok {s : State} {o : List Byte} (h : fspecParse s.validBytes = .ok o) :
    exec .fspecDec s = .next ((s.setChain o).finish 0) := by rw [exec_fspecDec, h, conclude_ok]

/-- No FX bit clears among the first two valid octets: SizeInvalid (41_fspec.md R115). -/
theorem exec_fspecDec_of_take_fx {s : State} (h : ∀ b ∈ s.validBytes.take 2, fx b = true) :
    exec .fspecDec s = .next (s.finish 1) := by
  rw [exec_fspecDec, fspecParse_of_take_fx h, conclude_error]
  rfl

/-- Settles O25: FX clears in the first valid octet, or in the second, or in neither of the first two. -/
theorem fspecDecReadsTheChain : Obligations.FspecDecReadsTheChain := by
  refine ⟨fun sm => decodeOfEncodeIsTheInstruction sm .fspecDec rfl, fun s =>
    ⟨fun h => ?empty, fun h ha => ?one, fun h (ha : fx _ = true) => ?cutOff, fun h ha hb => ?two,
      fun h (ha : fx _ = true) (hb : fx _ = true) => ?endless⟩⟩
  case empty => exact exec_fspecDec_of_take_fx (by simp [State.validBytes, h])
  case one =>
    obtain ⟨more, hv⟩ := State.validBytes_of_one_le h
    exact exec_fspecDec_of_ok (by rw [hv, fspecParse_cons_of_fx_false ha])
  case cutOff =>
    refine exec_fspecDec_of_take_fx ?_
    rw [State.validBytes_of_blen_eq_succ h]
    simp [ha]
  case two =>
    obtain ⟨more, hv⟩ := State.validBytes_of_two_le h
    exact exec_fspecDec_of_ok (by rw [hv, fspecParse_pair_of_fx_false ha hb])
  case endless =>
    obtain ⟨more, hv⟩ := State.validBytes_of_two_le h
    refine exec_fspecDec_of_take_fx ?_
    rw [hv]
    simp [ha, hb]

end Sys2Proof.Machine

/-! ## FS.SET and FS.GET -/

namespace Sys2Proof.Machine

/-- The words of an operation that takes an argument count up from its word with argument 0 (30_encoding.md R86). -/
theorem append_eq_add_setWidth (op n : Byte) : op ++ n = (op ++ 0#8) + n.setWidth 16 := by
  apply BitVec.eq_of_toNat_eq
  have := op.isLt
  have := n.isLt
  rw [BitVec.toNat_add, toNat_append_byte, toNat_append_byte, BitVec.toNat_setWidth, BitVec.toNat_ofNat]
  omega

theorem bitNumberOk_eq_true {n : Byte} (h1 : 1 ≤ n.toNat) (h8 : n.toNat ≤ 8) : bitNumberOk n = true := by
  simp [bitNumberOk, h1, h8]

theorem bitNumberOk_eq_false {n : Byte} (h : n.toNat = 0 ∨ 8 < n.toNat) : bitNumberOk n = false := by
  simp only [bitNumberOk, Bool.and_eq_false_iff, decide_eq_false_iff_not]
  omega

theorem decode_fsSet_word (sm : Config.SubMap) (n : Byte) : decode sm (.command (0x2000#16 + n.setWidth 16)) =
    if bitNumberOk n then .ok (.fsSet n) else .error (.illegalArg 0x20#8 n) := by
  rw [show 0x2000#16 = 0x20#8 ++ 0#8 from rfl, ← append_eq_add_setWidth]
  exact decode_commandWord sm 0x20#8 n

theorem decode_fsGet_word (sm : Config.SubMap) (n : Byte) : decode sm (.command (0x2100#16 + n.setWidth 16)) =
    if bitNumberOk n then .ok (.fsGet n) else .error (.illegalArg 0x21#8 n) := by
  rw [show 0x2100#16 = 0x21#8 ++ 0#8 from rfl, ← append_eq_add_setWidth]
  exact decode_commandWord sm 0x21#8 n

theorem exec_fsSet (n : Byte) (s : State) : exec (.fsSet n) s =
    if bitNumberOk n then .next ((s.setFsb (s.fsb ||| srcMask n.toNat)).finish 0) else .next (s.finish 5) := rfl

theorem exec_fsGet (n : Byte) (s : State) : exec (.fsGet n) s =
    if bitNumberOk n then .next ((s.setT (srcBit s.fsb n.toNat)).finish 0) else .next (s.finish 5) := rfl

theorem getLsbD_or_srcMask (b : Byte) {n : Nat} (h1 : 1 ≤ n) (h8 : n ≤ 8) (k : Nat) :
    (b ||| srcMask n).getLsbD k = (b.getLsbD k || k = n - 1) := by
  have mask : (srcMask n).getLsbD k = decide (n = k + 1) := srcBit_srcMask h1 h8 (Nat.le_add_left 1 k)
  rw [BitVec.getLsbD_or, mask]
  congr 2
  rw [eq_iff_iff]
  omega

/-- `bit(b, n)` as 00_scope.md R9 writes it: `(b >> (n-1)) & 1`. -/
theorem srcBit_eq_shiftRight (b : Byte) (n : Nat) : srcBit b n = decide ((b >>> (n - 1)) &&& 1 = 1) := by
  have hbit : (b >>> (n - 1)).getLsbD 0 = srcBit b n := BitVec.getLsbD_ushiftRight ..
  rw [show (1 : Byte) = 1#8 from rfl, BitVec.and_one_eq_setWidth_ofBool_getLsbD, hbit]
  cases srcBit b n <;> rfl

/-- Settles O22: the mask of bit n has that bit and no other, and the word and the command test n alike. -/
theorem fsSetSetsOneBit : Obligations.FsSetSetsOneBit := by
  refine ⟨fun sm n => ⟨fun h1 h8 => ?legal, fun h => ?illegal⟩, fun s n => ⟨fun h1 h8 => ?sets, fun h => ?refuses⟩⟩
  case legal => rw [decode_fsSet_word, if_pos (bitNumberOk_eq_true h1 h8)]
  case illegal => exact ⟨_, by rw [decode_fsSet_word, bitNumberOk_eq_false h]; rfl⟩
  case sets =>
    exact ⟨_, by rw [exec_fsSet, if_pos (bitNumberOk_eq_true h1 h8)], rfl, getLsbD_or_srcMask s.fsb h1 h8⟩
  case refuses => rw [exec_fsSet, bitNumberOk_eq_false h]; rfl

/-- Settles O23: T takes bit n, which `srcBit_eq_shiftRight` writes as a shift, and the word and the command test n
alike. -/
theorem fsGetTestsOneBit : Obligations.FsGetTestsOneBit := by
  refine ⟨fun sm n => ⟨fun h1 h8 => ?legal, fun h => ?illegal⟩, fun s n => ⟨fun h1 h8 => ?tests, fun h => ?refuses⟩⟩
  case legal => rw [decode_fsGet_word, if_pos (bitNumberOk_eq_true h1 h8)]
  case illegal => exact ⟨_, by rw [decode_fsGet_word, bitNumberOk_eq_false h]; rfl⟩
  case tests => rw [exec_fsGet, if_pos (bitNumberOk_eq_true h1 h8), srcBit_eq_shiftRight]; rfl
  case refuses => rw [exec_fsGet, bitNumberOk_eq_false h]; rfl

end Sys2Proof.Machine

/-! ## The TOW and FRW commands: what stages, what reads, what raises -/

namespace Sys2Proof.Machine

section
variable {s : State} {f : Field} {v : FieldValue} {bs : List Byte} {n : Nat} {k : ErrorKind}

theorem slotToWire_of_none (h : s.r.get f = none) : slotToWire f s = .next (s.finish 5) := by
  simp only [slotToWire, h]
  rfl

theorem slotToWire_stages (hv : s.r.get f = some v) (h : toWire s.params v = .ok bs) :
    slotToWire f s = .next ((s.stage bs).finish 0) := by
  simp only [slotToWire, hv, h, conclude_ok]

/-- A TOW command whose value has n wire octets puts them in front of W and leaves the others (10_state.md R31). -/
theorem slotToWire_of_ok (hv : s.r.get f = some v) (h : toWire s.params v = .ok bs) (hlen : bs.length = n)
    (hn : n ≤ 8) :
    ∃ t, slotToWire f s = .next t ∧ t = { s.finish 0 with w := t.w, wlen := Fin.ofNat 9 n } ∧
      t.w.toList = bs ++ s.w.toList.drop n := by
  subst hlen
  exact ⟨_, slotToWire_stages hv h, rfl, stageBytes_toList s.w hn⟩

theorem slotToWire_of_error (hv : s.r.get f = some v) (h : toWire s.params v = .error k) :
    slotToWire f s = .next (s.finish k.code) := by
  simp only [slotToWire, hv, h, conclude_error]

theorem slotFromWire_of_ok (h : fromWire s.params f s.staged = .ok v) :
    slotFromWire f s = .next ((s.putSlot v).finish 0) := by
  simp only [slotFromWire, h, conclude_ok]

theorem slotFromWire_of_error (h : fromWire s.params f s.staged = .error k) :
    slotFromWire f s = .next (s.finish k.code) := by
  simp only [slotFromWire, h, conclude_error]

/-- Any WLEN but the size of a field of fixed size is SizeInvalid (42_field_codecs.md R130). -/
theorem slotFromWire_of_wlen_ne (hf : f.fixedSize = some n) (h : s.wlen.val ≠ n) :
    slotFromWire f s = .next (s.finish 1) :=
  slotFromWire_of_error (k := .sizeInvalid) (by simp only [fromWire, hf, s.length_staged, if_neg h])

end

theorem toList_eight (w : Vector Byte 8) : w.toList = [w[0], w[1], w[2], w[3], w[4], w[5], w[6], w[7]] := by
  refine List.ext_getElem (by simp) fun i h _ => ?_
  simp only [Vector.length_toList] at h
  interval_cases i <;> simp

/-- The staged octets are the first WLEN of the eight (10_state.md R31). -/
theorem State.staged_of_wlen {s : State} {n : Nat} (h : s.wlen.val = n) :
    s.staged = [s.w[0], s.w[1], s.w[2], s.w[3], s.w[4], s.w[5], s.w[6], s.w[7]].take n := by
  rw [State.staged, toList_eight, h]

/-- A FRW command of a field of fixed size reads the first octets of W, as many as the field has (42_field_codecs.md
R139). -/
theorem slotFromWire_of_wlen {s : State} {f : Field} {n : Nat} {v : FieldValue} (hf : f.fixedSize = some n)
    (h : s.wlen.val = n)
    (hv : fixedValue s.params f ([s.w[0], s.w[1], s.w[2], s.w[3], s.w[4], s.w[5], s.w[6], s.w[7]].take n) = .ok v) :
    slotFromWire f s = .next ((s.putSlot v).finish 0) := by
  refine slotFromWire_of_ok ?_
  rw [fromWire, hf, ← hv, ← State.staged_of_wlen h]
  exact if_pos (s.length_staged.trans h)

/-- Settles O28: the slot is looked at before anything else. -/
theorem towOnAnEmptySlotIsCommandInvalid : Obligations.TowOnAnEmptySlotIsCommandInvalid := by
  intro s
  exact ⟨fun h => slotToWire_of_none (congrArg (Option.map FieldValue.dsi) h),
    fun h => slotToWire_of_none (congrArg (Option.map FieldValue.mty) h),
    fun h => slotToWire_of_none (congrArg (Option.map FieldValue.tod) h),
    fun h => slotToWire_of_none (congrArg (Option.map FieldValue.sec) h),
    fun h => slotToWire_of_none (congrArg (Option.map FieldValue.arp) h),
    fun h => slotToWire_of_none (congrArg (Option.map FieldValue.scs) h),
    fun h => slotToWire_of_none (congrArg (Option.map FieldValue.spm) h),
    fun h => slotToWire_of_none (congrArg (Option.map FieldValue.gpw) h),
    fun h => slotToWire_of_none (congrArg (Option.map FieldValue.pos) h)⟩

/-- Settles O29: two octets out, two octets in, and any other WLEN refused. -/
theorem dataSourceMovesAsItIs : Obligations.DataSourceMovesAsItIs := by
  refine ⟨fun sm => ⟨decodeOfEncodeIsTheInstruction sm .towDsi rfl, decodeOfEncodeIsTheInstruction sm .frwDsi rfl⟩,
    fun s => ⟨fun v hv => ?staged, fun h => (towOnAnEmptySlotIsCommandInvalid s).1 h, fun h => ?read,
      fun h => slotFromWire_of_wlen_ne (f := .dsi) rfl (Fin.val_ne_of_ne h)⟩⟩
  case staged => exact slotToWire_of_ok (congrArg (Option.map FieldValue.dsi) hv) rfl rfl (by decide)
  case read => exact (slotFromWire_of_wlen (f := .dsi) rfl (congrArg Fin.val h) rfl :)

/-- Settles O30: MT_STRICT decides in both directions alike, by `messageTypeOk`. -/
theorem messageTypeMovesAsItIs : Obligations.MessageTypeMovesAsItIs := by
  intro s
  have accepted : ∀ {m : Byte}, s.params.mtStrict = false ∨ (1 ≤ m.toNat ∧ m.toNat ≤ 7) →
      messageTypeOk s.params m = true := fun h => by simpa [messageTypeOk] using h
  have refused : ∀ {m : Byte}, s.params.mtStrict = true → m.toNat = 0 ∨ 7 < m.toNat →
      ¬ messageTypeOk s.params m = true := fun hstrict h => by simp [messageTypeOk, hstrict]; omega
  have read : s.wlen = 1 → fromWire s.params .mty s.staged =
      if messageTypeOk s.params s.w[0] then .ok (.mty s.w[0]) else .error .itemUnsupported := fun h => by
    rw [State.staged_of_wlen (congrArg Fin.val h)]
    rfl
  exact ⟨fun m hm ok => slotToWire_of_ok (congrArg (Option.map FieldValue.mty) hm) (if_pos (accepted ok)) rfl
      (by decide),
    fun m hm strict out => slotToWire_of_error (f := .mty) (congrArg (Option.map FieldValue.mty) hm)
      (if_neg (refused strict out)),
    fun h ok => slotFromWire_of_ok (f := .mty) ((read h).trans (if_pos (accepted ok))),
    fun h strict out => slotFromWire_of_error (f := .mty) ((read h).trans (if_neg (refused strict out))),
    fun h => slotFromWire_of_wlen_ne (f := .mty) rfl (Fin.val_ne_of_ne h)⟩

/-- Settles O35: the laws of the three scales on the staged octets. -/
theorem frwScaledFieldsReadTheirValue : Obligations.FrwScaledFieldsReadTheirValue := by
  refine ⟨fun sm => ⟨decodeOfEncodeIsTheInstruction sm .frwTod rfl, decodeOfEncodeIsTheInstruction sm .frwSec rfl,
    decodeOfEncodeIsTheInstruction sm .frwArp rfl⟩, fun s =>
    ⟨fun h => ?tod, fun h => slotFromWire_of_wlen_ne (f := .tod) rfl (Fin.val_ne_of_ne h),
      fun h => ?sec, fun h => slotFromWire_of_wlen_ne (f := .sec) rfl (Fin.val_ne_of_ne h),
      fun h => ?arp, fun h => slotFromWire_of_wlen_ne (f := .arp) rfl (Fin.val_ne_of_ne h)⟩⟩
  case tod =>
    rw [← scaleTod_fromWire]
    exact (slotFromWire_of_wlen (f := .tod) rfl (congrArg Fin.val h) rfl :)
  case sec =>
    rw [← scaleSec_fromWire]
    exact (slotFromWire_of_wlen (f := .sec) rfl (congrArg Fin.val h) rfl :)
  case arp =>
    rw [← scaleArp_fromWire]
    exact (slotFromWire_of_wlen (f := .arp) rfl (congrArg Fin.val h) rfl :)

/-- Settles O36: the laws of the scales, component by component, on the eight staged octets. -/
theorem frwLongFieldsReadTheirComponents : Obligations.FrwLongFieldsReadTheirComponents := by
  refine ⟨fun sm => ⟨decodeOfEncodeIsTheInstruction sm .frwGpw rfl, decodeOfEncodeIsTheInstruction sm .frwPos rfl⟩,
    fun s => ⟨fun h => ?gpw, fun h => slotFromWire_of_wlen_ne (f := .gpw) rfl (Fin.val_ne_of_ne h),
      fun h => ?pos, fun h => slotFromWire_of_wlen_ne (f := .pos) rfl (Fin.val_ne_of_ne h)⟩⟩
  case gpw =>
    rw [← scaleRho_fromWire, ← scaleRho_fromWire, ← scaleTheta_fromWire, ← scaleTheta_fromWire]
    exact (slotFromWire_of_wlen (f := .gpw) rfl (congrArg Fin.val h) rfl :)
  case pos =>
    rw [← scaleHeight_fromWire, ← scaleLatLon_fromWire, ← scaleLatLon_fromWire]
    exact (slotFromWire_of_wlen (f := .pos) rfl (congrArg Fin.val h) rfl :)

end Sys2Proof.Machine

/-! ## The rows of the scale table -/

namespace Sys2Proof.Machine

theorem trunc_between_iff (q : Rat) {lo hi : Int} (hlo : lo ≤ 0) (hhi : 0 ≤ hi) :
    lo ≤ trunc q ∧ trunc q ≤ hi ↔ (lo : Rat) - 1 < q ∧ q < hi + 1 := by
  rw [← not_lt, trunc_lt_iff q lo hlo, not_le, ← not_lt, lt_trunc_iff q hi hhi, not_le]

/-- A row of the scale table with what follows from it: its LSB, its wire integers `lo` to `hi`, and the open interval
from `below` to `above` of the values that truncate to one of them (42_field_codecs.md R133, 10_state.md R22). -/
structure Scale.Row (sc : Scale) (lsb below above : Rat) (lo hi : Int) : Prop where
  m_pos : 0 < sc.m
  lsb_eq : sc.lsb = lsb
  fits_iff : ∀ n, sc.fits n = true ↔ lo ≤ n ∧ n ≤ hi
  lo_nonpos : lo ≤ 0
  hi_nonneg : 0 ≤ hi
  below_eq : below = (lo - 1) * lsb
  above_eq : above = (hi + 1) * lsb

theorem scaleTod_row : scaleTod.Row (1 / 128) (-1 / 128) 131072 0 16777215 := by
  constructor <;> norm_num [scaleTod, Scale.lsb, Scale.fits]

theorem scaleSec_row : scaleSec.Row (45 / 32) (-45 / 32) 360 0 255 := by
  constructor <;> norm_num [scaleSec, Scale.lsb, Scale.fits]

theorem scaleArp_row : scaleArp.Row (1 / 128) (-1 / 128) 512 0 65535 := by
  constructor <;> norm_num [scaleArp, Scale.lsb, Scale.fits]

theorem scaleRho_row : scaleRho.Row (1 / 256) (-1 / 256) 256 0 65535 := by
  constructor <;> norm_num [scaleRho, Scale.lsb, Scale.fits]

theorem scaleTheta_row : scaleTheta.Row (45 / 8192) (-45 / 8192) 360 0 65535 := by
  constructor <;> norm_num [scaleTheta, Scale.lsb, Scale.fits]

theorem scaleHeight_row : scaleHeight.Row 1 (-32769) 32768 (-32768) 32767 := by
  constructor <;> norm_num [scaleHeight, Scale.lsb, Scale.fits]

theorem scaleLatLon_row :
    scaleLatLon.Row (45 / 2097152) (-180 - 45 / 2097152) 180 (-8388608) 8388607 := by
  constructor <;> norm_num [scaleLatLon, Scale.lsb, Scale.fits]

section
variable {sc : Scale} {lsb below above : Rat} {lo hi : Int}

theorem Scale.truncatesTo_wire (hm : 0 < sc.m) (v : Rat) : TruncatesTo v sc.lsb (sc.wire v) := by
  rw [Scale.wire_eq]
  exact truncatesTo_trunc (Scale.lsb_pos hm)

theorem Scale.Row.fits_wire_iff (row : sc.Row lsb below above lo hi) (v : Rat) :
    sc.fits (sc.wire v) = true ↔ below < v ∧ v < above := by
  have hpos : 0 < lsb := row.lsb_eq ▸ Scale.lsb_pos row.m_pos
  rw [row.fits_iff, Scale.wire_eq, row.lsb_eq, trunc_between_iff _ row.lo_nonpos row.hi_nonneg,
    lt_div_iff₀ hpos, div_lt_iff₀ hpos, row.below_eq, row.above_eq]

/-- Inside its interval a value gives the octets of the integer it truncates to (42_field_codecs.md R131, R135). -/
theorem Scale.Row.toWire_inside (row : sc.Row lsb below above lo hi) {v : Rat} (h : below < v ∧ v < above) :
    ∃ n, TruncatesTo v lsb n ∧ lo ≤ n ∧ n ≤ hi ∧ sc.toWire v = .ok (beBytes sc.w (twosComp (8 * sc.w) n)) := by
  have hfits := (row.fits_wire_iff v).2 h
  obtain ⟨hlo, hhi⟩ := (row.fits_iff _).1 hfits
  exact ⟨sc.wire v, row.lsb_eq ▸ Scale.truncatesTo_wire row.m_pos v, hlo, hhi, if_pos hfits⟩

/-- Outside its interval a value is refused (42_field_codecs.md R136; the spec's decision D17). -/
theorem Scale.Row.toWire_outside (row : sc.Row lsb below above lo hi) {v : Rat} (h : ¬ (below < v ∧ v < above)) :
    sc.toWire v = .error .rangeInvalid :=
  if_neg (mt (row.fits_wire_iff v).1 h)

theorem Scale.Row.inside_of_toWire_ok (row : sc.Row lsb below above lo hi) {v : Rat} {bs : List Byte}
    (h : sc.toWire v = .ok bs) : below < v ∧ v < above := by
  by_contra hout
  rw [row.toWire_outside hout] at h
  cases h

end

/-! ### The octets of one, two and three -/

theorem beBytes_one (n : Nat) : beBytes 1 n = [BitVec.ofNat 8 n] := by
  rw [beBytes_succ, beBytes_zero, pow_zero, Nat.div_one]

theorem beBytes_two (n : Nat) : beBytes 2 n = [BitVec.ofNat 8 (n / 256), BitVec.ofNat 8 n] := by
  rw [beBytes_succ, beBytes_one, pow_one]

theorem beBytes_three (n : Nat) :
    beBytes 3 n = [BitVec.ofNat 8 (n / 65536), BitVec.ofNat 8 (n / 256), BitVec.ofNat 8 n] := by
  rw [beBytes_succ, beBytes_two]
  rfl

section
variable {n : Int}

theorem beBytes_twosComp_of_nonneg (h : 0 ≤ n) (w : Nat) : beBytes w (twosComp (8 * w) n) = beBytes w n.toNat := by
  rw [twosComp, if_pos h]

/-- Two's complement of a number at or above `-2^b` adds `2^b` or nothing (00_scope.md R11). -/
theorem twosComp_cast {b : Nat} (h : -(2 ^ b) ≤ n) :
    (twosComp b n : Int) = n ∨ (twosComp b n : Int) = n + 2 ^ b := by
  unfold twosComp
  split
  · exact .inl (Int.toNat_of_nonneg ‹_›)
  · exact .inr (Int.toNat_of_nonneg (by omega))

theorem ofNat_eq_ofInt_of_emod {m : Nat} (h : (m : Int) % 256 = n % 256) : BitVec.ofNat 8 m = BitVec.ofInt 8 n := by
  refine BitVec.eq_of_toNat_eq ?_
  rw [BitVec.toNat_ofNat, BitVec.toNat_ofInt]
  norm_num
  omega

theorem beBytes_twosComp_two (h : -65536 ≤ n) :
    beBytes 2 (twosComp 16 n) = [BitVec.ofInt 8 (n / 256), BitVec.ofInt 8 n] := by
  have hcast := twosComp_cast (b := 16) (n := n) (by norm_num; exact h)
  norm_num at hcast
  rw [beBytes_two, ofNat_eq_ofInt_of_emod (n := n / 256) (by omega), ofNat_eq_ofInt_of_emod (n := n) (by omega)]

theorem beBytes_twosComp_three (h : -16777216 ≤ n) :
    beBytes 3 (twosComp 24 n) = [BitVec.ofInt 8 (n / 65536), BitVec.ofInt 8 (n / 256), BitVec.ofInt 8 n] := by
  have hcast := twosComp_cast (b := 24) (n := n) (by norm_num; exact h)
  norm_num at hcast
  rw [beBytes_three, ofNat_eq_ofInt_of_emod (n := n / 65536) (by omega),
    ofNat_eq_ofInt_of_emod (n := n / 256) (by omega), ofNat_eq_ofInt_of_emod (n := n) (by omega)]

end

/-! ### The scaled fields -/

theorem not_between_of_outside {below v above : Rat} (h : v ≤ below ∨ above ≤ v) : ¬ (below < v ∧ v < above) :=
  fun ⟨h1, h2⟩ => h.elim (not_le.2 h1) (not_le.2 h2)

/-- A TOW command whose field is one component of the scale table: the octets of the truncated integer inside the
interval, RangeInvalid outside (42_field_codecs.md R131, R136). -/
theorem slotToWire_of_row {sc : Scale} {lsb below above : Rat} {lo hi : Int} (row : sc.Row lsb below above lo hi)
    {s : State} {f : Field} {v : FieldValue} {x : Rat} (hv : s.r.get f = some v)
    (hwire : toWire s.params v = sc.toWire x) (hw : sc.w ≤ 8) {octets : Int → List Byte}
    (hoctets : ∀ n, lo ≤ n → beBytes sc.w (twosComp (8 * sc.w) n) = octets n) :
    (below < x → x < above → ∃ (n : Int) (t : State), TruncatesTo x lsb n ∧ lo ≤ n ∧ n ≤ hi ∧
      slotToWire f s = .next t ∧ t = { s.finish 0 with w := t.w, wlen := Fin.ofNat 9 sc.w } ∧
      t.w.toList = octets n ++ s.w.toList.drop sc.w) ∧
    (x ≤ below ∨ above ≤ x → slotToWire f s = .next (s.finish 3)) := by
  constructor
  · intro h1 h2
    obtain ⟨n, hn, hlo, hhi, hok⟩ := row.toWire_inside ⟨h1, h2⟩
    obtain ⟨t, ht⟩ := slotToWire_of_ok hv (hwire.trans hok) (beBytes_length _ _) hw
    rw [hoctets n hlo] at ht
    exact ⟨n, t, hn, hlo, hhi, ht⟩
  · intro hout
    exact slotToWire_of_error hv (hwire.trans (row.toWire_outside (not_between_of_outside hout)))

/-- Settles O31: each field is one row of the scale table. -/
theorem towScaledFieldsTruncateTowardZero : Obligations.TowScaledFieldsTruncateTowardZero := by
  intro s v
  refine ⟨fun hv => ?tod, fun hv => ?sec, fun hv => ?arp⟩
  case tod =>
    exact slotToWire_of_row scaleTod_row (f := .tod) (congrArg (Option.map FieldValue.tod) hv) rfl (by decide)
      fun n hlo => (beBytes_twosComp_of_nonneg hlo 3).trans (beBytes_three _)
  case sec =>
    exact slotToWire_of_row scaleSec_row (f := .sec) (congrArg (Option.map FieldValue.sec) hv) rfl (by decide)
      fun n hlo => (beBytes_twosComp_of_nonneg hlo 1).trans (beBytes_one _)
  case arp =>
    exact slotToWire_of_row scaleArp_row (f := .arp) (congrArg (Option.map FieldValue.arp) hv) rfl (by decide)
      fun n hlo => (beBytes_twosComp_of_nonneg hlo 2).trans (beBytes_two _)

/-- A window is encoded only if each of its components is inside its interval (42_field_codecs.md R156). -/
theorem accepted_of_toWire_gpw {p : Config.Params} {v : PolarWindow} {bs : List Byte}
    (h : toWire p (.gpw v) = .ok bs) : (FieldValue.gpw v).Accepted p := by
  obtain ⟨_, _, ha, h1, -⟩ := joinWire_cons_ok.1 h
  obtain ⟨_, _, hb, h2, -⟩ := joinWire_cons_ok.1 h1
  obtain ⟨_, _, hc, h3, -⟩ := joinWire_cons_ok.1 h2
  obtain ⟨_, _, hd, -, -⟩ := joinWire_cons_ok.1 h3
  exact ⟨scaleRho_row.inside_of_toWire_ok ha, scaleRho_row.inside_of_toWire_ok hb,
    scaleTheta_row.inside_of_toWire_ok hc, scaleTheta_row.inside_of_toWire_ok hd⟩

/-- A position is encoded only if each of its components is inside its interval (42_field_codecs.md R158). -/
theorem accepted_of_toWire_pos {p : Config.Params} {v : Position} {bs : List Byte}
    (h : toWire p (.pos v) = .ok bs) : (FieldValue.pos v).Accepted p := by
  obtain ⟨_, _, ha, h1, -⟩ := joinWire_cons_ok.1 h
  obtain ⟨_, _, hb, h2, -⟩ := joinWire_cons_ok.1 h1
  obtain ⟨_, _, hc, -, -⟩ := joinWire_cons_ok.1 h2
  exact ⟨scaleHeight_row.inside_of_toWire_ok ha, scaleLatLon_row.inside_of_toWire_ok hb,
    scaleLatLon_row.inside_of_toWire_ok hc⟩

/-- A value other than a MessageType that gives no octets is refused with RangeInvalid (60_exceptions.md R203). -/
theorem slotToWire_of_not_ok {s : State} {f : Field} {v : FieldValue} (hv : s.r.get f = some v)
    (hmty : ∀ m, v ≠ .mty m) (h : ∀ bs, toWire s.params v ≠ .ok bs) : slotToWire f s = .next (s.finish 3) := by
  cases hwire : toWire s.params v with
  | ok bs => exact absurd hwire (h bs)
  | error k =>
    obtain ⟨-, -, m, hm, -⟩ | ⟨rfl, -⟩ := toWire_error hwire
    · exact absurd hm (hmty m)
    · exact slotToWire_of_error hv hwire

/-- Settles O32: four rows of the scale table one after another; all or nothing by `joinWire`. -/
theorem towPolarWindowStagesFourComponents : Obligations.TowPolarWindowStagesFourComponents := by
  intro s v hv
  replace hv : s.r.get .gpw = some (.gpw v) := congrArg (Option.map FieldValue.gpw) hv
  refine ⟨fun ⟨hrs, hre, hts, hte⟩ => ?accepted, fun hout => slotToWire_of_not_ok hv nofun
    fun bs h => hout (accepted_of_toWire_gpw h)⟩
  have octets : ∀ {n : Int}, 0 ≤ n → beBytes 2 (twosComp 16 n) =
      [BitVec.ofNat 8 (n.toNat / 256), BitVec.ofNat 8 n.toNat] :=
    fun h => (beBytes_twosComp_of_nonneg h 2).trans (beBytes_two _)
  obtain ⟨a, ta, la, ua, ea⟩ := scaleRho_row.toWire_inside hrs
  obtain ⟨b, tb, lb, ub, eb⟩ := scaleRho_row.toWire_inside hre
  obtain ⟨c, tc, lc, uc, ec⟩ := scaleTheta_row.toWire_inside hts
  obtain ⟨d, td, ld, ud, ed⟩ := scaleTheta_row.toWire_inside hte
  replace ea := ea.trans (congrArg _ (octets la))
  replace eb := eb.trans (congrArg _ (octets lb))
  replace ec := ec.trans (congrArg _ (octets lc))
  replace ed := ed.trans (congrArg _ (octets ld))
  have hwire : toWire s.params (.gpw v) = .ok _ :=
    joinWire_cons_ok.2 ⟨_, _, ea, joinWire_cons_ok.2 ⟨_, _, eb, joinWire_cons_ok.2 ⟨_, _, ec,
      joinWire_cons_ok.2 ⟨_, _, ed, rfl, rfl⟩, rfl⟩, rfl⟩, rfl⟩
  obtain ⟨t, hexec, hframe, hw⟩ := slotToWire_of_ok (n := 8) hv hwire rfl (by decide)
  rw [List.drop_eq_nil_of_le (by simp), List.append_nil] at hw
  exact ⟨a, b, c, d, t, ta, tb, tc, td, ⟨la, ua, lb, ub, lc, uc, ld, ud⟩, hexec, hframe, hw⟩

/-- Settles O33: three rows of the scale table one after another; all or nothing by `joinWire`. -/
theorem towPositionStagesTwosComplement : Obligations.TowPositionStagesTwosComplement := by
  intro s v hv
  replace hv : s.r.get .pos = some (.pos v) := congrArg (Option.map FieldValue.pos) hv
  refine ⟨fun ⟨hh, hlat, hlon⟩ => ?accepted, fun hout => slotToWire_of_not_ok hv nofun
    fun bs h => hout (accepted_of_toWire_pos h)⟩
  obtain ⟨h, th, lh, uh, eh⟩ := scaleHeight_row.toWire_inside hh
  obtain ⟨a, ta, la, ua, ea⟩ := scaleLatLon_row.toWire_inside hlat
  obtain ⟨o, tr, lo, uo, eo⟩ := scaleLatLon_row.toWire_inside hlon
  replace eh := eh.trans (congrArg _ (beBytes_twosComp_two (by omega)))
  replace ea := ea.trans (congrArg _ (beBytes_twosComp_three (by omega)))
  replace eo := eo.trans (congrArg _ (beBytes_twosComp_three (by omega)))
  have hwire : toWire s.params (.pos v) = .ok _ :=
    joinWire_cons_ok.2 ⟨_, _, eh, joinWire_cons_ok.2 ⟨_, _, ea, joinWire_cons_ok.2 ⟨_, _, eo, rfl, rfl⟩, rfl⟩, rfl⟩
  obtain ⟨t, hexec, hframe, hw⟩ := slotToWire_of_ok (n := 8) hv hwire rfl (by decide)
  rw [List.drop_eq_nil_of_le (by simp), List.append_nil] at hw
  exact ⟨h, a, o, t, th, ta, tr, ⟨lh, uh, la, ua, lo, uo⟩, hexec, hframe, hw⟩

end Sys2Proof.Machine

/-! ## The round-trip laws and the fixed-point realisation of a scale -/

namespace Sys2Proof.Machine

section
variable {sc : Scale}

theorem Scale.quantise_eq (sc : Scale) (v : Rat) : sc.quantise v = sc.wire v * sc.lsb := sc.value_eq _

/-- A multiple of the LSB is its own quantised value (42_field_codecs.md R134 c). -/
theorem Scale.quantise_multiple (hm : 0 < sc.m) (n : Int) : sc.quantise (n * sc.lsb) = n * sc.lsb := by
  rw [← Scale.value_eq, Scale.quantise, Scale.wire_value hm]

theorem Scale.quantise_of_nonneg (hm : 0 < sc.m) {v : Rat} (h : 0 ≤ v) :
    0 ≤ v - sc.quantise v ∧ v - sc.quantise v < sc.lsb := by
  obtain ⟨hle, hlt⟩ := (Scale.truncatesTo_wire hm v).1 h
  rw [Scale.quantise_eq]
  constructor <;> linarith

theorem Scale.quantise_of_nonpos (hm : 0 < sc.m) {v : Rat} (h : v ≤ 0) :
    0 ≤ sc.quantise v - v ∧ sc.quantise v - v < sc.lsb := by
  rcases h.eq_or_lt with rfl | hneg
  · have hzero : sc.quantise 0 = 0 := by simpa using Scale.quantise_multiple hm 0
    rw [hzero, sub_zero]
    exact ⟨le_rfl, Scale.lsb_pos hm⟩
  · obtain ⟨hlt, hle⟩ := (Scale.truncatesTo_wire hm v).2 hneg
    rw [Scale.quantise_eq]
    constructor <;> linarith

theorem Scale.quantise_eq_self_iff (hm : 0 < sc.m) (v : Rat) :
    sc.quantise v = v ↔ ∃ n : Int, v = n * sc.lsb := by
  constructor
  · intro h
    exact ⟨sc.wire v, h.symm.trans (sc.quantise_eq v)⟩
  · rintro ⟨n, rfl⟩
    exact Scale.quantise_multiple hm n

theorem Scale.abs_quantise_sub_lt (hm : 0 < sc.m) (v : Rat) : |sc.quantise v - v| < sc.lsb := by
  rcases le_total 0 v with h | h
  · obtain ⟨hle, hlt⟩ := Scale.quantise_of_nonneg hm h
    rwa [abs_sub_comm, abs_of_nonneg hle]
  · obtain ⟨hle, hlt⟩ := Scale.quantise_of_nonpos hm h
    rwa [abs_of_nonneg hle]

end

/-- Settles O38: truncation is toward zero, so the quantised value lies on zero's side of v, less than one LSB away. -/
theorem scaleRoundTripLaws : Obligations.ScaleRoundTripLaws := by
  intro sc hsc
  obtain ⟨hm, -⟩ := scaleTable_positive hsc
  exact ⟨fun n _ => Scale.wire_value hm n, fun v _ => ⟨Scale.abs_quantise_sub_lt hm v, Scale.quantise_of_nonneg hm,
    Scale.quantise_of_nonpos hm, Scale.quantise_eq_self_iff hm v⟩⟩

theorem trunc_intCast_div (p : Int) (d : Nat) : trunc ((p : Rat) / d) = p.tdiv d := by
  have nonneg : ∀ p : Int, 0 ≤ p → trunc ((p : Rat) / d) = p.tdiv d := fun p hp => by
    rw [trunc_of_nonneg (by positivity), Rat.floor_intCast_div_natCast, Int.tdiv_eq_ediv_of_nonneg hp]
  rcases le_total 0 p with hp | hp
  · exact nonneg p hp
  · have h := nonneg (-p) (by omega)
    rw [Int.cast_neg, neg_div, trunc_neg, Int.neg_tdiv] at h
    exact neg_injective h

/-- The fraction bits of the fixed-point format are those of the scale and the rest (42_field_codecs.md R137). -/
theorem physFb_split {k : Nat} (h : k < Config.physFb) :
    (4294967296 : Rat) = 2 ^ k * 2 ^ (Config.physFb - k) := by
  rw [← pow_add, Nat.add_sub_cancel' h.le]
  norm_num [Config.physFb]

section
variable {sc : Scale}

theorem Scale.fixedWire_eq_wire (hk : sc.k < Config.physFb) (P : Int) :
    sc.fixedWire P = sc.wire ((P : Rat) / 4294967296) := by
  rw [Scale.fixedWire, ← trunc_intCast_div, Scale.wire, physFb_split hk]
  congr 1
  push_cast
  field_simp

theorem Scale.value_eq_fixedValue (hk : sc.k < Config.physFb) (n : Int) :
    sc.value n = (sc.fixedValue n : Rat) / 4294967296 := by
  rw [Scale.value, Scale.fixedValue, physFb_split hk]
  push_cast
  field_simp

theorem Scale.Row.fixedValue_bounds {lsb below above : Rat} {lo hi : Int} (row : sc.Row lsb below above lo hi)
    (hlo : -(2 ^ (Config.physW - 1) : Int) ≤ sc.fixedValue lo) (hhi : sc.fixedValue hi < 2 ^ (Config.physW - 1))
    {n : Int} (hn : sc.fits n = true) :
    -(2 ^ (Config.physW - 1) : Int) ≤ sc.fixedValue n ∧ sc.fixedValue n < 2 ^ (Config.physW - 1) := by
  obtain ⟨hln, hnh⟩ := (row.fits_iff n).1 hn
  have mono : ∀ {a b : Int}, a ≤ b → sc.fixedValue a ≤ sc.fixedValue b :=
    fun hab => mul_le_mul_of_nonneg_right hab (Int.natCast_nonneg _)
  exact ⟨hlo.trans (mono hln), (mono hnh).trans_lt hhi⟩

end

/-- Settles O39: `trunc` of a quotient is `tdiv`, `2^32 = 2^k * 2^(32-k)`, and the ends of each row's integers fit. -/
theorem fixedPointAgreesWithRationals : Obligations.FixedPointAgreesWithRationals := by
  intro sc hsc
  have hk : sc.k < Config.physFb := by
    revert sc
    decide
  refine ⟨Scale.fixedWire_eq_wire hk, Scale.value_eq_fixedValue hk, fun n hn => ?bounds, hk⟩
  simp only [scaleTable, List.mem_cons, List.not_mem_nil, or_false] at hsc
  rcases hsc with rfl | rfl | rfl | rfl | rfl | rfl | rfl
  · exact scaleTod_row.fixedValue_bounds (by decide) (by decide) hn
  · exact scaleSec_row.fixedValue_bounds (by decide) (by decide) hn
  · exact scaleArp_row.fixedValue_bounds (by decide) (by decide) hn
  · exact scaleRho_row.fixedValue_bounds (by decide) (by decide) hn
  · exact scaleTheta_row.fixedValue_bounds (by decide) (by decide) hn
  · exact scaleHeight_row.fixedValue_bounds (by decide) (by decide) hn
  · exact scaleLatLon_row.fixedValue_bounds (by decide) (by decide) hn

end Sys2Proof.Machine

/-! ## The subfield-bearing items -/

namespace Sys2Proof.Machine

theorem length_subToWire (p : Config.Params) (v : Subfields) :
    (subToWire p.subMap v).length = (FieldValue.scs v).wireSize := toWire_length (p := p) (v := .scs v) rfl

theorem getLsbD_primaryOctet_iff (sm : Config.SubMap) (v : Subfields) {n : Nat} (h1 : 1 ≤ n) :
    (primaryOctet sm v).getLsbD (n - 1) = true ↔ (n = sm.com ∧ v.com.isSome) ∨ (n = sm.psr ∧ v.psr.isSome) ∨
      (n = sm.ssr ∧ v.ssr.isSome) ∨ (n = sm.mds ∧ v.mds.isSome) := by
  change srcBit (primaryOctet sm v) n = true ↔ _
  rw [srcBit_primaryOctet sm v h1]
  simp only [Bool.or_eq_true, Bool.and_eq_true, decide_eq_true_eq, or_assoc, eq_comm (a := n), and_comm]

/-- Settles O34: both items have the octets of `subToWire`, which begin with the primary octet. -/
theorem towSubfieldItemsStagePrimaryAndSubfields : Obligations.TowSubfieldItemsStagePrimaryAndSubfields := by
  intro s v i h
  have hlen := length_subToWire s.params v
  have hle := (FieldValue.scs v).wireSize_le
  have hexec : exec i s = .next ((s.stage (subToWire s.params.subMap v)).finish 0) := by
    rcases h with ⟨h, rfl⟩ | ⟨h, rfl⟩
    · exact slotToWire_stages (f := .scs) (congrArg (Option.map FieldValue.scs) h) rfl
    · exact slotToWire_stages (f := .spm) (congrArg (Option.map FieldValue.spm) h) rfl
  have hwlen : (Fin.ofNat 9 (subToWire s.params.subMap v).length).val = (subToWire s.params.subMap v).length :=
    Nat.mod_eq_of_lt (by omega)
  refine ⟨_, primaryOctet s.params.subMap v, hexec, rfl, ?octets, hwlen.trans hlen,
    fun n h1 _ => getLsbD_primaryOctet_iff _ v h1⟩
  simp only [State.finish_w, State.finish_wlen, State.stage_w, State.stage_wlen, hwlen]
  exact stageBytes_toList s.w (by omega)

section
variable {sm : Config.SubMap} {p : Byte} {more bs : List Byte} {k : ErrorKind}

theorem subFromWire_of_parse_error (h : subParse sm bs = .error k) : subFromWire sm bs = .error k := by
  simp only [subFromWire.eq_def, h]

theorem subParse_of_fx (h : fx p = true) : subParse sm (p :: more) = .error .sizeInvalid := by
  rw [subParse_cons, if_pos h]

theorem subParse_of_spare (hfx : fx p = false) (h : p &&& spareMask sm ≠ 0) :
    subParse sm (p :: more) = .error .itemUnsupported := by
  rw [subParse_cons, if_neg (Bool.eq_false_iff.1 hfx), if_pos h]

theorem subParse_of_tests (hfx : fx p = false) (hspare : p &&& spareMask sm = 0) : subParse sm (p :: more) =
    if more.length + 1 < subSize sm p then .error .sizeInvalid else .ok (subSize sm p) := by
  rw [subParse_cons, if_neg (Bool.eq_false_iff.1 hfx), if_neg (not_not.2 hspare)]

/-- A slice longer or shorter than the item is refused alike (42_field_codecs.md R153). -/
theorem subFromWire_of_length_ne (hfx : fx p = false) (hspare : p &&& spareMask sm = 0)
    (hlen : more.length + 1 ≠ subSize sm p) : subFromWire sm (p :: more) = .error .sizeInvalid := by
  have hparse := subParse_of_tests (more := more) hfx hspare
  by_cases hshort : more.length + 1 < subSize sm p
  · exact subFromWire_of_parse_error (hparse.trans (if_pos hshort))
  · rw [if_neg hshort] at hparse
    simp only [subFromWire.eq_def, hparse]
    exact if_pos (Ne.symm hlen)

theorem exec_frwItems_of_error {s : State} (h : subFromWire s.params.subMap s.staged = .error k) :
    exec .frwScs s = .next (s.finish k.code) ∧ exec .frwSpm s = .next (s.finish k.code) :=
  ⟨slotFromWire_of_error (f := .scs) (by simp only [fromWire, Field.fixedSize, fixedValue, h]),
    slotFromWire_of_error (f := .spm) (by simp only [fromWire, Field.fixedSize, fixedValue, h])⟩

end

/-- Settles O37: the tests of `subParse` in their order, and `subFromWire_subToWire` for an item. -/
theorem frwSubfieldItemsEveryOutcome : Obligations.FrwSubfieldItemsEveryOutcome := by
  intro s
  refine ⟨fun h => exec_frwItems_of_error (k := .sizeInvalid) (h ▸ rfl), fun p more h =>
    ⟨fun (hfx : fx p = true) => ?fx, fun (hfx : fx p = false) ⟨n, h2, h8, hn, hbit⟩ => ?spare,
      fun (hfx : fx p = false) hbits hlen => ?size⟩, fun v h => ?item⟩
  case fx =>
    refine exec_frwItems_of_error (k := .sizeInvalid) ?_
    rw [h, subFromWire_of_parse_error (subParse_of_fx hfx)]
  case spare =>
    have hspare : p &&& spareMask s.params.subMap ≠ 0 := fun h0 =>
      Bool.false_ne_true (((spare_zero_iff _ p).1 h0 n h2 h8 hn).symm.trans hbit)
    refine exec_frwItems_of_error (k := .itemUnsupported) ?_
    rw [h, subFromWire_of_parse_error (subParse_of_spare hfx hspare)]
  case size =>
    have hne : more.length + 1 ≠ subSize s.params.subMap p := by
      simp only [subSize, srcBit]
      omega
    refine exec_frwItems_of_error (k := .sizeInvalid) ?_
    rw [h, subFromWire_of_length_ne hfx ((spare_zero_iff _ p).2 hbits) hne]
  case item =>
    have hv : subFromWire s.params.subMap s.staged = .ok v := h ▸ subFromWire_subToWire _ v
    exact ⟨slotFromWire_of_ok (f := .scs) (v := .scs v) (by simp only [fromWire, Field.fixedSize, fixedValue, hv]),
      slotFromWire_of_ok (f := .spm) (v := .spm v) (by simp only [fromWire, Field.fixedSize, fixedValue, hv])⟩

/-! ### The rows of the items at the cursor -/

theorem exec_itemRows_of_octets {s : State} {v : Subfields} {more : List Byte}
    (h : s.atCursor = subToWire s.params.subMap v ++ more) :
    exec .frn6Scs s = .next ((s.putSlot (.scs v)).advance (subToWire s.params.subMap v).length) ∧
    exec .frn7Spm s = .next ((s.putSlot (.spm v)).advance (subToWire s.params.subMap v).length) :=
  ⟨runField_of_fieldAt (f := .scs) (h ▸ fieldAt_toWire (v := .scs v) rfl more),
    runField_of_fieldAt (f := .spm) (h ▸ fieldAt_toWire (v := .spm v) rfl more)⟩

theorem exec_itemRows_of_error {s : State} {k : ErrorKind} (h : subParse s.params.subMap s.atCursor = .error k) :
    exec .frn6Scs s = .next (s.finish k.code) ∧ exec .frn7Spm s = .next (s.finish k.code) :=
  ⟨runField_of_fieldAt_error (f := .scs) (by simp only [fieldAt, fieldSize, Field.fixedSize, h]),
    runField_of_fieldAt_error (f := .spm) (by simp only [fieldAt, fieldSize, Field.fixedSize, h])⟩

/-- Octets that parse as an item are the octets of one and what follows it (42_field_codecs.md R151). -/
theorem eq_subToWire_append_of_subParse {sm : Config.SubMap} {bs : List Byte} {n : Nat} (h : subParse sm bs = .ok n) :
    ∃ v more, bs = subToWire sm v ++ more ∧ n = (subToWire sm v).length := by
  obtain ⟨-, -, -, -, -, -, hle⟩ := subParse_ok h
  obtain ⟨v, -, hv⟩ := subFromWire_of_parse h
  refine ⟨v, bs.drop n, by rw [← hv, List.take_append_drop], ?_⟩
  rw [← hv, List.length_take, Nat.min_eq_left hle]

/-- Settles O55: reading an item is the inverse of writing it, and every item that parses was written by one. -/
theorem subfieldItemRowsReadAtTheCursor : Obligations.SubfieldItemRowsReadAtTheCursor := by
  refine ⟨fun s v more h => ?item, fun s k => exec_itemRows_of_error, fun s n => eq_subToWire_append_of_subParse⟩
  have hrows := exec_itemRows_of_octets h
  rw [length_subToWire] at hrows
  exact hrows

end Sys2Proof.Machine

/-! ## The rows of a primary octet one after another -/

namespace Sys2Proof.Machine

theorem runRows_cons_of_status_zero {i : Instr} {is : List Instr} {s t : State} (h : exec i s = .next t)
    (ht : t.status = 0) : runRows (i :: is) s = runRows is t := by
  simp only [runRows, h, if_pos ht]

theorem runRows_cons_of_raise {i : Instr} {is : List Instr} {s : State} {k : ErrorKind}
    (h : exec i s = .next (s.finish k.code)) : runRows (i :: is) s = s.finish k.code := by
  simp only [runRows, h]
  exact if_neg k.code_ne_zero

/-- The cursor moves over octets that are there without wrapping round: BUF ends below 65536 (20_memory.md R50). -/
theorem State.atCursor_advance {s : State} {n : Nat} (h : n ≤ s.atCursor.length) :
    (s.advance n).atCursor = s.atCursor.drop n := by
  have hblen := s.blen.isLt
  have hlen : s.atCursor.length = s.blen.toNat - s.cur.toNat := by
    rw [State.atCursor, List.length_drop, State.validBytes_length]
  have hcur : (s.cur + BitVec.ofNat 16 n).toNat = s.cur.toNat + n := by
    have := s.cur.isLt
    rw [BitVec.toNat_add, BitVec.toNat_ofNat]
    omega
  change s.validBytes.drop (s.cur + BitVec.ofNat 16 n).toNat = (s.validBytes.drop s.cur.toNat).drop n
  rw [hcur, List.drop_drop]

theorem State.advance_advance (s : State) (m n : Nat) : (s.advance m).advance n = s.advance (m + n) := by
  simp only [State.advance, State.setCur, BitVec.add_assoc, BitVec.ofNat_add]

/-- A row that writes a slot and moves over `done` has the rest in front of it. -/
theorem State.atCursor_putSlot_advance {s : State} {done rest : List Byte} (h : s.atCursor = done ++ rest)
    (v : FieldValue) : ((s.putSlot v).advance done.length).atCursor = rest := by
  have hput : (s.putSlot v).atCursor = done ++ rest := h
  rw [State.atCursor_advance (by rw [hput]; simp), hput, List.drop_left]

theorem State.subItem_putSlot (s : State) (item : StatusItem) (v : Subfields) (n : Nat) :
    ((s.putSlot (itemValue item v)).advance n).subItem item = v := by
  cases item <;> rfl

theorem State.putSlot_item_putSlot (s : State) (item : StatusItem) (v w : Subfields) (n : Nat) :
    ((s.putSlot (itemValue item v)).advance n).putSlot (itemValue item w) =
      (s.putSlot (itemValue item w)).advance n := by
  cases item <;> rfl

section
variable {s : State} {item : StatusItem} {set : Subfields → Option Byte → Subfields} {i : Instr} {is : List Instr}

/-- One subfield bit and its octet, where there is one, between the first octets of the item and the rest
(42_field_codecs.md R153). -/
theorem runRows_subfield (hi : ∀ t, exec i t = runSubfield item (fun v b => set v (some b)) t) (hs : s.status = 0)
    {v : Subfields} (hv : set v none = v) {done more : List Byte} (o : Option Byte)
    (h : s.atCursor = done ++ (o.toList ++ more)) :
    runRows ((if o.isSome then [i] else []) ++ is) ((s.putSlot (itemValue item v)).advance done.length) =
      runRows is ((s.putSlot (itemValue item (set v o))).advance (done ++ o.toList).length) := by
  cases o with
  | none => simp only [hv, Option.toList_none, List.append_nil]; rfl
  | some b =>
    have hat : ((s.putSlot (itemValue item v)).advance done.length).atCursor = b :: more :=
      State.atCursor_putSlot_advance h _
    have hrow := (hi _).trans (runSubfield_cons hat (s.subItem_putSlot item v done.length))
    rw [State.putSlot_item_putSlot, State.advance_advance] at hrow
    rw [List.length_append]
    exact runRows_cons_of_status_zero hrow hs

/-- A subfield row reads one octet or raises SizeInvalid (42_field_codecs.md R151). -/
theorem exec_subfieldRow_outcome (hi : i ∈ [.subCom item, .subPsr item, .subSsr item, .subMds item]) (s : State) :
    (∃ b more v, s.atCursor = b :: more ∧ exec i s = .next ((s.putSlot (itemValue item v)).advance 1)) ∨
      (s.atCursor = [] ∧ exec i s = .next (s.finish 1)) := by
  simp only [List.mem_cons, List.not_mem_nil, or_false] at hi
  cases hat : s.atCursor with
  | nil =>
    obtain ⟨hcom, hpsr, hssr, hmds⟩ := exec_subfieldRows_nil (item := item) hat
    rcases hi with rfl | rfl | rfl | rfl <;> exact .inr ⟨rfl, ‹_›⟩
  | cons b more =>
    obtain ⟨hcom, hpsr, hssr, hmds⟩ := exec_subfieldRows_cons (item := item) hat rfl
    rcases hi with rfl | rfl | rfl | rfl <;> exact .inl ⟨b, more, _, rfl, ‹_›⟩

/-- More subfield bits than octets: the row that finds none raises. -/
theorem runRows_subfields_short {is : List Instr}
    (hi : ∀ i ∈ is, i ∈ [.subCom item, .subPsr item, .subSsr item, .subMds item]) {s : State} (hs : s.status = 0)
    (h : s.atCursor.length < is.length) : (runRows is s).status = 1 := by
  induction is generalizing s with
  | nil => simp at h
  | cons i is ih =>
    rw [List.forall_mem_cons] at hi
    rcases exec_subfieldRow_outcome hi.1 s with ⟨b, more, v, hat, hrow⟩ | ⟨-, hrow⟩
    · have hnext : ((s.putSlot (itemValue item v)).advance 1).atCursor = more :=
        State.atCursor_putSlot_advance (done := [b]) hat _
      rw [runRows_cons_of_status_zero hrow hs]
      refine ih hi.2 hs ?_
      rw [hat, List.length_cons, List.length_cons] at h
      rw [hnext]
      omega
    · rw [runRows_cons_of_raise (k := .sizeInvalid) hrow]
      rfl

end

/-- The subfield rows of a primary octet, without its two tests (30_encoding.md R78). -/
def subfieldRows (sm : Config.SubMap) (item : StatusItem) (p : Byte) : List Instr :=
  (if srcBit p sm.com then [.subCom item] else []) ++ ((if srcBit p sm.psr then [.subPsr item] else []) ++
    ((if srcBit p sm.ssr then [.subSsr item] else []) ++ (if srcBit p sm.mds then [.subMds item] else [])))

theorem primaryProgram_eq (sm : Config.SubMap) (item : StatusItem) (p : Byte) :
    primaryProgram sm item p = .subFx p :: .subSpare p :: subfieldRows sm item p := by
  simp only [primaryProgram, subfieldRows, List.append_assoc]
  rfl

theorem length_subfieldRows (sm : Config.SubMap) (item : StatusItem) (p : Byte) :
    (subfieldRows sm item p).length + 1 = subSize sm p := by
  have one : ∀ (b : Bool) (i : Instr), (if b then [i] else []).length = b.toNat := fun b i => by cases b <;> rfl
  simp only [subfieldRows, List.length_append, one, subSize]
  omega

theorem mem_subfieldRows {sm : Config.SubMap} {item : StatusItem} {p : Byte} {i : Instr}
    (h : i ∈ subfieldRows sm item p) : i ∈ [.subCom item, .subPsr item, .subSsr item, .subMds item] := by
  have one : ∀ {b : Bool} {j : Instr}, i ∈ (if b then [j] else []) → i = j := fun {b j} h => by
    cases b
    · exact absurd h List.not_mem_nil
    · exact List.mem_singleton.1 h
  simp only [subfieldRows, List.mem_append] at h
  simp only [List.mem_cons, List.not_mem_nil, or_false]
  exact h.imp one (.imp one (.imp one one))

/-- The item whose four subfields are None (42_field_codecs.md R150). -/
def Subfields.empty : Subfields := { com := none, psr := none, ssr := none, mds := none }

/-- The subfield rows read an item that is there, one octet after another (42_field_codecs.md R153). -/
theorem runRows_subfieldRows {s : State} (hs : s.status = 0) (sm : Config.SubMap) (item : StatusItem) {v : Subfields}
    {more : List Byte} (h : s.atCursor = subToWire sm v ++ more) :
    runRows (subfieldRows sm item (primaryOctet sm v)) ((s.putSlot (itemValue item .empty)).advance 1) =
      (s.putSlot (itemValue item v)).advance (subToWire sm v).length := by
  obtain ⟨hc, hp, hr, hm⟩ := primaryOctet_bits sm v
  have hcom : s.atCursor =
      [primaryOctet sm v] ++ (v.com.toList ++ (v.psr.toList ++ (v.ssr.toList ++ (v.mds.toList ++ more)))) := by
    rw [h, subToWire]
    simp only [List.cons_append, List.nil_append, List.append_assoc]
  have hpsr := hcom.trans (List.append_assoc ..).symm
  have hssr := hpsr.trans (List.append_assoc ..).symm
  have hmds := hssr.trans (List.append_assoc ..).symm
  have last := runRows_subfield (i := .subMds item) (is := []) (set := fun v o => { v with mds := o })
    (v := ⟨v.com, v.psr, v.ssr, none⟩) (fun _ => rfl) hs rfl v.mds hmds
  rw [List.append_nil] at last
  rw [subfieldRows, hc, hp, hr, hm]
  refine (runRows_subfield (i := .subCom item) (set := fun v o => { v with com := o })
    (v := .empty) (fun _ => rfl) hs rfl v.com hcom).trans ?_
  refine (runRows_subfield (i := .subPsr item) (set := fun v o => { v with psr := o })
    (v := ⟨v.com, none, none, none⟩) (fun _ => rfl) hs rfl v.psr hpsr).trans ?_
  refine (runRows_subfield (i := .subSsr item) (set := fun v o => { v with ssr := o })
    (v := ⟨v.com, v.psr, none, none⟩) (fun _ => rfl) hs rfl v.ssr hssr).trans (last.trans ?_)
  rw [runRows, subToWire]
  simp only [List.cons_append, List.nil_append, List.append_assoc]

theorem exec_subFx (p : Byte) (s : State) : exec (.subFx p) s = .next (if fx p then s.finish 1 else s) :=
  raise_if_eq (fx p) .sizeInvalid s

section
variable {s : State} {item : StatusItem} {p : Byte} {is : List Instr}

theorem runRows_subFx_of_true (h : fx p = true) : runRows (.subFx p :: is) s = s.finish 1 :=
  runRows_cons_of_raise (k := .sizeInvalid) (by rw [exec_subFx, if_pos h]; rfl)

theorem runRows_subFx_of_false (hs : s.status = 0) (h : fx p = false) :
    runRows (.subFx p :: is) s = runRows is s :=
  runRows_cons_of_status_zero (by rw [exec_subFx, h]; rfl) hs

theorem runRows_subSpare_of_ne (h : p &&& spareMask s.params.subMap ≠ 0) :
    runRows (.subSpare p :: is) s = s.finish 4 :=
  runRows_cons_of_raise (k := .itemUnsupported) (by rw [exec_subSpare, if_neg h]; rfl)

theorem runRows_subSpare_of_eq (hs : s.status = 0) (h : p &&& spareMask s.params.subMap = 0) :
    runRows (.subSpare p :: is) s = runRows is s :=
  runRows_cons_of_status_zero (by rw [exec_subSpare, if_pos h]) hs

/-- The rows of a primary octet end with the error of the first test of `sub_parse` that fails (42_field_codecs.md
R151): FX, then spare, then the subfield row that finds no octet. -/
theorem runRows_primaryProgram_status {k : ErrorKind} (hs : s.status = 0)
    (h : subParse s.params.subMap (p :: s.atCursor) = .error k) :
    (runRows (primaryProgram s.params.subMap item p) s).status = k.code := by
  rw [primaryProgram_eq]
  cases hfx : fx p with
  | true =>
    obtain rfl : .sizeInvalid = k := Except.error.inj ((subParse_of_fx hfx).symm.trans h)
    rw [runRows_subFx_of_true hfx]
    rfl
  | false =>
    rw [runRows_subFx_of_false hs hfx]
    by_cases hspare : p &&& spareMask s.params.subMap = 0
    · rw [subParse_of_tests hfx hspare] at h
      split at h
      · rename_i hshort
        obtain rfl : .sizeInvalid = k := Except.error.inj h
        rw [runRows_subSpare_of_eq hs hspare]
        have hlen := length_subfieldRows s.params.subMap item p
        exact runRows_subfields_short (fun i => mem_subfieldRows) hs (by omega)
      · cases h
    · obtain rfl : .itemUnsupported = k := Except.error.inj ((subParse_of_spare hfx hspare).symm.trans h)
      rw [runRows_subSpare_of_ne hspare]
      rfl

/-- The rows of a primary octet read the item it begins (42_field_codecs.md R153). -/
theorem runRows_primaryProgram_item (hs : s.status = 0) {v : Subfields} {more : List Byte}
    (h : s.atCursor = subToWire s.params.subMap v ++ more) :
    runRows (primaryProgram s.params.subMap item (primaryOctet s.params.subMap v))
      ((s.putSlot (itemValue item .empty)).advance 1) =
      (s.putSlot (itemValue item v)).advance (subToWire s.params.subMap v).length := by
  have hstart : ((s.putSlot (itemValue item .empty)).advance 1).status = 0 := hs
  rw [primaryProgram_eq, runRows_subFx_of_false hstart (fx_primaryOctet _ v)]
  exact (runRows_subSpare_of_eq hstart (spare_primaryOctet _ v)).trans (runRows_subfieldRows hs _ item h)

end

/-- Settles O60: the octets at the cursor are an item, which the rows read as the item's row does, or they fail a test
of `sub_parse`, which one of the rows is. -/
theorem scsRowRunsTheRowsOfItsPrimary : Obligations.ScsRowRunsTheRowsOfItsPrimary := by
  intro s p more hat hs t
  cases hparse : subParse s.params.subMap s.atCursor with
  | ok n =>
    obtain ⟨v, rest, hitem, -⟩ := eq_subToWire_append_of_subParse hparse
    obtain rfl : p = primaryOctet s.params.subMap v := (List.cons.inj (hat.symm.trans hitem)).1
    have ht : t = (s.putSlot (.scs v)).advance (subToWire s.params.subMap v).length :=
      runRows_primaryProgram_item (item := .scs) hs hitem
    have hzero : t.status = 0 := ht ▸ hs
    exact ⟨fun _ => ht ▸ (exec_itemRows_of_octets hitem).1, fun h => absurd hzero h⟩
  | error k =>
    have hbehind : ((s.putSlot (.scs .empty)).advance 1).atCursor = more :=
      State.atCursor_putSlot_advance (done := [p]) hat _
    have ht : t.status = k.code :=
      runRows_primaryProgram_status (s := (s.putSlot (.scs .empty)).advance 1) (item := .scs) hs
        (by rw [hbehind, ← hat]; exact hparse)
    exact ⟨fun h => absurd (ht.symm.trans h) k.code_ne_zero, fun _ => ht ▸ (exec_itemRows_of_error hparse).1⟩

end Sys2Proof.Machine

/-! ## REC.ENC and REC.DEC undo each other -/

namespace Sys2Proof.Machine

theorem exec_recEnc_of_ok {s : State} {bs : List Byte} (h : recEnc s.params s.r = .ok bs) :
    exec .recEnc s = .next (((s.storeBuf bs).setRlen bs.length).finish 0) := by
  rw [exec, execRecEnc, h, conclude_ok]

theorem exec_recEnc_of_error {s : State} {k : ErrorKind} (h : recEnc s.params s.r = .error k) :
    exec .recEnc s = .next (s.finish k.code) := by
  rw [exec, execRecEnc, h, conclude_error]

/-- Settles O42: the decoder reads a record's octets back, whatever follows them. -/
theorem recDecInvertsRecEnc : Obligations.RecDecInvertsRecEnc := by
  intro s rec bs more h hbytes
  rw [exec_recDec, hbytes, recDec_recEnc h more, conclude_ok]
  rfl

/-- What a REC.DEC that ends with STATUS 0 has done. -/
theorem recDec_of_exec {s t : State} (h : exec .recDec s = .next t) (hstatus : t.status = 0) :
    ∃ rec n, recDec s.params s.validBytes = .ok (rec, n) ∧ t = ((s.setRecord rec).setRlen n).finish 0 := by
  rcases conclude_cases h with ⟨⟨rec, n⟩, hdec, e⟩ | ⟨k, -, rfl⟩
  · exact ⟨rec, n, hdec, e⟩
  · exact absurd hstatus k.code_ne_zero

/-- A record with a canonical chain encodes to the octets it was read from (43_record_engine.md R180). -/
theorem recEnc_recDec_of_canonical {p : Config.Params} {bs o : List Byte} {rec : Record} {n : Nat}
    (h : recDec p bs = .ok (rec, n)) (ho : fspecParse bs = .ok o) (hc : canonicalChain o = true) :
    recEnc p rec = .ok (bs.take n) ∧ n ≤ bs.length := by
  obtain ⟨henc, hchain, hle⟩ := recEnc_recDec h ho
  refine ⟨?_, hle⟩
  obtain ⟨more, rfl, -⟩ := fspecParse_ok ho
  rw [henc, canonicalChain_iff.1 hc, List.drop_left, List.take_append, List.take_of_length_le hchain]

/-- Writing valid octets where they stand changes no octet of BUF. -/
theorem State.octet_writeBytes_validBytes (s : State) (n a : Nat) :
    Memory.octet (Memory.writeBytes s.buf 0 (s.validBytes.take n)) a = Memory.octet s.buf a := by
  rw [Memory.octet_writeBytes_zero, List.getD_eq_getElem?_getD, List.getElem?_take, s.validBytes_getElem?]
  split
  · split <;> rfl
  · rfl

/-- Settles O43: what REC.ENC writes is the octets that REC.DEC read, in the places it read them from. -/
theorem recEncAfterRecDecReproducesTheOctets : Obligations.RecEncAfterRecDecReproducesTheOctets := by
  intro s t o ho hc h hstatus
  obtain ⟨rec, n, hdec, rfl⟩ := recDec_of_exec h hstatus
  obtain ⟨henc, hle⟩ := recEnc_recDec_of_canonical hdec ho hc
  have hlen : (s.validBytes.take n).length = n := by rw [List.length_take, Nat.min_eq_left hle]
  have hexec := exec_recEnc_of_ok (s := ((s.setRecord rec).setRlen n).finish 0) henc
  exact ⟨_, hexec, rfl, congrArg (BitVec.ofNat 16) hlen, congrArg (BitVec.ofNat 16) hlen, rfl,
    s.octet_writeBytes_validBytes n⟩

/-- Settles O44: decoding puts a value into a slot for each declared FRN, and the builder's chain declares what it was
built from. -/
theorem presenceMatchesTheChain : Obligations.PresenceMatchesTheChain := by
  refine ⟨fun s t h hstatus => ?decoded, fun p rec bs h => ?encoded⟩
  case decoded =>
    obtain ⟨rec, n, hdec, rfl⟩ := recDec_of_exec h hstatus
    obtain ⟨o, -, ho, -⟩ := recDec_ok hdec
    exact ⟨o, ho, fun f h1 h14 => present_of_recDec hdec ho h1 h14⟩
  case encoded =>
    obtain ⟨body, -, rfl⟩ := recEnc_ok.1 h
    exact ⟨_, fspecParse_fspecBuild (present rec) body, chainFrns_fspecBuild (present rec)⟩

end Sys2Proof.Machine

/-! ## The chain registers are no input of encoding -/

namespace Sys2Proof.Machine

/-- The state with other contents of FSP, FSB and FLEN. -/
def State.withChainRegisters (s : State) (a b c : Byte) (n : Fin 3) : State :=
  { s with fsp0 := a, fsp1 := b, fsb := c, flen := n }

/-- A command that computes the same result and writes the same but for the chain registers ends the same but for
them. -/
theorem conclude_withChainRegisters {α : Type} {s t : State} {a b c : Byte} {n : Fin 3} {result : Except ErrorKind α}
    {write' write : α → State} (hw : ∀ v, write' v = (write v).withChainRegisters a b c n)
    (h : conclude s result write = .next t) :
    conclude (s.withChainRegisters a b c n) result write' = .next (t.withChainRegisters a b c n) := by
  rcases conclude_cases h with ⟨v, rfl, rfl⟩ | ⟨k, rfl, rfl⟩
  · rw [conclude_ok, hw]; rfl
  · rfl

/-- Settles O18: `rec_enc` computes from R and `msg_enc` from HCAT and RS, and neither command writes the chain
registers. -/
theorem encodingIgnoresTheChainRegisters : Obligations.EncodingIgnoresTheChainRegisters := by
  intro i s t a b c n hi h
  rcases hi with rfl | rfl
  · exact conclude_withChainRegisters (result := recEnc s.params s.r) (fun _ => rfl) h
  · exact conclude_withChainRegisters (result := msgEnc s.params s.hcat s.rs) (fun _ => rfl) h

end Sys2Proof.Machine

/-! ## REC.ENC, every outcome -/

namespace Sys2Proof.Machine

/-! ### Which values encode -/

theorem Scale.Row.toWire_ok_iff {sc : Scale} {lsb below above : Rat} {lo hi : Int}
    (row : sc.Row lsb below above lo hi) (v : Rat) : (∃ bs, sc.toWire v = .ok bs) ↔ below < v ∧ v < above := by
  constructor
  · rintro ⟨bs, h⟩
    exact row.inside_of_toWire_ok h
  · intro h
    obtain ⟨n, -, -, -, hok⟩ := row.toWire_inside h
    exact ⟨_, hok⟩

/-- Octet strings join iff each of them is there. -/
theorem joinWire_ok_iff {l : List (Except ErrorKind (List Byte))} :
    (∃ bs, joinWire l = .ok bs) ↔ ∀ r ∈ l, ∃ a, r = .ok a := by
  induction l with
  | nil => simp [joinWire]
  | cons r l ih =>
    rw [List.forall_mem_cons, ← ih]
    constructor
    · rintro ⟨bs, h⟩
      obtain ⟨a, b, ha, hb, -⟩ := joinWire_cons_ok.1 h
      exact ⟨⟨a, ha⟩, b, hb⟩
    · rintro ⟨⟨a, ha⟩, b, hb⟩
      exact ⟨_, joinWire_cons_ok.2 ⟨a, b, ha, hb, rfl⟩⟩

theorem mem_of_joinWire_error {l : List (Except ErrorKind (List Byte))} {k : ErrorKind} (h : joinWire l = .error k) :
    .error k ∈ l := by
  induction l with
  | nil => cases h
  | cons r l ih =>
    rcases joinWire_cons_error.1 h with rfl | ⟨-, -, h⟩
    · exact List.mem_cons_self ..
    · exact List.mem_cons_of_mem _ (ih h)

theorem messageTypeOk_iff (p : Config.Params) (m : Byte) :
    messageTypeOk p m = true ↔ (FieldValue.mty m).Accepted p := by
  simp [messageTypeOk, FieldValue.Accepted]

/-- The values that encode are the accepted ones (10_state.md R22). -/
theorem toWire_ok_iff (p : Config.Params) (v : FieldValue) : (∃ bs, toWire p v = .ok bs) ↔ v.Accepted p := by
  cases v with
  | dsi v | scs v | spm v => exact iff_of_true ⟨_, rfl⟩ trivial
  | mty m =>
    rw [← messageTypeOk_iff, toWire]
    split <;> simp [*]
  | tod v => exact scaleTod_row.toWire_ok_iff v
  | sec v => exact scaleSec_row.toWire_ok_iff v
  | arp v => exact scaleArp_row.toWire_ok_iff v
  | gpw v =>
    simp only [toWire, joinWire_ok_iff, List.forall_mem_cons, List.not_mem_nil, false_implies, implies_true, and_true,
      scaleRho_row.toWire_ok_iff, scaleTheta_row.toWire_ok_iff, FieldValue.Accepted]
  | pos v =>
    simp only [toWire, joinWire_ok_iff, List.forall_mem_cons, List.not_mem_nil, false_implies, implies_true, and_true,
      scaleHeight_row.toWire_ok_iff, scaleLatLon_row.toWire_ok_iff, FieldValue.Accepted]

theorem Record.mem_values {rec : Record} {v : FieldValue} : v ∈ rec.values ↔ ∃ f, rec.get f = some v := by
  simp [Record.values, mem_codecFields]

theorem recEnc_ok_iff (p : Config.Params) (rec : Record) : (∃ bs, recEnc p rec = .ok bs) ↔ rec.Accepted p := by
  have hbody : (∃ bs, recEnc p rec = .ok bs) ↔ ∃ body, joinWire (rec.values.map (toWire p)) = .ok body :=
    ⟨fun ⟨_, h⟩ => (recEnc_ok.1 h).imp fun _ => And.left, fun ⟨body, h⟩ => ⟨_, recEnc_ok.2 ⟨body, h, rfl⟩⟩⟩
  rw [hbody, joinWire_ok_iff, List.forall_mem_map]
  simp only [toWire_ok_iff, Record.mem_values, Record.Accepted]
  exact ⟨fun h f v hv => h v ⟨f, hv⟩, fun h v ⟨f, hv⟩ => h f v hv⟩

/-! ### Which error a record that does not encode ends with -/

/-- No field before MessageType can fail, so a refused MessageType decides (60_exceptions.md R208). -/
theorem recEnc_of_mty_refused {p : Config.Params} {rec : Record} {m : Byte} (hm : rec.mty = some m)
    (h : ¬ (FieldValue.mty m).Accepted p) : recEnc p rec = .error .itemUnsupported := by
  have hwire : toWire p (.mty m) = .error .itemUnsupported := if_neg (mt (messageTypeOk_iff p m).1 h)
  have hfirst : ∀ v, toWire p (.dsi v) = .ok [v.o0, v.o1] := fun _ => rfl
  refine recEnc_error.2 ?_
  cases hdsi : rec.dsi with
  | none => simp [Record.values, codecFields, Record.get, hdsi, hm, hwire, joinWire]
  | some v => simp [Record.values, codecFields, Record.get, hdsi, hm, hwire, hfirst, joinWire]

theorem recEnc_error_of_mty_accepted {p : Config.Params} {rec : Record} {k : ErrorKind} (h : recEnc p rec = .error k)
    (hm : ∀ m, rec.mty = some m → (FieldValue.mty m).Accepted p) : k = .rangeInvalid := by
  obtain ⟨v, hv, hwire⟩ := List.mem_map.1 (mem_of_joinWire_error (recEnc_error.1 h))
  obtain ⟨-, -, m, rfl, hrefused⟩ | ⟨hk, -⟩ := toWire_error hwire
  · obtain ⟨f, hf⟩ := Record.mem_values.1 hv
    obtain rfl : .mty = f := Record.get_field hf
    have hslot : rec.mty = some m := by simpa [Record.get] using hf
    exact absurd ((messageTypeOk_iff p m).2 (hm m hslot)) (Bool.eq_false_iff.1 hrefused)
  · exact hk

/-! ### How long a record is -/

/-- The largest size of a field: an item of FRN 6 or 7 is a primary octet and at most four more (43_record_engine.md
R174, R179). -/
def Field.maxSize (f : Field) : Nat := f.fixedSize.getD 5

theorem FieldValue.wireSize_le_maxSize (v : FieldValue) : v.wireSize ≤ v.field.maxSize := by
  cases v with
  | scs v | spm v =>
    have hcom := v.com.isSome.toNat_le
    have hpsr := v.psr.isSome.toNat_le
    have hssr := v.ssr.isSome.toNat_le
    have hmds := v.mds.isSome.toNat_le
    simp only [FieldValue.wireSize, FieldValue.field, Field.maxSize, Field.fixedSize, option_toList_length,
      Option.getD_none]
    omega
  | _ => exact le_rfl

/-- The values of a record take no more than the fields they are among. -/
theorem Record.wireSize_values_le {rec : Record} {fs : List Field} (h : (rec.values.map FieldValue.field).Sublist fs) :
    (rec.values.map FieldValue.wireSize).sum ≤ (fs.map Field.maxSize).sum :=
  calc (rec.values.map FieldValue.wireSize).sum
    _ ≤ (rec.values.map (Field.maxSize ∘ FieldValue.field)).sum :=
      List.sum_le_sum fun v _ => v.wireSize_le_maxSize
    _ = ((rec.values.map FieldValue.field).map Field.maxSize).sum := by rw [List.map_map]
    _ ≤ (fs.map Field.maxSize).sum := (h.map Field.maxSize).sum_le_sum fun _ _ => Nat.zero_le _

/-- Without FRN 9 and 11 the values of a record are among the fields of FRN 1 to 7. -/
theorem Record.values_fields_low {rec : Record} (hgpw : rec.gpw = none) (hpos : rec.pos = none) :
    (rec.values.map FieldValue.field).Sublist [.dsi, .mty, .tod, .sec, .arp, .scs, .spm] := by
  have hlow : ∀ f ∈ rec.values.map FieldValue.field, decide (f.frn ≤ 7) = true := by
    intro f hf
    obtain ⟨v, hv, rfl⟩ := List.mem_map.1 hf
    obtain ⟨f, hf⟩ := Record.mem_values.1 hv
    rw [Record.get_field hf]
    cases f with
    | gpw => simp [Record.get, hgpw] at hf
    | pos => simp [Record.get, hpos] at hf
    | _ => rfl
  rw [← List.filter_eq_self.2 hlow]
  exact rec.values_fields.filter _

theorem recEnc_length {p : Config.Params} {rec : Record} {bs : List Byte} (h : recEnc p rec = .ok bs) :
    bs.length = (if rec.gpw.isSome || rec.pos.isSome then 2 else 1) + (rec.values.map FieldValue.wireSize).sum := by
  obtain ⟨body, hbody, rfl⟩ := recEnc_ok.1 h
  rw [List.length_append, joinWire_length hbody, presentFrns, fspecBuild_length, needsTwo_present]

/-- Settles O41: a chain of one or two octets, and 35 octets of fields at most, 19 of them of FRN 1 to 7. -/
theorem recordSizeBounds : Obligations.RecordSizeBounds := by
  intro p rec bs h
  have hlen := recEnc_length h
  have hall : (rec.values.map FieldValue.wireSize).sum ≤ 35 := Record.wireSize_values_le rec.values_fields
  refine ⟨?_, ?_, fun hgpw hpos => ?_⟩
  · split at hlen <;> omega
  · split at hlen <;> omega
  · have hlow : (rec.values.map FieldValue.wireSize).sum ≤ 19 :=
      Record.wireSize_values_le (Record.values_fields_low hgpw hpos)
    rw [hgpw, hpos, Option.isSome_none, Option.isSome_none, Bool.or_false, if_neg Bool.false_ne_true] at hlen
    omega

/-- Settles O40: a record encodes iff its values are accepted; a refused MessageType decides the error, and without one
it is RangeInvalid. -/
theorem recEncWritesTheRecord : Obligations.RecEncWritesTheRecord := by
  refine fun s => ⟨fun hacc => ?encodes, fun ⟨m, hm, hrefused⟩ => ?refused, fun hnot hmty => ?outOfRange⟩
  case encodes =>
    obtain ⟨bs, hbs⟩ := (recEnc_ok_iff s.params s.r).2 hacc
    obtain ⟨-, hlen, -⟩ := recordSizeBounds s.params s.r bs hbs
    exact ⟨bs, _, hbs, exec_recEnc_of_ok hbs, rfl, hlen, Memory.octet_writeBytes_zero bs s.buf⟩
  case refused => exact exec_recEnc_of_error (recEnc_of_mty_refused hm hrefused)
  case outOfRange =>
    cases henc : recEnc s.params s.r with
    | ok bs => exact absurd ((recEnc_ok_iff s.params s.r).1 ⟨bs, henc⟩) hnot
    | error k =>
      obtain rfl := recEnc_error_of_mty_accepted henc hmty
      exact exec_recEnc_of_error henc

end Sys2Proof.Machine

/-! ## REC.DEC and the rows of its chain -/

namespace Sys2Proof.Machine

/-! ### One turn of the loop over the fields (43_record_engine.md R172) -/

section
variable {p : Config.Params} {o rest : List Byte} {f size : Nat} {fld : Field} {v : FieldValue} {k : ErrorKind}
  (fs : List Nat) (rec : Record) (n : Nat)

theorem decodeFields_cons_undeclared (hd : declared o f = false) :
    decodeFields p o (f :: fs) rest rec n = decodeFields p o fs rest rec n := by
  rw [decodeFields, hd, if_neg Bool.false_ne_true]

theorem decodeFields_cons_noCodec (hd : declared o f = true) (hf : Field.ofFrn f = none) :
    decodeFields p o (f :: fs) rest rec n = .error .itemUnsupported := by
  simp only [decodeFields, hd, if_true, hf]

theorem decodeFields_cons_error (hd : declared o f = true) (hf : Field.ofFrn f = some fld)
    (h : fieldAt p fld rest = .error k) : decodeFields p o (f :: fs) rest rec n = .error k := by
  simp only [decodeFields, hd, if_true, hf, h]

theorem decodeFields_cons_ok (hd : declared o f = true) (hf : Field.ofFrn f = some fld)
    (h : fieldAt p fld rest = .ok (v, size)) :
    decodeFields p o (f :: fs) rest rec n = decodeFields p o fs (rest.drop size) (rec.put v) (n + size) := by
  simp only [decodeFields, hd, if_true, hf, h]

end

/-! ### The rows one after another -/

/-- FRN 8, 10, 12, 13 and 14 have no codec (30_encoding.md R79). -/
theorem exec_frnInstr_of_noCodec {f : Nat} (h : Field.ofFrn f = none) (s : State) :
    exec (frnInstr f) s = .next (s.finish 4) := by
  refine rowsWithoutCodecRaiseItemUnsupported s (frnInstr f) ?_
  unfold frnInstr
  split <;> simp [Field.ofFrn] at h ⊢

theorem Field.eq_frn_of_ofFrn {f : Nat} {fld : Field} (h : Field.ofFrn f = some fld) : f = fld.frn :=
  Field.ofFrn_injective h fld.ofFrn_frn

theorem exec_frnInstr_of_field {f : Nat} {fld : Field} (h : Field.ofFrn f = some fld) (s : State) :
    exec (frnInstr f) s = runField fld s := by
  rw [Field.eq_frn_of_ofFrn h]
  cases fld <;> rfl

/-- The rows that led from `s` to `t` did what the loop of `rec_dec` answers: its record and its cursor, or its error
(43_record_engine.md R172; log entry 8). -/
def RowsDo (s t : State) : Except ErrorKind (Record × Nat) → Prop
  | .ok d => t = (s.setRecord d.1).setCur (BitVec.ofNat 16 d.2)
  | .error k => t.status = k.code

theorem rowsDo_of_raise {i : Instr} {is : List Instr} {s : State} {k : ErrorKind}
    (h : exec i s = .next (s.finish k.code)) : RowsDo s (runRows (i :: is) s) (.error k) :=
  congrArg State.status (runRows_cons_of_raise h)

/-- What the record slots and the cursor held before the rows is overwritten. -/
theorem rowsDo_putSlot_advance {s t : State} {v : FieldValue} {n : Nat} {r : Except ErrorKind (Record × Nat)} :
    RowsDo ((s.putSlot v).advance n) t r ↔ RowsDo s t r := by
  cases r <;> exact Iff.rfl

/-- The rows of the declared FRNs do what the loop over these FRNs does, row by row. -/
theorem rowsDo_decodeFields (o : List Byte) (fs : List Nat) {s : State} {n : Nat} (hs : s.status = 0)
    (hcur : s.cur = BitVec.ofNat 16 n) :
    RowsDo s (runRows ((fs.filter (declared o)).map frnInstr) s) (decodeFields s.params o fs s.atCursor s.r n) := by
  induction fs generalizing s n with
  | nil => exact congrArg s.setCur hcur
  | cons f fs ih =>
    cases hd : declared o f with
    | false =>
      rw [decodeFields_cons_undeclared fs s.r n hd, List.filter_cons_of_neg (Bool.eq_false_iff.1 hd)]
      exact ih hs hcur
    | true =>
      rw [List.filter_cons_of_pos hd, List.map_cons]
      cases hfld : Field.ofFrn f with
      | none =>
        rw [decodeFields_cons_noCodec fs s.r n hd hfld]
        exact rowsDo_of_raise (exec_frnInstr_of_noCodec hfld s)
      | some fld =>
        have hrow := exec_frnInstr_of_field hfld s
        cases hat : fieldAt s.params fld s.atCursor with
        | error k =>
          rw [decodeFields_cons_error fs s.r n hd hfld hat]
          exact rowsDo_of_raise (hrow.trans (runField_of_fieldAt_error hat))
        | ok d =>
          obtain ⟨v, size⟩ := d
          obtain ⟨-, -, -, -, hle, -⟩ := fieldAt_ok hat
          have hrest : ((s.putSlot v).advance size).atCursor = s.atCursor.drop size :=
            State.atCursor_advance (s := s.putSlot v) hle
          have hnext : ((s.putSlot v).advance size).cur = BitVec.ofNat 16 (n + size) := by
            rw [BitVec.ofNat_add, ← hcur]
            rfl
          rw [decodeFields_cons_ok fs s.r n hd hfld hat,
            runRows_cons_of_status_zero (hrow.trans (runField_of_fieldAt hat)) hs, ← hrest]
          exact rowsDo_putSlot_advance.1 (ih (s := (s.putSlot v).advance size) hs hnext)

/-- Where the rows of a record start: an empty record, and the cursor behind the chain (43_record_engine.md R172). -/
def State.behindChain (s : State) (o : List Byte) : State :=
  { s with status := 0, r := Record.empty, cur := BitVec.ofNat 16 o.length }

theorem State.atCursor_behindChain {s : State} {o : List Byte} (ho : fspecParse s.validBytes = .ok o) :
    (s.behindChain o).atCursor = s.validBytes.drop o.length := by
  have hlen : o.length ≤ 2 := by
    obtain ⟨-, -, ⟨a, rfl, -⟩ | ⟨a, b, rfl, -⟩⟩ := fspecParse_ok ho <;> simp
  have hcur : (BitVec.ofNat 16 o.length).toNat = o.length := by
    rw [BitVec.toNat_ofNat]
    omega
  exact congrArg s.validBytes.drop hcur

theorem rowsDo_behindChain {s : State} {o : List Byte} (ho : fspecParse s.validBytes = .ok o) (fs : List Nat) :
    RowsDo (s.behindChain o) (runRows ((fs.filter (declared o)).map frnInstr) (s.behindChain o))
      (decodeFields s.params o fs (s.validBytes.drop o.length) Record.empty o.length) := by
  rw [← State.atCursor_behindChain ho]
  exact rowsDo_decodeFields o fs (s := s.behindChain o) rfl rfl

theorem recDec_of_parsed {p : Config.Params} {bs o : List Byte} (ho : fspecParse bs = .ok o) :
    recDec p bs = decodeFields p o allFrns (bs.drop o.length) Record.empty o.length := by
  simp only [recDec, ho]

/-- Settles O59: the loop of `rec_dec` over the FRNs 1 to 14 is the rows of the declared ones. -/
theorem recDecRunsTheRowsOfItsChain : Obligations.RecDecRunsTheRowsOfItsChain := by
  refine ⟨fun s o ho => ?parsed, fun s k hk => ?unparsed⟩
  case parsed =>
    intro t
    have hrows : RowsDo (s.behindChain o) t _ := rowsDo_behindChain ho allFrns
    rw [exec_recDec, recDec_of_parsed ho]
    cases hdec : decodeFields s.params o allFrns (s.validBytes.drop o.length) Record.empty o.length with
    | ok d =>
      rw [hdec] at hrows
      have ht : t = ((s.behindChain o).setRecord d.1).setCur (BitVec.ofNat 16 d.2) := hrows
      exact ⟨fun _ => by rw [ht]; rfl, fun h => absurd (congrArg State.status ht) h⟩
    | error k =>
      rw [hdec] at hrows
      have ht : t.status = k.code := hrows
      exact ⟨fun h => absurd (ht.symm.trans h) k.code_ne_zero, fun _ => by rw [ht]; rfl⟩
  case unparsed =>
    obtain rfl := fspecParse_error hk
    rw [exec_recDec, recDec, hk]
    rfl

end Sys2Proof.Machine

/-! ## OFS.Q -/

namespace Sys2Proof.Machine

/-! ### The command -/

section
variable {s : State} {f : Byte}

theorem frnOk_eq_false (h : f.toNat = 0 ∨ 14 < f.toNat) : frnOk f = false := by
  simp only [frnOk, Bool.and_eq_false_iff, decide_eq_false_iff_not]
  rw [Config.frnMax]
  omega

theorem exec_ofsQ (h1 : 1 ≤ f.toNat) (h14 : f.toNat ≤ 14) : exec (.ofsQ f) s =
    conclude s (fieldOffset s.params s.validBytes f.toNat) fun d => (s.setOfs d.1).setT d.2 :=
  if_pos (by simp [frnOk, Config.frnMax, h1, h14])

theorem exec_ofsQ_of_outside (h : f.toNat = 0 ∨ 14 < f.toNat) : exec (.ofsQ f) s = .next (s.finish 5) :=
  if_neg (Bool.eq_false_iff.1 (frnOk_eq_false h))

theorem exec_ofsQ_of_ok {cur : Nat} {b : Bool} (h1 : 1 ≤ f.toNat) (h14 : f.toNat ≤ 14)
    (h : fieldOffset s.params s.validBytes f.toNat = .ok (cur, b)) :
    exec (.ofsQ f) s = .next { s.finish 0 with ofs := BitVec.ofNat 16 cur, t := b } := by
  rw [exec_ofsQ h1 h14, h, conclude_ok]
  rfl

theorem exec_ofsQ_of_error {k : ErrorKind} (h1 : 1 ≤ f.toNat) (h14 : f.toNat ≤ 14)
    (h : fieldOffset s.params s.validBytes f.toNat = .error k) : exec (.ofsQ f) s = .next (s.finish k.code) := by
  rw [exec_ofsQ h1 h14, h, conclude_error]

end

/-! ### The walk -/

section
variable {p : Config.Params} {o bs : List Byte} {f : Nat}

theorem fieldOffset_of_offsetWalk {cur : Nat} (ho : fspecParse bs = .ok o)
    (h : offsetWalk p o (allFrns.filter (· < f)) (bs.drop o.length) o.length = .ok cur) :
    fieldOffset p bs f = .ok (cur, declared o f) := by
  simp only [fieldOffset, ho, h]

/-- OFS.Q is the loop of `rec_dec` over the FRNs below f without MT_STRICT (43_record_engine.md R174, R176). -/
theorem fieldOffset_of_parsed (p : Config.Params) (f : Nat) (ho : fspecParse bs = .ok o) : fieldOffset p bs f =
    (decodeFields (lenient p) o (allFrns.filter (· < f)) (bs.drop o.length) Record.empty o.length).map
      fun d => (d.2, declared o f) := by
  simp only [fieldOffset, ho, offsetWalk_lenient p o _ _ Record.empty]
  cases decodeFields (lenient p) o (allFrns.filter (· < f)) (bs.drop o.length) Record.empty o.length <;> rfl

/-- Where the declared fields below f read, OFS.Q answers the offset of what follows them. -/
theorem fieldOffset_of_readsBelow {more : List Byte} (ho : fspecParse bs = .ok o)
    (h : ReadsBelow (lenient p) o bs f more) : fieldOffset p bs f = .ok (bs.length - more.length, declared o f) := by
  obtain ⟨rest, rfl, -⟩ := fspecParse_ok ho
  obtain ⟨vs, body, hfields, hbody, rfl⟩ := readsBelow_iff.1 h
  have hlen : (o ++ (body ++ more)).length - more.length = o.length + body.length := by
    simp only [List.length_append]
    omega
  rw [fieldOffset_of_parsed p f ho, List.drop_left, decodeFields_toWire hfields hbody, hlen]
  rfl

/-- Nothing declared below f reads as nothing. -/
theorem readsBelow_of_lowest (ho : fspecParse bs = .ok o) (h : ∀ g, 1 ≤ g → g < f → declared o g = false) :
    ReadsBelow p o bs f (bs.drop o.length) := by
  obtain ⟨rest, rfl, -⟩ := fspecParse_ok ho
  have hnone : (allFrns.filter (· < f)).filter (declared o) = [] := by
    refine List.filter_eq_nil_iff.2 fun g hg => ?_
    obtain ⟨hmem, hlt⟩ := List.mem_filter.1 hg
    exact Bool.eq_false_iff.1 (h g (mem_allFrns.1 hmem).1 (of_decide_eq_true hlt))
  rw [readsBelow_iff, List.drop_left]
  exact ⟨[], [], by rw [hnone]; rfl, rfl, rfl⟩

/-- Among the FRNs below f, those before g are the FRNs below g. -/
theorem filter_lt_split {g : Nat} (h1 : 1 ≤ g) (hlt : g < f) (h14 : f ≤ 14) :
    ∃ above, allFrns.filter (· < f) = allFrns.filter (· < g) ++ g :: above := by
  refine ⟨(allFrns.filter (g < ·)).filter (· < f), ?_⟩
  have hbelow : (allFrns.filter (· < g)).filter (· < f) = allFrns.filter (· < g) :=
    List.filter_eq_self.2 fun x hx => decide_eq_true ((of_decide_eq_true (List.mem_filter.1 hx).2).trans hlt)
  conv_lhs => rw [allFrns_split h1 (hlt.le.trans h14)]
  rw [List.filter_append, hbelow, List.filter_cons_of_pos (by simpa using hlt)]

/-- The first declared FRN below f whose size fails decides the error. -/
theorem fieldOffset_of_fieldFails {g : Nat} {more : List Byte} {k : ErrorKind} (ho : fspecParse bs = .ok o)
    (h1 : 1 ≤ g) (hlt : g < f) (h14 : f ≤ 14) (hd : declared o g = true) (hr : ReadsBelow (lenient p) o bs g more)
    (h : FieldFails (lenient p) g more k) : fieldOffset p bs f = .error k := by
  obtain ⟨rest, rfl, -⟩ := fspecParse_ok ho
  obtain ⟨above, hsplit⟩ := filter_lt_split h1 hlt h14
  rw [fieldOffset_of_parsed p f ho, hsplit, List.drop_left,
    decodeFields_of_readsFrns (readsBelow_iff.1 hr) h1 (hlt.le.trans h14) hd h]
  rfl

end

theorem lenient_of_not_strict {p : Config.Params} (h : p.mtStrict = false) : lenient p = p := by
  cases p
  cases h
  rfl

/-- Without MT_STRICT the rows of the declared FRNs below f go as far as OFS.Q does. -/
theorem exec_ofsQ_rows {s t : State} {f : Byte} {o : List Byte} (h1 : 1 ≤ f.toNat) (h14 : f.toNat ≤ 14)
    (ho : fspecParse s.validBytes = .ok o) (hstrict : s.params.mtStrict = false)
    (ht : runRows (((chainFrns o).filter (· < f.toNat)).map frnInstr) (s.behindChain o) = t) :
    (t.status = 0 → exec (.ofsQ f) s = .next { s.finish 0 with ofs := t.cur, t := declared o f.toNat }) ∧
    (t.status ≠ 0 → exec (.ofsQ f) s = .next (s.finish t.status)) := by
  have hrows := rowsDo_behindChain ho (allFrns.filter (· < f.toNat))
  rw [List.filter_comm, show allFrns.filter (declared o) = chainFrns o from rfl, ht] at hrows
  have hoffset := fieldOffset_of_parsed s.params f.toNat ho
  rw [lenient_of_not_strict hstrict] at hoffset
  cases hdec : decodeFields s.params o (allFrns.filter (· < f.toNat)) (s.validBytes.drop o.length) Record.empty
    o.length with
  | ok d =>
    rw [hdec] at hrows hoffset
    subst hrows
    exact ⟨fun _ => exec_ofsQ_of_ok h1 h14 hoffset, fun h => absurd rfl h⟩
  | error k =>
    rw [hdec] at hrows hoffset
    have hstatus : t.status = k.code := hrows
    exact ⟨fun h => absurd (hstatus.symm.trans h) k.code_ne_zero,
      fun _ => hstatus ▸ exec_ofsQ_of_error h1 h14 hoffset⟩

/-- Settles O47: OFS.Q is the loop of `rec_dec` over the FRNs below f without MT_STRICT. -/
theorem offsetQueryExaminesOnlyFieldsBelow : Obligations.OffsetQueryExaminesOnlyFieldsBelow := by
  refine fun s f => ⟨fun o h1 h14 ho hlow => ?lowest, fun o h1 h14 ho hstrict => exec_ofsQ_rows h1 h14 ho hstrict rfl,
    fun o more h1 h14 ho hr => exec_ofsQ_of_ok h1 h14 (fieldOffset_of_readsBelow ho hr),
    fun o g more k h1 hlt h14 ho hd hr hfail => exec_ofsQ_of_error (by omega) h14
      (fieldOffset_of_fieldFails ho h1 hlt h14 hd hr hfail),
    fun h1 h14 ho => exec_ofsQ_of_error (k := .sizeInvalid) h1 h14 (by simp only [fieldOffset, ho]),
    exec_ofsQ_of_outside⟩
  case lowest =>
    obtain ⟨rest, hbytes, -⟩ := fspecParse_ok ho
    have hlen : s.validBytes.length - (s.validBytes.drop o.length).length = o.length := by
      rw [hbytes, List.drop_left, List.length_append, Nat.add_sub_cancel]
    have hoffset := fieldOffset_of_readsBelow (p := s.params) ho (readsBelow_of_lowest ho hlow)
    rw [hlen] at hoffset
    exact exec_ofsQ_of_ok h1 h14 hoffset

/-! ### In a record that decodes -/

/-- OFS.Q walks over fields that read (43_record_engine.md R174). -/
theorem offsetWalk_of_decodeFields_ok {p : Config.Params} {o rest : List Byte} {gs : List Nat} {acc rec : Record}
    {n m : Nat} (h : decodeFields p o gs rest acc n = .ok (rec, m)) : offsetWalk p o gs rest n = .ok m := by
  induction gs generalizing rest acc n with
  | nil =>
    cases h
    rfl
  | cons g gs ih =>
    cases hd : declared o g with
    | false =>
      rw [decodeFields_cons_undeclared gs acc n hd] at h
      simpa only [offsetWalk, hd, Bool.false_eq_true, if_false] using ih h
    | true =>
      cases hfld : Field.ofFrn g with
      | none =>
        rw [decodeFields_cons_noCodec gs acc n hd hfld] at h
        cases h
      | some fld =>
        cases hat : fieldAt p fld rest with
        | error k =>
          rw [decodeFields_cons_error gs acc n hd hfld hat] at h
          cases h
        | ok d =>
          obtain ⟨v, size⟩ := d
          obtain ⟨-, -, -, -, -, -, hsize⟩ := fieldAt_ok hat
          rw [decodeFields_cons_ok gs acc n hd hfld hat] at h
          simpa only [offsetWalk, hd, if_true, hfld, hsize] using ih h

theorem decodeFields_append_ok {p : Config.Params} {o rest : List Byte} {fs gs : List Nat} {acc rec : Record}
    {n m : Nat} (h : decodeFields p o (fs ++ gs) rest acc n = .ok (rec, m)) :
    ∃ mid i, decodeFields p o fs rest acc n = .ok (mid, i) ∧
      decodeFields p o gs (rest.drop (i - n)) mid i = .ok (rec, m) := by
  rw [decodeFields_append] at h
  split at h
  · cases h
  · exact ⟨_, _, ‹_›, h⟩

/-- Every value the loop reads belongs to an FRN of the loop. -/
theorem Reads.frn_mem {p : Config.Params} {o rest : List Byte} {fs : List Nat} {vs : List FieldValue}
    (h : Reads p o fs rest vs) {v : FieldValue} (hv : v ∈ vs) : v.field.frn ∈ fs := by
  have hmem : some v.field ∈ (fs.filter (declared o)).map Field.ofFrn :=
    h.fields ▸ List.mem_map_of_mem (f := fun v => some v.field) hv
  obtain ⟨g, hg, hfield⟩ := List.mem_map.1 hmem
  exact Field.eq_frn_of_ofFrn hfield ▸ List.mem_of_mem_filter hg

/-- Values of the declared FRNs stand in ascending order. -/
theorem fields_sublist_codecFields {o : List Byte} {vs : List FieldValue}
    (h : (allFrns.filter (declared o)).map Field.ofFrn = vs.map fun v => some v.field) :
    (vs.map FieldValue.field).Sublist codecFields := by
  have hfields : (allFrns.filter (declared o)).filterMap Field.ofFrn = vs.map FieldValue.field := by
    simpa [List.filterMap_map, Function.comp_def] using congrArg (List.filterMap id) h
  rw [← hfields, ← allFrns_fields]
  exact List.filter_sublist.filterMap _

theorem Record.sizeBelow_eq (rec : Record) (f : Nat) :
    rec.sizeBelow f = ((rec.values.filter (·.field.frn < f)).map FieldValue.wireSize).sum := by
  have key : ∀ l : List Field, (l.filter (·.frn < f)).filterMap rec.get =
      (l.filterMap rec.get).filter (·.field.frn < f) := by
    intro l
    induction l with
    | nil => rfl
    | cons x l ih =>
      rw [List.filter_cons, List.filterMap_cons]
      cases hx : rec.get x with
      | none =>
        split
        · rw [List.filterMap_cons, hx, ih]
        · exact ih
      | some v =>
        obtain rfl := Record.get_field hx
        simp only [List.filter_cons]
        split
        · rw [List.filterMap_cons, hx, ih]
        · exact ih
  rw [Record.sizeBelow, key, Record.values]

/-- Reading the fields below f and then the others, the first stretch takes what the record holds below f
(43_record_engine.md R175). -/
theorem offsetWalk_of_recDec {p : Config.Params} {o bs : List Byte} {rec : Record} {n f : Nat} (h1 : 1 ≤ f)
    (h14 : f ≤ 14) (ho : fspecParse bs = .ok o) (h : recDec p bs = .ok (rec, n)) :
    offsetWalk p o (allFrns.filter (· < f)) (bs.drop o.length) o.length = .ok (o.length + rec.sizeBelow f) := by
  have hsplit := allFrns_split h1 h14
  rw [recDec_of_parsed ho, hsplit] at h
  obtain ⟨mid, i, hbelow, habove⟩ := decodeFields_append_ok h
  rw [offsetWalk_of_decodeFields_ok hbelow]
  obtain ⟨lows, hlows, rfl, rfl⟩ := decodeFields_ok hbelow
  obtain ⟨highs, hhighs, hrec, -⟩ := decodeFields_ok habove
  have hvalues : rec.values = lows ++ highs := by
    have hputAll : rec = Record.empty.putAll (lows ++ highs) := by
      rw [hrec, Record.putAll, Record.putAll, Record.putAll, List.foldl_append]
    rw [hputAll]
    refine Record.values_putAll (fields_sublist_codecFields (o := o) ?_)
    rw [hsplit, List.filter_append, List.map_append, hlows.fields, hhighs.fields, List.map_append]
  have hlow : lows.filter (·.field.frn < f) = lows :=
    List.filter_eq_self.2 fun v hv => (List.mem_filter.1 (hlows.frn_mem hv)).2
  have hhigh : highs.filter (·.field.frn < f) = [] := by
    refine List.filter_eq_nil_iff.2 fun v hv => ?_
    rcases List.mem_cons.1 (hhighs.frn_mem hv) with heq | hmem
    · simp [heq]
    · simpa using (of_decide_eq_true (List.mem_filter.1 hmem).2).le
  rw [Record.sizeBelow_eq, hvalues, List.filter_append, hlow, hhigh, List.append_nil]

/-- Settles O46: the walk over the FRNs below f takes the sizes of what REC.DEC reads there. -/
theorem offsetQueryIsTheSumOfSizes : Obligations.OffsetQueryIsTheSumOfSizes := by
  intro s f o rec n h1 h14 ho h
  exact exec_ofsQ_of_ok h1 h14 (fieldOffset_of_offsetWalk ho (offsetWalk_of_recDec h1 h14 ho h))

end Sys2Proof.Machine

/-! ## The message engine -/

namespace Sys2Proof.Machine

/-! ### The header of a message -/

theorem headerCheck_of_length_ne {l : Half} {n : Nat} (h : l.toNat ≠ n) (c : Byte) :
    headerCheck c l n = .error .sizeInvalid := by
  rw [headerCheck, if_pos h, ite_self]

theorem headerCheck_of_category_ne {c : Byte} {l : Half} {n : Nat} (h3 : 3 ≤ n) (hl : l.toNat = n) (h : c ≠ 34#8) :
    headerCheck c l n = .error .categoryInvalid :=
  (if_neg (Nat.not_lt.2 h3)).trans ((if_neg (not_not.2 hl)).trans (if_pos h))

theorem headerCheck_ok_iff {c : Byte} {l : Half} {n : Nat} :
    headerCheck c l n = .ok () ↔ 3 ≤ n ∧ l.toNat = n ∧ c = 34#8 := by
  rcases headerCheck_cases c l n with ⟨h, e⟩ | ⟨-, h, e⟩ | ⟨-, -, h, e⟩ | ⟨h3, hl, hc, e⟩
  · simp [e, Nat.not_le.2 h]
  · simp [e, h]
  · simp [e, h]
  · exact iff_of_true e ⟨h3, hl, hc⟩

theorem hdrEnc_ofNat (c : Byte) {n : Nat} (h : n ≤ 65535) :
    hdrEnc c (BitVec.ofNat 16 n) = [c, BitVec.ofNat 8 (n / 256), BitVec.ofNat 8 n] := by
  rw [hdrEnc, BitVec.toNat_ofNat, Nat.mod_eq_of_lt (Nat.lt_succ_of_le h), beBytes_two]

theorem ofNat_eq_of_toNat_eq {l : Half} {n : Nat} (h : l.toNat = n) : BitVec.ofNat 16 n = l := by
  rw [← h, BitVec.ofNat_toNat, BitVec.setWidth_eq]

/-- The two length octets of a header, read as 40_header.md R101 does. -/
theorem length_octets {n : Nat} (h : n ≤ 65535) :
    (BitVec.ofNat 8 (n / 256)).toNat * 256 + (BitVec.ofNat 8 n).toNat = n := by
  simp only [BitVec.toNat_ofNat]
  omega

theorem length_hdrEnc_append (c : Byte) (l : Half) (body : List Byte) :
    (hdrEnc c l ++ body).length = 3 + body.length := by rw [List.length_append, length_hdrEnc]

/-- Octets decode to a header iff they begin with its octets (40_header.md R101). -/
theorem hdrDec_ok_iff {bs : List Byte} {c : Byte} {l : Half} :
    hdrDec bs = .ok (c, l) ↔ ∃ more, bs = hdrEnc c l ++ more := by
  refine ⟨fun h => ?_, fun ⟨more, e⟩ => e ▸ hdrDec_hdrEnc c l more⟩
  match bs, h with
  | a :: x :: y :: more, h =>
    rw [hdrDec_cons] at h
    cases h
    have hx := x.isLt
    have hy := y.isLt
    refine ⟨more, ?_⟩
    rw [hdrEnc_ofNat _ (by omega), show (x.toNat * 256 + y.toNat) / 256 = x.toNat by omega, BitVec.ofNat_toNat]
    simp [BitVec.ofNat_add, BitVec.ofNat_mul]
  | [], h | [_], h | [_, _], h => cases h

/-- The header is what stands before the records: its octets are the first three. -/
theorem eq_hdrEnc_append_drop {bs : List Byte} {c : Byte} {l : Half} (h : hdrDec bs = .ok (c, l)) :
    bs = hdrEnc c l ++ bs.drop 3 := by
  obtain ⟨more, rfl⟩ := hdrDec_ok_iff.1 h
  rw [List.drop_left' (length_hdrEnc c l)]

/-! ### One transition of the decoder (44_message_engine.md R194) -/

/-- The decoder behind the header of a message of length `l`, before the first record. -/
def msgFirstRecord (l : Half) : MsgWalk := { ph := .readRecord, cur := 3, cat := 34#8, len := l, recs := [] }

section
variable {p : Config.Params} {buf bs : List Byte} {m : MsgWalk} {k : ErrorKind} {l : Half}

theorem msgStep_msgStart_of_header (hdr : hdrDec buf = .ok (34#8, l)) (hlen : l.toNat = buf.length) :
    msgStep p buf msgStart = msgFirstRecord l := by
  have h3 : 3 ≤ buf.length := by
    rw [eq_hdrEnc_append_drop hdr, length_hdrEnc_append]
    omega
  simp only [msgStep, msgStart, hdr, headerCheck_ok_iff.2 ⟨h3, hlen, rfl⟩, msgFirstRecord, Config.hdrLen]

theorem msgStep_record {rec : Record} {n : Nat} (hp : m.ph = .readRecord) (hc : m.cur < m.len.toNat)
    (h : recDec p (buf.drop m.cur) = .ok (rec, n)) :
    msgStep p buf m = { m with cur := m.cur + n, recs := m.recs ++ [rec] } := by
  simp only [msgStep, hp, if_pos hc, h]

theorem msgStep_record_error (hp : m.ph = .readRecord) (hc : m.cur < m.len.toNat)
    (h : recDec p (buf.drop m.cur) = .error k) : msgStep p buf m = { m with ph := .failed k } := by
  simp only [msgStep, hp, if_pos hc, h]

theorem msgStep_done (hp : m.ph = .readRecord) (hc : ¬ m.cur < m.len.toNat) :
    msgStep p buf m = { m with ph := .done } := by
  simp only [msgStep, hp, if_neg hc]

/-! ### The walk over the records -/

theorem msgRun_succ (p : Config.Params) (buf : List Byte) (n : Nat) (m : MsgWalk) :
    msgRun p buf (n + 1) m = msgRun p buf n (msgStep p buf m) := rfl

/-- Octets remain before the declared length iff the cursor is below it. -/
theorem cur_lt_len_iff (hl : m.len.toNat = buf.length) : m.cur < m.len.toNat ↔ buf.drop m.cur ≠ [] := by
  rw [hl, ne_eq, List.drop_eq_nil_iff, Nat.not_le]

/-- Records that read are read to the last octet, in one transition each and one to end. -/
theorem msgRun_of_recordsRead {recs : List Record} (h : RecordsRead p bs recs) (hp : m.ph = .readRecord)
    (hl : m.len.toNat = buf.length) (hd : buf.drop m.cur = bs) {n : Nat} (hn : bs.length + 1 ≤ n) :
    ∃ c, msgRun p buf n m = { m with ph := .done, cur := c, recs := m.recs ++ recs } := by
  induction h generalizing m n with
  | ended =>
    obtain ⟨n, rfl⟩ := Nat.exists_eq_add_of_le' (show 1 ≤ n from hn)
    have hc : ¬ m.cur < m.len.toNat := by rw [cur_lt_len_iff hl, not_not, hd]
    exact ⟨m.cur, by rw [List.append_nil, msgRun_succ, msgStep_done hp hc, msgRun_ended (.inl rfl)]⟩
  | @record bs rec size recs ne read rest ih =>
    obtain ⟨hpos, hle⟩ := recDec_consumes read
    obtain ⟨n, rfl⟩ := Nat.exists_eq_add_of_le' (show 1 ≤ n by omega)
    subst hd
    rw [msgRun_succ, msgStep_record hp ((cur_lt_len_iff hl).2 ne) read]
    obtain ⟨c, hc⟩ := ih (m := { m with cur := m.cur + size, recs := m.recs ++ [rec] }) (n := n) hp hl
      List.drop_drop.symm (by rw [List.length_drop]; omega)
    exact ⟨c, by rw [hc, List.append_assoc, List.singleton_append]⟩

/-- The first record that fails ends the walk with its error. -/
theorem msgRun_of_recordsFail (h : RecordsFail p bs k) (hp : m.ph = .readRecord)
    (hl : m.len.toNat = buf.length) (hd : buf.drop m.cur = bs) {n : Nat} (hn : bs.length ≤ n) :
    (msgRun p buf n m).ph = .failed k := by
  induction h generalizing m n with
  | here ne failed =>
    obtain ⟨n, rfl⟩ := Nat.exists_eq_add_of_le' (Nat.le_trans (List.length_pos_of_ne_nil ne) hn)
    subst hd
    rw [msgRun_succ, msgStep_record_error hp ((cur_lt_len_iff hl).2 ne) failed, msgRun_ended (.inr ⟨_, rfl⟩)]
  | @later bs rec size k ne read rest ih =>
    obtain ⟨hpos, hle⟩ := recDec_consumes read
    obtain ⟨n, rfl⟩ := Nat.exists_eq_add_of_le' (show 1 ≤ n by omega)
    subst hd
    rw [msgRun_succ, msgStep_record hp ((cur_lt_len_iff hl).2 ne) read]
    exact ih (m := { m with cur := m.cur + size, recs := m.recs ++ [rec] }) hp hl List.drop_drop.symm
      (by rw [List.length_drop]; omega)

/-- Octets are records to the last octet, or one of them fails: every record takes an octet at least. -/
theorem recordsRead_or_recordsFail (p : Config.Params) (bs : List Byte) :
    (∃ recs, RecordsRead p bs recs) ∨ ∃ k, RecordsFail p bs k := by
  induction hn : bs.length using Nat.strong_induction_on generalizing bs with
  | _ n ih =>
    subst hn
    by_cases ne : bs = []
    · exact .inl ⟨[], ne ▸ .ended⟩
    · cases read : recDec p bs with
      | error k => exact .inr ⟨k, .here ne read⟩
      | ok d =>
        obtain ⟨rec, size⟩ := d
        obtain ⟨hpos, hle⟩ := recDec_consumes read
        obtain ⟨recs, h⟩ | ⟨k, h⟩ := ih _ (by rw [List.length_drop]; omega) (bs.drop size) rfl
        · exact .inl ⟨rec :: recs, .record ne read h⟩
        · exact .inr ⟨k, .later ne read h⟩

/-! ### The decoder whole (44_message_engine.md R192) -/

theorem msgDec_of_failed (h : (msgRun p buf (buf.length + 2) msgStart).ph = .failed k) :
    msgDec p buf = .error k := by
  simp only [msgDec, h]

theorem msgDec_of_done {c : Nat} {recs : List Record} (h : msgRun p buf (buf.length + 2) msgStart =
    { ph := .done, cur := c, cat := 34#8, len := l, recs := recs }) : msgDec p buf = .ok (34#8, l, recs) := by
  simp only [msgDec, h]

/-- A header that does not decode or fails a test ends the walk in its first transition. -/
theorem msgDec_of_msgStep_failed (h : msgStep p buf msgStart = { msgStart with ph := .failed k }) :
    msgDec p buf = .error k := by
  refine msgDec_of_failed ?_
  rw [msgRun_succ, h, msgRun_ended (.inr ⟨_, rfl⟩)]

theorem msgDec_of_hdrDec_error (h : hdrDec buf = .error k) : msgDec p buf = .error k :=
  msgDec_of_msgStep_failed (by simp only [msgStep, msgStart, h])

theorem msgDec_of_headerCheck_error {c : Byte} (hdr : hdrDec buf = .ok (c, l))
    (h : headerCheck c l buf.length = .error k) : msgDec p buf = .error k :=
  msgDec_of_msgStep_failed (by simp only [msgStep, msgStart, hdr, h])

theorem msgDec_of_recordsRead {recs : List Record} (hdr : hdrDec buf = .ok (34#8, l)) (hlen : l.toNat = buf.length)
    (h : RecordsRead p (buf.drop 3) recs) : msgDec p buf = .ok (34#8, l, recs) := by
  obtain ⟨c, hrun⟩ := msgRun_of_recordsRead (m := msgFirstRecord l) (n := buf.length + 1) h rfl hlen rfl
    (by rw [List.length_drop]; omega)
  refine msgDec_of_done (c := c) ?_
  rw [msgRun_succ, msgStep_msgStart_of_header hdr hlen, hrun]
  rfl

theorem msgDec_of_recordsFail (hdr : hdrDec buf = .ok (34#8, l)) (hlen : l.toNat = buf.length)
    (h : RecordsFail p (buf.drop 3) k) : msgDec p buf = .error k := by
  refine msgDec_of_failed ?_
  rw [msgRun_succ, msgStep_msgStart_of_header hdr hlen]
  exact msgRun_of_recordsFail h rfl hlen rfl (by rw [List.length_drop]; omega)

/-- What decodes begins with its header: category 34 and its own length. -/
theorem hdrDec_of_msgDec_ok {d : Byte × Half × List Record} (h : msgDec p buf = .ok d) :
    hdrDec buf = .ok (34#8, BitVec.ofNat 16 buf.length) := by
  cases hdr : hdrDec buf with
  | error k => rw [msgDec_of_hdrDec_error hdr] at h; cases h
  | ok e =>
    obtain ⟨c, l⟩ := e
    cases hcheck : headerCheck c l buf.length with
    | error k => rw [msgDec_of_headerCheck_error hdr hcheck] at h; cases h
    | ok _ =>
      obtain ⟨-, hlen, rfl⟩ := headerCheck_ok_iff.1 hcheck
      rw [ofNat_eq_of_toNat_eq hlen]

end

/-- Settles O53: from its start the walk ends, and the terminal phases stay. -/
theorem messageWalkEndsInATerminalPhase : Obligations.MessageWalkEndsInATerminalPhase := by
  intro p buf
  have hends := msgRun_start p buf
  exact ⟨hends, msgStep_ended (hends.symm.imp_left And.left)⟩

/-! ### MSG.DEC -/

theorem exec_msgDec (s : State) : exec .msgDec s =
    conclude s (msgDec s.params s.validBytes) fun d => (s.setHeader d.1 d.2.1).setRs d.2.2 := rfl

theorem exec_msgDec_of_ok {s : State} {d : Byte × Half × List Record} (h : msgDec s.params s.validBytes = .ok d) :
    exec .msgDec s = .next { s.finish 0 with hcat := d.1, hlen := d.2.1, rs := d.2.2 } := by
  rw [exec_msgDec, h, conclude_ok]
  rfl

theorem exec_msgDec_of_error {s : State} {k : ErrorKind} (h : msgDec s.params s.validBytes = .error k) :
    exec .msgDec s = .next (s.finish k.code) := by
  rw [exec_msgDec, h, conclude_error]

/-- What a MSG.DEC that ends with STATUS 0 has done. -/
theorem msgDec_of_exec {s t : State} (h : exec .msgDec s = .next t) (hstatus : t.status = 0) :
    ∃ d, msgDec s.params s.validBytes = .ok d ∧
      t = { s.finish 0 with hcat := d.1, hlen := d.2.1, rs := d.2.2 } := by
  rcases conclude_cases h with ⟨d, hdec, e⟩ | ⟨k, -, rfl⟩
  · exact ⟨d, hdec, e⟩
  · exact absurd hstatus k.code_ne_zero

theorem State.validBytes_of_three_le {s : State} (h : 3 ≤ s.blen.toNat) : ∃ more, s.validBytes =
    Memory.octet s.buf 0 :: Memory.octet s.buf 1 :: Memory.octet s.buf 2 :: more := by
  have hv := State.validBytes_of_blen_eq_succ (s := s) (n := s.blen.toNat - 3 + 1 + 1) (by omega)
  rw [List.range_succ_eq_map, List.map_cons, List.range_succ_eq_map] at hv
  exact ⟨_, hv⟩

/-- The header of a buffer of three valid octets or more. -/
theorem State.hdrDec_validBytes {s : State} (h : 3 ≤ s.blen.toNat) : hdrDec s.validBytes =
    .ok (Memory.octet s.buf 0,
      BitVec.ofNat 16 ((Memory.octet s.buf 1).toNat * 256 + (Memory.octet s.buf 2).toNat)) := by
  obtain ⟨more, hv⟩ := State.validBytes_of_three_le h
  rw [hv, hdrDec_cons]

/-- The length that two octets declare is the number they are read as. -/
theorem toNat_ofNat_pair (a b : Byte) :
    (BitVec.ofNat 16 (a.toNat * 256 + b.toNat)).toNat = a.toNat * 256 + b.toNat := by
  have ha := a.isLt
  have hb := b.isLt
  rw [BitVec.toNat_ofNat, Nat.mod_eq_of_lt (by omega)]

/-- Settles O52: the header's tests in their order, and then the records, which read or fail. -/
theorem msgDecEveryOutcome : Obligations.MsgDecEveryOutcome := by
  intro s declaredLen
  have hsize : s.validBytes.length = s.blen.toNat := s.validBytes_length
  have hdeclared : (BitVec.ofNat 16 declaredLen).toNat = declaredLen := toNat_ofNat_pair _ _
  refine ⟨fun h => ?short, fun h3 hne => ?length, fun h3 heq hcat => ?category, fun h3 heq hcat => ?records⟩
  case short => exact exec_msgDec_of_error (msgDec_of_hdrDec_error (hdrDec_short (hsize ▸ h)))
  case length =>
    have hcheck := headerCheck_of_length_ne (hsize ▸ hdeclared ▸ hne) (Memory.octet s.buf 0)
    exact exec_msgDec_of_error (msgDec_of_headerCheck_error (State.hdrDec_validBytes h3) hcheck)
  case category =>
    have hcheck := headerCheck_of_category_ne (hsize ▸ h3) (hdeclared.trans (heq.trans hsize.symm)) hcat
    exact exec_msgDec_of_error (msgDec_of_headerCheck_error (State.hdrDec_validBytes h3) hcheck)
  case records =>
    have hdr : hdrDec s.validBytes = .ok (34#8, s.blen) := by
      rw [State.hdrDec_validBytes h3, hcat, ofNat_eq_of_toNat_eq heq.symm]
      rfl
    exact ⟨fun recs h => exec_msgDec_of_ok (msgDec_of_recordsRead hdr hsize.symm h),
      fun k h => exec_msgDec_of_error (msgDec_of_recordsFail hdr hsize.symm h), recordsRead_or_recordsFail _ _⟩

/-- Settles O50: the octets of an encoded message decode to its records, quantised. -/
theorem msgDecInvertsMsgEnc : Obligations.MsgDecInvertsMsgEnc := by
  rintro s recs bs h rfl
  exact exec_msgDec_of_ok (msgDec_msgEnc h).1

/-! ### MSG.ENC -/

/-- What a message encodes to: the header of category 34 with the total length, then the records. -/
theorem msgEnc_ok_iff {p : Config.Params} {c : Byte} {recs : List Record} {bs : List Byte} :
    msgEnc p c recs = .ok bs ↔ c = 34#8 ∧ ∃ body, joinWire (recs.map (recEnc p)) = .ok body ∧
      3 + body.length ≤ 65535 ∧ bs = hdrEnc 34#8 (BitVec.ofNat 16 (3 + body.length)) ++ body := by
  constructor
  · intro h
    rcases msgEnc_cases p c recs with ⟨-, e⟩ | ⟨-, k, -, e⟩ | ⟨-, body, -, -, e⟩ | ⟨rfl, body, hbody, hle, e⟩ <;>
      rw [e] at h <;> cases h
    exact ⟨rfl, body, hbody, hle, rfl⟩
  · rintro ⟨rfl, body, hbody, hle, rfl⟩
    simp [msgEnc, Config.cat, hbody, Config.hdrLen, Config.maxMessage, Nat.not_lt.2 hle]

theorem msgEnc_of_records_error {p : Config.Params} {recs : List Record} {k : ErrorKind}
    (h : joinWire (recs.map (recEnc p)) = .error k) : msgEnc p 34#8 recs = .error k := by
  simp [msgEnc, Config.cat, h]

theorem msgEnc_of_too_long {p : Config.Params} {recs : List Record} {body : List Byte}
    (h : joinWire (recs.map (recEnc p)) = .ok body) (hlt : 65535 < 3 + body.length) :
    msgEnc p 34#8 recs = .error .sizeInvalid := by
  simp [msgEnc, Config.cat, h, Config.hdrLen, Config.maxMessage, hlt]

theorem exec_msgEnc_of_ok {s : State} {bs : List Byte} (h : msgEnc s.params s.hcat s.rs = .ok bs) :
    exec .msgEnc s = .next (((s.storeBuf bs).setHlen bs.length).finish 0) := by
  rw [exec, execMsgEnc, h, conclude_ok]

theorem exec_msgEnc_of_error {s : State} {k : ErrorKind} (h : msgEnc s.params s.hcat s.rs = .error k) :
    exec .msgEnc s = .next (s.finish k.code) := by
  rw [exec, execMsgEnc, h, conclude_error]

/-- The message in BUF: the category, the two octets of the length, the records (44_message_engine.md R191). -/
theorem exec_msgEnc_of_body {s : State} {body : List Byte} (hcat : s.hcat = 34#8)
    (hbody : joinWire (s.rs.map (recEnc s.params)) = .ok body) (hle : 3 + body.length ≤ 65535) :
    ∃ t, exec .msgEnc s = .next t ∧
      t = { s.finish 0 with buf := t.buf, blen := BitVec.ofNat 16 (3 + body.length),
                            hlen := BitVec.ofNat 16 (3 + body.length) } ∧
      ∀ a, Memory.octet t.buf a = (34#8 :: BitVec.ofNat 8 ((3 + body.length) / 256) ::
        BitVec.ofNat 8 (3 + body.length) :: body).getD a (Memory.octet s.buf a) := by
  refine ⟨_, exec_msgEnc_of_ok (msgEnc_ok_iff.2 ⟨hcat, body, hbody, hle, rfl⟩), ?frame, fun a => ?octets⟩
  case frame =>
    simp only [State.storeBuf, length_hdrEnc_append]
    rfl
  case octets =>
    rw [hdrEnc_ofNat _ hle]
    exact Memory.octet_writeBytes_zero _ s.buf a

/-- What a MSG.ENC that ends with STATUS 0 has done. -/
theorem msgEnc_of_exec {s t : State} (h : exec .msgEnc s = .next t) (hstatus : t.status = 0) :
    ∃ bs, msgEnc s.params s.hcat s.rs = .ok bs ∧ t = ((s.storeBuf bs).setHlen bs.length).finish 0 := by
  rcases conclude_cases h with ⟨bs, henc, e⟩ | ⟨k, -, rfl⟩
  · exact ⟨bs, henc, e⟩
  · exact absurd hstatus k.code_ne_zero

/-- The first string that is missing decides the error (60_exceptions.md R208 d). -/
theorem joinWire_append_error {done rest : List (Except ErrorKind (List Byte))} {k : ErrorKind}
    (h : ∀ r ∈ done, ∃ a, r = .ok a) : joinWire (done ++ .error k :: rest) = .error k := by
  induction done with
  | nil => rfl
  | cons r done ih =>
    obtain ⟨⟨a, rfl⟩, hdone⟩ := List.forall_mem_cons.1 h
    exact joinWire_cons_error.2 (.inr ⟨a, rfl, ih hdone⟩)

/-- Records of accepted values all encode. -/
theorem recEnc_map_ok {p : Config.Params} {recs : List Record} (h : ∀ rec ∈ recs, rec.Accepted p) :
    ∀ r ∈ recs.map (recEnc p), ∃ a, r = .ok a :=
  List.forall_mem_map.2 fun rec hrec => (recEnc_ok_iff p rec).2 (h rec hrec)

theorem exec_msgEnc_of_record_error {s : State} {done rest : List Record} {rec : Record} {k : ErrorKind}
    (hcat : s.hcat = 34) (hrs : s.rs = done ++ rec :: rest) (hdone : ∀ r ∈ done, r.Accepted s.params)
    (h : recEnc s.params rec = .error k) : exec .msgEnc s = .next (s.finish k.code) := by
  have hjoin : joinWire (s.rs.map (recEnc s.params)) = .error k := by
    rw [hrs, List.map_append, List.map_cons, h, joinWire_append_error (recEnc_map_ok hdone)]
  exact exec_msgEnc_of_error (hcat ▸ msgEnc_of_records_error hjoin)

/-- Settles O48: the category first, then the records one after another, then the length. -/
theorem msgEncWritesTheMessage : Obligations.MsgEncWritesTheMessage := by
  refine fun s => ⟨fun hcat => ?category, fun hcat hacc => ?accepted, fun done rec rest hcat hrs hdone =>
    ⟨fun ⟨m, hm, hrefused⟩ => ?refused, fun hnot hmty => ?outOfRange⟩⟩
  case category => exact exec_msgEnc_of_error (k := .categoryInvalid) (if_pos hcat)
  case accepted =>
    obtain ⟨body, hbody⟩ := joinWire_ok_iff.2 (recEnc_map_ok hacc)
    refine ⟨body, hbody, fun hle => ?fits, fun hlt => ?tooLong⟩
    case fits => exact exec_msgEnc_of_body hcat hbody hle
    case tooLong => exact exec_msgEnc_of_error (k := .sizeInvalid) (hcat ▸ msgEnc_of_too_long hbody hlt)
  case refused => exact exec_msgEnc_of_record_error hcat hrs hdone (recEnc_of_mty_refused hm hrefused)
  case outOfRange =>
    cases henc : recEnc s.params rec with
    | ok bs => exact absurd ((recEnc_ok_iff s.params rec).1 ⟨bs, henc⟩) hnot
    | error k =>
      obtain rfl := recEnc_error_of_mty_accepted henc hmty
      exact exec_msgEnc_of_record_error hcat hrs hdone henc

/-- Settles O49: the octets written begin with the header of the total length, and each record takes an octet. -/
theorem messageLengthInvariant : Obligations.MessageLengthInvariant := by
  intro s t h hstatus
  obtain ⟨bs, henc, -⟩ := msgEnc_of_exec h hstatus
  obtain ⟨hcat, body, hbody, hle, -⟩ := msgEnc_ok_iff.1 henc
  obtain ⟨u, hexec, hframe, hoctets⟩ := exec_msgEnc_of_body hcat hbody hle
  obtain rfl : t = u := Host.Outcome.next.inj (h.symm.trans hexec)
  have hblen : t.blen = BitVec.ofNat 16 (3 + body.length) := congrArg State.blen hframe
  have htotal : t.blen.toNat = 3 + body.length := by
    rw [hblen, BitVec.toNat_ofNat, Nat.mod_eq_of_lt (Nat.lt_succ_of_le hle)]
  have hcount := joinWire_length_ge hbody
  refine ⟨(congrArg State.hlen hframe).trans hblen.symm, (congrArg State.hcat hframe).trans hcat, hoctets 0, ?_,
    by omega, by omega⟩
  rw [hoctets 1, hoctets 2, htotal]
  exact length_octets hle

/-! ### The two commands one after the other -/

/-- A message with canonical chains encodes to the octets it was decoded from (44_message_engine.md R195). -/
theorem msgEnc_msgDec_of_canonical {p : Config.Params} {bs : List Byte} {d : Byte × Half × List Record}
    (h : msgDec p bs = .ok d) (hc : CanonicalRecords p (bs.drop 3)) :
    msgEnc p 34#8 d.2.2 = .ok bs ∧ d = (34#8, BitVec.ofNat 16 bs.length, d.2.2) := by
  obtain ⟨recs, hjoin, hquantised⟩ := hc.encode
  have hbs := eq_hdrEnc_append_drop (hdrDec_of_msgDec_ok h)
  have hle : bs.length ≤ 65535 := by
    obtain ⟨-, hlen, -⟩ := msgDec_ok h
    exact hlen ▸ Nat.le_of_lt_succ d.2.1.isLt
  have hlen : 3 + (bs.drop 3).length = bs.length := by
    conv_rhs => rw [hbs, length_hdrEnc_append]
  have henc : msgEnc p 34#8 recs = .ok bs :=
    msgEnc_ok_iff.2 ⟨rfl, bs.drop 3, hjoin, hlen.trans_le hle, hlen ▸ hbs⟩
  have hdec := (msgDec_msgEnc henc).1
  rw [h, hquantised] at hdec
  cases hdec
  exact ⟨henc, rfl⟩

/-- Settles O51: MSG.DEC reads the octets that MSG.ENC wrote, and MSG.ENC writes those that MSG.DEC read, in the places
it read them from. -/
theorem msgDecAfterMsgEncKeepsTheMessage : Obligations.MsgDecAfterMsgEncKeepsTheMessage := by
  refine ⟨fun s t h hstatus => ?decodes, fun s t h hstatus hc => ?encodes⟩
  case decodes =>
    obtain ⟨bs, henc, rfl⟩ := msgEnc_of_exec h hstatus
    obtain ⟨hcat, -⟩ := msgEnc_ok_iff.1 henc
    rw [hcat] at henc
    obtain ⟨-, hle⟩ := msgDec_msgEnc henc
    exact ⟨_, msgDecInvertsMsgEnc _ s.rs bs henc (s.storeBuf_validBytes bs hle), rfl, hcat.symm, rfl, rfl, rfl⟩
  case encodes =>
    obtain ⟨d, hdec, rfl⟩ := msgDec_of_exec h hstatus
    obtain ⟨henc, hd⟩ := msgEnc_msgDec_of_canonical hdec hc
    obtain ⟨-, hle⟩ := msgDec_msgEnc henc
    have hblen : BitVec.ofNat 16 s.validBytes.length = s.blen := ofNat_eq_of_toNat_eq s.validBytes_length.symm
    generalize d.2.2 = recs at hd henc
    subst hd
    refine ⟨_, exec_msgEnc_of_ok henc, rfl, State.storeBuf_validBytes _ _ hle, hblen, rfl, rfl, rfl, fun a => ?_⟩
    have := s.octet_writeBytes_validBytes s.validBytes.length a
    rwa [List.take_length] at this

end Sys2Proof.Machine

/-! ## How a command can end -/

namespace Sys2Proof.Machine

/-- Settles O6: the step takes the head of the queue where there is one. -/
theorem stepWaitsOrTakesTheHostWrite : Obligations.StepWaitsOrTakesTheHostWrite :=
  fun _ => ⟨step_of_pending_nil, fun _ _ => step_of_pending_write⟩

/-! ### The kinds the engines answer -/

theorem hdrDec_error {bs : List Byte} {k : ErrorKind} (h : hdrDec bs = .error k) : k = .sizeInvalid := by
  unfold hdrDec at h
  split at h <;> cases h
  rfl

theorem recEnc_error_kind {p : Config.Params} {rec : Record} {k : ErrorKind} (h : recEnc p rec = .error k) :
    k = .rangeInvalid ∨ (k = .itemUnsupported ∧ p.mtStrict = true) := by
  obtain ⟨v, -, hwire⟩ := List.mem_map.1 (mem_of_joinWire_error (recEnc_error.1 h))
  obtain ⟨hk, hstrict, -⟩ | ⟨hk, -⟩ := toWire_error hwire
  · exact .inr ⟨hk, hstrict⟩
  · exact .inl hk

theorem fieldOffset_error {p : Config.Params} {bs : List Byte} {f : Nat} {k : ErrorKind}
    (h : fieldOffset p bs f = .error k) : k = .sizeInvalid ∨ k = .itemUnsupported := by
  cases ho : fspecParse bs with
  | error e =>
    simp only [fieldOffset, ho] at h
    cases h
    exact .inl (fspecParse_error ho)
  | ok o =>
    rw [fieldOffset_of_parsed p f ho] at h
    cases hwalk : decodeFields (lenient p) o (allFrns.filter (· < f)) (bs.drop o.length) Record.empty o.length with
    | error e =>
      rw [hwalk] at h
      cases h
      exact decodeFields_error hwalk
    | ok d => rw [hwalk] at h; cases h

theorem msgEnc_error {p : Config.Params} {c : Byte} {recs : List Record} {k : ErrorKind}
    (h : msgEnc p c recs = .error k) :
    k = .sizeInvalid ∨ k = .categoryInvalid ∨ k = .rangeInvalid ∨ (k = .itemUnsupported ∧ p.mtStrict = true) := by
  rcases msgEnc_cases p c recs with ⟨-, e⟩ | ⟨-, k', hrecs, e⟩ | ⟨-, _, -, -, e⟩ | ⟨-, _, -, -, e⟩ <;>
    rw [e] at h <;> cases h
  · exact .inr (.inl rfl)
  · obtain ⟨rec, -, henc⟩ := List.mem_map.1 (mem_of_joinWire_error hrecs)
    exact .inr (.inr (recEnc_error_kind henc))
  · exact .inl rfl

theorem headerCheck_error {c : Byte} {l : Half} {n : Nat} {k : ErrorKind} (h : headerCheck c l n = .error k) :
    k = .sizeInvalid ∨ k = .categoryInvalid := by
  rcases headerCheck_cases c l n with ⟨-, e⟩ | ⟨-, -, e⟩ | ⟨-, -, -, e⟩ | ⟨-, -, -, e⟩ <;> rw [e] at h <;> cases h
  · exact .inl rfl
  · exact .inl rfl
  · exact .inr rfl

theorem recordsFail_kind {p : Config.Params} {bs : List Byte} {k : ErrorKind} (h : RecordsFail p bs k) :
    k = .sizeInvalid ∨ k = .itemUnsupported := by
  induction h with
  | here _ failed => exact recDec_error failed
  | later _ _ _ ih => exact ih

/-- The header fails in its size or its category, a record in its size or for what it declares. -/
theorem msgDec_error {p : Config.Params} {buf : List Byte} {k : ErrorKind} (h : msgDec p buf = .error k) :
    k = .sizeInvalid ∨ k = .categoryInvalid ∨ k = .itemUnsupported := by
  cases hdr : hdrDec buf with
  | error e =>
    rw [msgDec_of_hdrDec_error hdr] at h
    cases h
    exact .inl (hdrDec_error hdr)
  | ok d =>
    obtain ⟨c, l⟩ := d
    cases hcheck : headerCheck c l buf.length with
    | error e =>
      rw [msgDec_of_headerCheck_error hdr hcheck] at h
      cases h
      exact (headerCheck_error hcheck).imp_right .inl
    | ok _ =>
      obtain ⟨-, hlen, rfl⟩ := headerCheck_ok_iff.1 hcheck
      obtain ⟨recs, hread⟩ | ⟨e, hfail⟩ := recordsRead_or_recordsFail p (buf.drop 3)
      · rw [msgDec_of_recordsRead hdr hlen hread] at h
        cases h
      · rw [msgDec_of_recordsFail hdr hlen hfail] at h
        cases h
        exact (recordsFail_kind hfail).imp_right .inr

/-! ### The kinds of each command (60_exceptions.md R207) -/

/-- The rows of the table of 60_exceptions.md R207, and CommandInvalid of an operand that no legal word holds
(30_encoding.md R87). -/
inductive MayRaise (p : Config.Params) : Instr → ErrorKind → Prop
  | illegalOperand {i : Instr} (hwf : i.WellFormed = false) : MayRaise p i .commandInvalid
  | hdrDec : MayRaise p .hdrDec .sizeInvalid
  | fspecDec : MayRaise p .fspecDec .sizeInvalid
  | towEmpty (f : Field) : MayRaise p (towInstr f) .commandInvalid
  | towMty (strict : p.mtStrict = true) : MayRaise p .towMty .itemUnsupported
  | towRange {f : Field} (hf : f ∈ [Field.tod, .sec, .arp, .gpw, .pos]) : MayRaise p (towInstr f) .rangeInvalid
  | frwSize (f : Field) : MayRaise p (frwInstr f) .sizeInvalid
  | frwItem {f : Field} (hf : f = .scs ∨ f = .spm ∨ (f = .mty ∧ p.mtStrict = true)) :
      MayRaise p (frwInstr f) .itemUnsupported
  | recEnc {k : ErrorKind} (hk : k = .rangeInvalid ∨ (k = .itemUnsupported ∧ p.mtStrict = true)) : MayRaise p .recEnc k
  | recDec {k : ErrorKind} (hk : k = .sizeInvalid ∨ k = .itemUnsupported) : MayRaise p .recDec k
  | ofsQ (f : Byte) {k : ErrorKind} (hk : k = .sizeInvalid ∨ k = .itemUnsupported) : MayRaise p (.ofsQ f) k
  | msgEnc {k : ErrorKind} (hk : k = .sizeInvalid ∨ k = .categoryInvalid ∨ k = .rangeInvalid ∨
      (k = .itemUnsupported ∧ p.mtStrict = true)) : MayRaise p .msgEnc k
  | msgDec {k : ErrorKind} (hk : k = .sizeInvalid ∨ k = .categoryInvalid ∨ k = .itemUnsupported) :
      MayRaise p .msgDec k

theorem mayRaise_tow {p : Config.Params} {rec : Record} {f : Field} {v : FieldValue} {k : ErrorKind}
    (hv : rec.get f = some v) (h : toWire p v = .error k) : MayRaise p (towInstr f) k := by
  obtain rfl := Record.get_field hv
  obtain ⟨rfl, strict, m, rfl, -⟩ | ⟨rfl, hf⟩ := toWire_error h
  · exact .towMty strict
  · exact .towRange hf

theorem mayRaise_frw {p : Config.Params} {f : Field} {bs : List Byte} {k : ErrorKind}
    (h : fromWire p f bs = .error k) : MayRaise p (frwInstr f) k := by
  obtain rfl | ⟨rfl, hf⟩ := fromWire_error h
  · exact .frwSize f
  · exact .frwItem hf

/-- A command that raises, raises a kind of its row, and `raise` is all it does (60_exceptions.md R207, R210). -/
theorem CommandOutcome.status_zero_or_raise {i : Instr} {s t : State} (h : CommandOutcome s t i) :
    t.status = 0 ∨ ∃ k, MayRaise s.params i k ∧ t = s.finish k.code := by
  cases h with
  | hdrEnc e | hdrDec _ _ e | fsSet _ _ e | fsGet _ _ e | fspecEnc e | fspecDec _ _ e | tow _ _ _ _ _ e | frw _ _ _ e
  | recEnc _ _ e | recDec _ _ e | ofsQ _ _ _ _ e | msgEnc _ _ e | msgDec _ _ e => exact .inl (e ▸ rfl)
  | fsSetRaise _ hn e | fsGetRaise _ hn e | ofsQBad _ hn e => exact .inr ⟨_, .illegalOperand hn, e⟩
  | hdrDecRaise _ hk e => exact .inr ⟨_, hdrDec_error hk ▸ .hdrDec, e⟩
  | fspecDecRaise _ hk e => exact .inr ⟨_, fspecParse_error hk ▸ .fspecDec, e⟩
  | towRaise _ _ _ hv hk e => exact .inr ⟨_, mayRaise_tow hv hk, e⟩
  | towEmpty f _ e => exact .inr ⟨_, .towEmpty f, e⟩
  | frwRaise _ _ hk e => exact .inr ⟨_, mayRaise_frw hk, e⟩
  | recEncRaise _ hk e => exact .inr ⟨_, .recEnc (recEnc_error_kind hk), e⟩
  | recDecRaise _ hk e => exact .inr ⟨_, .recDec (recDec_error hk), e⟩
  | ofsQRaise f _ _ hk e => exact .inr ⟨_, .ofsQ f (fieldOffset_error hk), e⟩
  | msgEncRaise _ hk e => exact .inr ⟨_, .msgEnc (msgEnc_error hk), e⟩
  | msgDecRaise _ hk e => exact .inr ⟨_, .msgDec (msgDec_error hk), e⟩

/-- Settles O14: what raises is `State.finish` on the state the command found. -/
theorem failingCommandChangesOnlyStatus : Obligations.FailingCommandChangesOnlyStatus := by
  intro i s t hc h hstatus
  obtain hzero | ⟨k, -, rfl⟩ := (commandOutcome hc h).status_zero_or_raise
  · exact absurd hzero hstatus
  · rfl

/-! ### The columns of the table -/

section
variable {p : Config.Params} {i : Instr}

theorem MayRaise.of_sizeInvalid (h : MayRaise p i .sizeInvalid) :
    i ∈ [Instr.hdrDec, .fspecDec, .frwDsi, .frwMty, .frwTod, .frwSec, .frwArp, .frwScs, .frwSpm, .frwGpw, .frwPos,
      .recDec, .msgEnc, .msgDec] ∨ ∃ f, i = .ofsQ f := by
  cases h with
  | hdrDec | fspecDec | recDec | msgEnc | msgDec => simp
  | frwSize f => cases f <;> simp [frwInstr]
  | ofsQ f => exact .inr ⟨f, rfl⟩
  | recEnc hk => simp at hk

theorem MayRaise.of_categoryInvalid (h : MayRaise p i .categoryInvalid) : i = .msgEnc ∨ i = .msgDec := by
  cases h with
  | msgEnc => exact .inl rfl
  | msgDec => exact .inr rfl
  | recEnc hk | recDec hk | ofsQ _ hk => simp at hk

theorem MayRaise.of_rangeInvalid (h : MayRaise p i .rangeInvalid) :
    i ∈ [Instr.towTod, .towSec, .towArp, .towGpw, .towPos, .recEnc, .msgEnc] := by
  cases h with
  | @towRange f hf =>
    simp only [List.mem_cons, List.not_mem_nil, or_false] at hf
    rcases hf with rfl | rfl | rfl | rfl | rfl <;> simp [towInstr]
  | recEnc | msgEnc => simp
  | recDec hk | ofsQ _ hk | msgDec hk => simp at hk

theorem MayRaise.of_itemUnsupported (h : MayRaise p i .itemUnsupported) :
    i ∈ [Instr.frwScs, .frwSpm, .recDec, .msgDec] ∨ (∃ f, i = .ofsQ f) ∨
      (p.mtStrict = true ∧ i ∈ [Instr.towMty, .frwMty, .recEnc, .msgEnc]) := by
  cases h with
  | towMty strict => exact .inr (.inr ⟨strict, by simp⟩)
  | frwItem hf =>
    obtain rfl | rfl | ⟨rfl, strict⟩ := hf
    · exact .inl (by simp [frwInstr])
    · exact .inl (by simp [frwInstr])
    · exact .inr (.inr ⟨strict, by simp [frwInstr]⟩)
  | recEnc hk => exact .inr (.inr ⟨by simpa using hk, by simp⟩)
  | msgEnc hk => exact .inr (.inr ⟨by simpa using hk, by simp⟩)
  | recDec | msgDec => exact .inl (by simp)
  | ofsQ f => exact .inr (.inl ⟨f, rfl⟩)

/-- A command with legal operands raises CommandInvalid only for an empty slot (60_exceptions.md R205). -/
theorem MayRaise.of_commandInvalid (hwf : i.WellFormed = true) (h : MayRaise p i .commandInvalid) :
    i ∈ [Instr.towDsi, .towMty, .towTod, .towSec, .towArp, .towScs, .towSpm, .towGpw, .towPos] := by
  cases h with
  | illegalOperand hill => exact absurd hwf (Bool.eq_false_iff.1 hill)
  | towEmpty f => cases f <;> simp [towInstr]
  | recEnc hk | recDec hk | ofsQ _ hk | msgEnc hk | msgDec hk => simp at hk

end

theorem ErrorKind.code_cases (k : ErrorKind) :
    k.code = 0 ∨ k.code = 1 ∨ k.code = 2 ∨ k.code = 3 ∨ k.code = 4 ∨ k.code = 5 := by cases k <;> decide

/-- Settles O15: the code in STATUS is 0 or that of a kind of the command's row, and it names the kind. -/
theorem outcomeKindsOfEachCommand : Obligations.OutcomeKindsOfEachCommand := by
  intro i s t hc hwf h
  obtain hzero | ⟨k, hk, rfl⟩ := (commandOutcome hc h).status_zero_or_raise
  · simp [hzero]
  · have kind {l : ErrorKind} (hcode : k.code = l.code) : MayRaise s.params i l := ErrorKind.code_injective hcode ▸ hk
    exact ⟨k.code_cases, fun hs => MayRaise.of_sizeInvalid (kind hs), fun hs => MayRaise.of_categoryInvalid (kind hs),
      fun hs => MayRaise.of_rangeInvalid (kind hs), fun hs => MayRaise.of_itemUnsupported (kind hs),
      fun hs => MayRaise.of_commandInvalid hwf (kind hs)⟩

end Sys2Proof.Machine

/-! ## Which registers a command writes -/

namespace Sys2Proof.Machine

/-! ### Register by register -/

section
variable {i : Instr} {s t : State}

/-- Only REC.ENC and MSG.ENC store octets (10_state.md R33). -/
theorem CommandOutcome.buf_eq (h : CommandOutcome s t i) (hi : i ∉ [Instr.recEnc, .msgEnc]) :
    t.buf = s.buf ∧ t.blen = s.blen := by
  cases h with
  | recEnc | msgEnc => simp at hi
  | _ => subst_vars; exact ⟨rfl, rfl⟩

/-- Octets stored at 0 and on leave those at and beyond their number (20_memory.md R53). -/
theorem State.storeBuf_octet_of_blen_le {bs : List Byte} {a : Nat} (hfit : bs.length ≤ 65535)
    (ha : (s.storeBuf bs).blen.toNat ≤ a) : Memory.octet (s.storeBuf bs).buf a = Memory.octet s.buf a := by
  rw [State.storeBuf_blen, BitVec.toNat_ofNat, Nat.mod_eq_of_lt (Nat.lt_succ_of_le hfit)] at ha
  rw [State.storeBuf_buf, Memory.octet_writeBytes_zero, List.getD_eq_default _ _ ha]

/-- What a command stores ends where the new BLEN does (43_record_engine.md R171, 44_message_engine.md R191). -/
theorem CommandOutcome.octet_eq_of_blen_le (h : CommandOutcome s t i) {a : Nat} (ha : t.blen.toNat ≤ a) :
    Memory.octet t.buf a = Memory.octet s.buf a := by
  cases h with
  | recEnc bs h e =>
    subst e
    exact State.storeBuf_octet_of_blen_le ((recEnc_length_le h).trans (by decide)) ha
  | msgEnc bs h e =>
    subst e
    exact State.storeBuf_octet_of_blen_le (msgDec_msgEnc h).2 ha
  | _ => subst_vars; rfl

theorem CommandOutcome.r_eq (h : CommandOutcome s t i)
    (hi : i ∉ [Instr.frwDsi, .frwMty, .frwTod, .frwSec, .frwArp, .frwScs, .frwSpm, .frwGpw, .frwPos, .recDec]) :
    t.r = s.r := by
  cases h with
  | frw f => cases f <;> simp [frwInstr] at hi
  | recDec => simp at hi
  | _ => subst_vars; rfl

theorem CommandOutcome.rs_eq (h : CommandOutcome s t i) (hi : i ≠ .msgDec) : t.rs = s.rs := by
  cases h with
  | msgDec => exact absurd rfl hi
  | _ => subst_vars; rfl

theorem CommandOutcome.hcat_eq (h : CommandOutcome s t i) (hi : i ∉ [Instr.hdrDec, .msgDec]) : t.hcat = s.hcat := by
  cases h with
  | hdrDec | msgDec => simp at hi
  | _ => subst_vars; rfl

theorem CommandOutcome.hlen_eq (h : CommandOutcome s t i) (hi : i ∉ [Instr.hdrDec, .msgEnc, .msgDec]) :
    t.hlen = s.hlen := by
  cases h with
  | hdrDec | msgEnc | msgDec => simp at hi
  | _ => subst_vars; rfl

theorem CommandOutcome.fsb_eq (h : CommandOutcome s t i) (hi : ∀ n, i ≠ .fsSet n) : t.fsb = s.fsb := by
  cases h with
  | fsSet n => exact absurd rfl (hi n)
  | _ => subst_vars; rfl

theorem CommandOutcome.chain_eq (h : CommandOutcome s t i) (hi : i ∉ [Instr.fspecEnc, .fspecDec]) :
    t.fsp0 = s.fsp0 ∧ t.fsp1 = s.fsp1 ∧ t.flen = s.flen := by
  cases h with
  | fspecEnc | fspecDec => simp at hi
  | _ => subst_vars; exact ⟨rfl, rfl, rfl⟩

theorem CommandOutcome.w_eq (h : CommandOutcome s t i)
    (hi : i ∉ [Instr.hdrEnc, .towDsi, .towMty, .towTod, .towSec, .towArp, .towScs, .towSpm, .towGpw, .towPos]) :
    t.w = s.w ∧ t.wlen = s.wlen := by
  cases h with
  | hdrEnc => simp at hi
  | tow f => cases f <;> simp [towInstr] at hi
  | _ => subst_vars; exact ⟨rfl, rfl⟩

theorem CommandOutcome.rlen_eq (h : CommandOutcome s t i) (hi : i ∉ [Instr.recEnc, .recDec]) : t.rlen = s.rlen := by
  cases h with
  | recEnc | recDec => simp at hi
  | _ => subst_vars; rfl

theorem CommandOutcome.ofs_eq (h : CommandOutcome s t i) (hi : ∀ f, i ≠ .ofsQ f) : t.ofs = s.ofs := by
  cases h with
  | ofsQ f => exact absurd rfl (hi f)
  | _ => subst_vars; rfl

theorem CommandOutcome.t_eq (h : CommandOutcome s t i) (hofs : ∀ f, i ≠ .ofsQ f) (hget : ∀ n, i ≠ .fsGet n) :
    t.t = s.t := by
  cases h with
  | ofsQ f => exact absurd rfl (hofs f)
  | fsGet n => exact absurd rfl (hget n)
  | _ => subst_vars; rfl

end

/-- Settles O19: what a command has done is one of the cases of `CommandOutcome`, and each register is written in those
cases only that its own lemma above excludes. -/
theorem commandsWriteOnlyTheirRegisters : Obligations.CommandsWriteOnlyTheirRegisters := by
  intro i s t hc hexec
  have h := commandOutcome hc hexec
  have stored : i ∉ [Instr.recEnc, .msgEnc] → t.blen = s.blen ∧ ∀ a, Memory.octet t.buf a = Memory.octet s.buf a :=
    fun hi => by
      obtain ⟨hbuf, hblen⟩ := h.buf_eq hi
      exact ⟨hblen, fun a => by rw [hbuf]⟩
  exact ⟨stored, fun _ _ _ => h.octet_eq_of_blen_le, h.r_eq, h.rs_eq, h.hcat_eq, h.hlen_eq, h.fsb_eq, h.chain_eq,
    h.w_eq, h.rlen_eq, h.ofs_eq, h.t_eq, h.sameParamsAndQueue.params, h.sameParamsAndQueue.pending⟩

end Sys2Proof.Machine

/-! ## What a host write does -/

namespace Sys2Proof.Machine

section
variable {s t : State} {i : Half} {change : Record → Record}

theorem hostWrite_buf_of_lt {a : Half} (b : Byte) (ha : a.toNat < 65535) :
    hostWrite (.buf a b) s = .next { s with buf := Memory.write s.buf a.toNat b } := if_pos ha

/-- 65535 is the one address of 16 bits that BUF does not have (20_memory.md R50; log entry 10). -/
theorem hostWrite_buf_last (s : State) (b : Byte) :
    hostWrite (.buf 0xFFFF#16 b) s = .fault (.noSuchByte 0xFFFF#16) := by
  rw [hostWrite, if_neg (by decide)]

/-- The one record of the index is replaced by what the write makes of it (10_state.md R32). -/
theorem writeRs_of_getElem? {rec : Record} (h : s.rs[i.toNat]? = some rec) :
    writeRs i change s = .next { s with rs := s.rs.set i.toNat (change rec) } := by
  obtain ⟨hlt, -⟩ := List.getElem?_eq_some_iff.1 h
  rw [writeRs, if_pos hlt, List.modify_eq_set_getElem?, h]
  rfl

theorem writeRs_of_lt (rec : Record) (h : i.toNat < s.rs.length) :
    writeRs i (fun _ => rec) s = .next { s with rs := s.rs.set i.toNat rec } :=
  writeRs_of_getElem? (List.getElem?_eq_getElem h)

theorem writeRs_of_length_le (h : s.rs.length ≤ i.toNat) : writeRs i change s = .fault (.noSuchRecord i) :=
  if_neg (Nat.not_lt.2 h)

/-- NREC cuts RS or lets it grow at its end (10_state.md R32; log entry 5). -/
theorem State.setNrec_rs_getElem? {n k : Nat} (hn : k < n) (hk : k < s.rs.length) :
    (s.setNrec n).rs[k]? = s.rs[k]? := by
  have hcut : k < (s.rs.take n).length := List.length_take ▸ lt_min hn hk
  exact (List.getElem?_append_left hcut).trans (List.getElem?_take_of_lt hn)

theorem writeRs_keeps_status_cur (h : writeRs i change s = .next t) : t.status = s.status ∧ t.cur = s.cur := by
  unfold writeRs at h
  split at h <;> cases h
  exact ⟨rfl, rfl⟩

/-- No host write names STATUS or CUR (the spec's decision D29; log entry 21). -/
theorem hostWrite_keeps_status_cur {w : HostWrite} (h : hostWrite w s = .next t) :
    t.status = s.status ∧ t.cur = s.cur := by
  cases w with
  | buf a b =>
    simp only [hostWrite] at h
    split at h <;> cases h
    exact ⟨rfl, rfl⟩
  | rs | rsSlot | rsClear => exact writeRs_keeps_status_cur h
  | _ => cases h; exact ⟨rfl, rfl⟩

end

/-- Settles O7: a write to BUF or RS stops where there is no such octet or record, and every other write is one
register's. -/
theorem hostWritesWriteTheNamedRegister : Obligations.HostWritesWriteTheNamedRegister := by
  intro s
  refine ⟨fun a b ha => ?buf, hostWrite_buf_last s, fun _ => rfl, fun _ => rfl, fun i rec h => writeRs_of_lt rec h,
    fun i rec h => ⟨fun v => writeRs_of_getElem? h, fun f => writeRs_of_getElem? h⟩,
    fun i h => ⟨fun rec => writeRs_of_length_le h, fun v => writeRs_of_length_le h, fun f => writeRs_of_length_le h⟩,
    fun n => ?nrec, fun _ => rfl, fun _ => rfl, fun _ => rfl, fun _ => rfl, fun _ => rfl, fun _ => rfl, fun _ => rfl,
    fun _ => rfl, fun i b => ?w, fun _ => rfl, fun _ => rfl, fun _ => rfl, fun h t hw => ?unnamed⟩
  case buf => exact ⟨_, hostWrite_buf_of_lt b ha, rfl, fun x => Memory.octet_write s.buf a.toNat x b⟩
  case nrec => exact ⟨_, rfl, s.setNrec_rs_length n.toNat, fun k => State.setNrec_rs_getElem?, rfl⟩
  case w => exact ⟨_, rfl, rfl, Vector.toList_set i.isLt⟩
  case unnamed =>
    obtain ⟨hstatus, hcur⟩ := hostWrite_keeps_status_cur hw
    obtain ⟨hparams, hpending⟩ := hostWrite_sameParamsAndQueue hw
    exact ⟨hstatus, hcur, hparams, hpending⟩

end Sys2Proof.Machine

/-! ## Reset -/

namespace Sys2Proof.Machine

/-- Settles O8: each register against its row of 10_state.md R36. -/
theorem resetHoldsTheSpecValues : Obligations.ResetHoldsTheSpecValues :=
  ⟨rfl, rfl, rfl, rfl, rfl, rfl, rfl, rfl, rfl, rfl, rfl, rfl, rfl, rfl, rfl, rfl, rfl⟩

/-- Settles O10: BUF and RS are empty, STATUS is 0 and there is no phase. -/
theorem invariantHoldsAtReset : Obligations.InvariantHoldsAtReset :=
  ⟨Memory.reset_wf, Nat.zero_le _, Nat.zero_le _, .inl rfl⟩

/-! ### The first command -/

theorem State.reset_fsb : State.reset.fsb = 0#8 := rfl

theorem State.reset_get (f : Field) : State.reset.r.get f = none := by cases f <;> rfl

/-- Without an octet there is no field (42_field_codecs.md R130). -/
theorem fromWire_nil (p : Config.Params) (f : Field) : fromWire p f [] = .error .sizeInvalid := by cases f <;> rfl

theorem recEnc_empty (p : Config.Params) : recEnc p Record.empty = .ok [0] := rfl

theorem fieldOffset_nil (p : Config.Params) (f : Nat) : fieldOffset p [] f = .error .sizeInvalid := rfl

/-- Settles O9: after reset there is no octet to read, in BUF or W, no value in R, no bit in FSB, and the category is
not 34. -/
theorem firstCommandAfterReset : Obligations.FirstCommandAfterReset := by
  refine ⟨fun i hi => ?decode, fun f h1 h14 => ?offset, ?msgEnc, ?recEnc, ?fspecEnc, ?hdrEnc,
    fun n h1 h8 => ⟨?get, ?set⟩, fun i hi => ?tow, fun i hi => ?frw⟩
  case decode =>
    simp only [List.mem_cons, List.not_mem_nil, or_false] at hi
    rcases hi with rfl | rfl | rfl | rfl <;> rfl
  case offset => exact exec_ofsQ_of_error (k := .sizeInvalid) h1 h14 (fieldOffset_nil _ _)
  case msgEnc => exact exec_msgEnc_of_error (k := .categoryInvalid) rfl
  case recEnc => exact ⟨_, exec_recEnc_of_ok (recEnc_empty _), rfl, rfl⟩
  case fspecEnc => exact exec_fspecEnc _
  case hdrEnc => exact ⟨_, exec_hdrEnc _, rfl, rfl⟩
  case get =>
    rw [exec_fsGet, if_pos (bitNumberOk_eq_true h1 h8), State.reset_fsb, srcBit_zero]
    rfl
  case set =>
    rw [exec_fsSet, if_pos (bitNumberOk_eq_true h1 h8), State.reset_fsb, BitVec.zero_or]
    rfl
  case tow =>
    obtain ⟨f, -, rfl⟩ := List.mem_map.1 (show i ∈ codecFields.map towInstr from hi)
    rw [exec_towInstr]
    exact slotToWire_of_none (State.reset_get f)
  case frw =>
    obtain ⟨f, -, rfl⟩ := List.mem_map.1 (show i ∈ codecFields.map frwInstr from hi)
    rw [exec_frwInstr]
    exact slotFromWire_of_error (s := State.reset) (k := .sizeInvalid) (fromWire_nil _ f)

end Sys2Proof.Machine

/-! ## Every instruction answers a next state -/

namespace Sys2Proof.Machine

section
variable (s : State)

theorem slotToWire_next (f : Field) : ∃ t, slotToWire f s = .next t := by
  cases hv : s.r.get f with
  | none => exact ⟨_, slotToWire_of_none hv⟩
  | some v =>
    cases h : toWire s.params v with
    | ok bs => exact ⟨_, slotToWire_stages hv h⟩
    | error k => exact ⟨_, slotToWire_of_error hv h⟩

theorem runField_next (f : Field) : ∃ t, runField f s = .next t := by
  cases h : fieldAt s.params f s.atCursor with
  | ok d => exact ⟨_, runField_of_fieldAt h⟩
  | error k => exact ⟨_, runField_of_fieldAt_error h⟩

theorem exec_fx0_next : ∃ t, exec .fx0 s = .next t := by
  cases h : s.atCursor with
  | nil => exact ⟨_, exec_fx0_nil h⟩
  | cons o more => exact ⟨_, exec_fx0_cons h⟩

theorem exec_subfieldRow_next {i : Instr} {item : StatusItem}
    (hi : i ∈ [.subCom item, .subPsr item, .subSsr item, .subMds item]) : ∃ t, exec i s = .next t := by
  obtain ⟨_, _, _, -, h⟩ | ⟨-, h⟩ := exec_subfieldRow_outcome hi s
  · exact ⟨_, h⟩
  · exact ⟨_, h⟩

theorem exec_header_next (c : Byte) (l : Half) : ∃ t, exec (.header c l) s = .next t := by
  cases h : headerCheck c l s.blen.toNat with
  | ok _ => exact ⟨_, exec_header_of_ok h⟩
  | error k => exact ⟨_, exec_header_of_error h⟩

/-- A command that tests its operand first answers when what follows the test does (30_encoding.md R87). -/
theorem guarded_next {ok : Bool} {k : ErrorKind} {run : Host.Outcome State Fault Refusal}
    (hrun : ∃ t, run = .next t) : ∃ t, (if ok then run else raise k s) = .next t := by
  cases ok with
  | true => exact hrun
  | false => exact ⟨_, rfl⟩

end

/-- Settles O13: a command commits or raises, a row of a field or an octet reads or raises, and a row of a test raises
or leaves the state; no ending stops. -/
theorem everyInstructionAnswersANextState : Obligations.EveryInstructionAnswersANextState := by
  intro i s
  cases i with
  | hdrEnc | fspecEnc | frn8 | frn10 | frn12 | frn13 | frn14 => exact ⟨_, rfl⟩
  | hdrDec | fspecDec | recEnc | recDec | msgEnc | msgDec
  | frwDsi | frwMty | frwTod | frwSec | frwArp | frwScs | frwSpm | frwGpw | frwPos => exact conclude_next ..
  | towDsi | towMty | towTod | towSec | towArp | towScs | towSpm | towGpw | towPos => exact slotToWire_next s _
  | frn1Dsi | frn2Mty | frn3Tod | frn4Sec | frn5Arp | frn6Scs | frn7Spm | frn9Gpw | frn11Pos => exact runField_next s _
  | subCom item | subPsr item | subSsr item | subMds item =>
    exact exec_subfieldRow_next s (item := item) (by simp)
  | fsSet | fsGet => exact guarded_next s ⟨_, rfl⟩
  | ofsQ => exact guarded_next s (conclude_next ..)
  | fx0 => exact exec_fx0_next s
  | fx1 o => exact ⟨_, raise_if_eq (fx o) .sizeInvalid s⟩
  | subSpare p => exact ⟨_, exec_subSpare p s⟩
  | subFx p => exact ⟨_, exec_subFx p s⟩
  | header c l => exact exec_header_next s c l

end Sys2Proof.Machine
